-- ==== Sys2Proof/Word.lean ====
section
/-! DEFINITION. The word types of GIFDEC: 32-bit host registers, 16-bit pixel coordinates, 8-bit bytes. -/

namespace Sys2Proof

/-- A host register or a command word (`10_state.md` R21, `30_encoding.md` R80). -/
abbrev Word := BitVec 32

/-- A pixel coordinate, a pixel count or a packed colour (`10_state.md` R26, R38). -/
abbrev Half := BitVec 16

/-- A byte of the stream or of local memory, a palette index (`20_memory.md` R67). -/
abbrev Byte := BitVec 8

end Sys2Proof
end

