-- ==== Sys2Proof/Syntax.lean ====
section
/-! DEFINITION. The two instruction layers of GIFDEC (`00_scope.md` R2): the 19 host commands of `30_encoding.md` R81
and the 6 LZW code classes of R88. One constructor per row of the opcode table.

A command's operands stand in ARG0 to ARG2, which are state (R85), so its constructor holds only what the word itself
gives: LZW_INIT's IMM8 (R82); every other command ignores IMM8. A code of a class whose number is fixed by the decoder
state (clearCode, endCode, SLOT) needs no operand; the other classes hold the code. -/

namespace Sys2Proof

inductive Instr where
  -- system (`43_system.md`)
  | nop
  | reset
  -- reader (`40_reader.md`)
  | rdByte
  | rdWord
  | rdBlock
  | rewind
  | seek
  | tell
  | scanChain
  | palLoad
  -- LZW decoder (`41_lzw.md`)
  | lzwInit (m : Byte)
  | lzwDecode
  -- compositor (`42_compositor.md`)
  | setScreen
  | setFrame
  | setGce
  | cycleStart
  | decodeFrame
  -- system (`43_system.md`)
  | memRd
  | memWr
  -- LZW codes (`30_encoding.md` R88)
  | lzwClear
  | lzwEnd
  | lzwRoot (c : Nat)
  | lzwKnown (c : Nat)
  | lzwKwkwk
  | lzwInvalid (c : Nat)
deriving DecidableEq, Repr

end Sys2Proof
end

