-- ==== Sys2Proof/WellFormed.lean ====
section
/-! DEFINITION. When an instruction is well formed: the bounds that hold in every decoder state (`Instr.wellFormed`),
and the condition of `30_encoding.md` R88 that selects a code class in one decoder state (`Instr.selected`). -/

namespace Sys2Proof

/-- The decoder state that the classes of `30_encoding.md` R88 are tested against: M, CURSIZE, SLOT and PREV_VALID
(`10_state.md` R34). -/
structure CodeCtx where
  m       : Nat
  cursize : Nat
  slot    : Nat
  prev    : Bool
deriving DecidableEq, Repr

/-- `clearCode = 2^m` (`10_state.md` R35). -/
abbrev CodeCtx.clearCode (x : CodeCtx) : Nat := 2 ^ x.m

/-- `endCode = clearCode + 1` (`10_state.md` R35). -/
abbrev CodeCtx.endCode (x : CodeCtx) : Nat := x.clearCode + 1

/-- `newcodes = clearCode + 2` (`10_state.md` R35). -/
abbrev CodeCtx.newcodes (x : CodeCtx) : Nat := x.clearCode + 2

namespace Instr

/-- The instruction is a host command (layer 1 of `00_scope.md` R2), not an LZW code. -/
def isCommand : Instr → Bool
  | nop | reset | rdByte | rdWord | rdBlock | rewind | seek | tell | scanChain | palLoad | lzwInit _ | lzwDecode
  | setScreen | setFrame | setGce | cycleStart | decodeFrame | memRd | memWr => true
  | lzwClear | lzwEnd | lzwRoot _ | lzwKnown _ | lzwKwkwk | lzwInvalid _ => false

/-- The bounds that no decoder state can break. A root code stands for one byte (`41_lzw.md` R142: `2^m <= 256`); a code
has at most 12 bits (`00_scope.md` R7). A command word has no unlawful operand: LZW_INIT takes any IMM8 and raises
BadArgument for one outside 2 to 8 (R140). -/
def wellFormed : Instr → Bool
  | lzwRoot c => decide (c < 256)
  | lzwKnown c => decide (c < 4096)
  | lzwInvalid c => decide (c < 4096)
  | nop | reset | rdByte | rdWord | rdBlock | rewind | seek | tell | scanChain | palLoad | lzwInit _ | lzwDecode
  | setScreen | setFrame | setGce | cycleStart | decodeFrame | memRd | memWr
  | lzwClear | lzwEnd | lzwKwkwk => true

/-- The condition column of `30_encoding.md` R88, with the order of the tests made explicit (a later class excludes the
earlier ones), and the width of the code (R87). No host command is a code. -/
def selected (x : CodeCtx) : Instr → Bool
  | lzwClear => decide (x.clearCode < 2 ^ x.cursize)
  | lzwEnd => decide (x.endCode < 2 ^ x.cursize)
  | lzwRoot c => !x.prev && decide (c < x.clearCode) && decide (c < 2 ^ x.cursize)
  | lzwKnown c =>
    x.prev && decide (c < x.slot) && decide (c ≠ x.clearCode) && decide (c ≠ x.endCode) && decide (c < 2 ^ x.cursize)
  | lzwKwkwk =>
    x.prev && decide (x.slot ≠ x.clearCode) && decide (x.slot ≠ x.endCode) && decide (x.slot < 2 ^ x.cursize)
  | lzwInvalid c =>
    (if x.prev then decide (x.slot < c) else decide (x.clearCode ≤ c))
      && decide (c ≠ x.clearCode) && decide (c ≠ x.endCode) && decide (c < 2 ^ x.cursize)
  | nop | reset | rdByte | rdWord | rdBlock | rewind | seek | tell | scanChain | palLoad | lzwInit _ | lzwDecode
  | setScreen | setFrame | setGce | cycleStart | decodeFrame | memRd | memWr => false

end Instr

end Sys2Proof
end

