-- ==== Sys2Proof/Decode.lean ====
section
/-! DEFINITION. Decoding and encoding, of command words (`30_encoding.md` R80 to R84) and of LZW codes (R87, R88).

A command word is accessed only as a whole 32-bit word and has no byte order (`20_memory.md` R65), so the decoder reads
a word. An LZW code is a number of CURSIZE bits that the code reader has taken from the bit string
(`41_lzw.md` R146); its class depends on the decoder state. -/

namespace Sys2Proof

/-- Why a word is no command. Both are `Fault(BadCommand)` at CMD (`60_exceptions.md` R241). -/
inductive DecodeError where
  /-- `w[31:16] != 0` (`30_encoding.md` R83). -/
  | reservedBits
  /-- An OPC that R81 does not list (`30_encoding.md` R84). -/
  | unassignedOpcode
deriving DecidableEq, Repr

/-- OPC, bits 7:0 of a command word (`30_encoding.md` R80). -/
def opcOf (w : Word) : Byte := w.extractLsb' 0 8

/-- IMM8, bits 15:8 of a command word (`30_encoding.md` R80, R82). -/
def immOf (w : Word) : Byte := w.extractLsb' 8 8

/-- RSV, bits 31:16 of a command word (`30_encoding.md` R80, R83). -/
def rsvOf (w : Word) : Half := w.extractLsb' 16 16

/-- The opcode map of `30_encoding.md` R81, read from the opcode. -/
def instrOfOpc (opc : Nat) (imm : Byte) : Option Instr :=
  match opc with
  | 0x00 => some .nop
  | 0x01 => some .reset
  | 0x10 => some .rdByte
  | 0x11 => some .rdWord
  | 0x12 => some .rdBlock
  | 0x13 => some .rewind
  | 0x14 => some .seek
  | 0x15 => some .tell
  | 0x16 => some .scanChain
  | 0x17 => some .palLoad
  | 0x20 => some (.lzwInit imm)
  | 0x21 => some .lzwDecode
  | 0x30 => some .setScreen
  | 0x31 => some .setFrame
  | 0x32 => some .setGce
  | 0x33 => some .cycleStart
  | 0x34 => some .decodeFrame
  | 0x40 => some .memRd
  | 0x41 => some .memWr
  | _ => none

/-- The decoder of command words: the two tests of `30_encoding.md` R92, in its order. -/
def decodeWord (w : Word) : Except DecodeError Instr :=
  if rsvOf w ≠ 0 then .error .reservedBits
  else match instrOfOpc (opcOf w).toNat (immOf w) with
    | some i => .ok i
    | none => .error .unassignedOpcode

/-- The class of the code `c` in the decoder state `x`, tested in the order of `30_encoding.md` R88. -/
def decodeCode (x : CodeCtx) (c : Nat) : Instr :=
  if c = x.clearCode then .lzwClear
  else if c = x.endCode then .lzwEnd
  else if x.prev then
    if c < x.slot then .lzwKnown c
    else if c = x.slot then .lzwKwkwk
    else .lzwInvalid c
  else if c < x.clearCode then .lzwRoot c
  else .lzwInvalid c

/-- The opcode map of `30_encoding.md` R81, read from the command. An LZW code has no opcode. -/
def opcode : Instr → Option Byte
  | .nop => some 0x00#8
  | .reset => some 0x01#8
  | .rdByte => some 0x10#8
  | .rdWord => some 0x11#8
  | .rdBlock => some 0x12#8
  | .rewind => some 0x13#8
  | .seek => some 0x14#8
  | .tell => some 0x15#8
  | .scanChain => some 0x16#8
  | .palLoad => some 0x17#8
  | .lzwInit _ => some 0x20#8
  | .lzwDecode => some 0x21#8
  | .setScreen => some 0x30#8
  | .setFrame => some 0x31#8
  | .setGce => some 0x32#8
  | .cycleStart => some 0x33#8
  | .decodeFrame => some 0x34#8
  | .memRd => some 0x40#8
  | .memWr => some 0x41#8
  | .lzwClear | .lzwEnd | .lzwRoot _ | .lzwKnown _ | .lzwKwkwk | .lzwInvalid _ => none

/-- IMM8 of the expansion of `30_encoding.md` R94: `m` for LZW_INIT and 0 otherwise. -/
def immField : Instr → Byte
  | .lzwInit m => m
  | .nop | .reset | .rdByte | .rdWord | .rdBlock | .rewind | .seek | .tell | .scanChain | .palLoad | .lzwDecode
  | .setScreen | .setFrame | .setGce | .cycleStart | .decodeFrame | .memRd | .memWr
  | .lzwClear | .lzwEnd | .lzwRoot _ | .lzwKnown _ | .lzwKwkwk | .lzwInvalid _ => 0#8

/-- The command word of a command, with RSV = 0 (`30_encoding.md` R80, R94). -/
def encode (i : Instr) : Option Word :=
  (opcode i).map fun opc => 0#16 ++ immField i ++ opc

/-- The code of a code class in the decoder state `x` (`30_encoding.md` R88). A command is no code. -/
def encodeCode (x : CodeCtx) : Instr → Option Nat
  | .lzwClear => some x.clearCode
  | .lzwEnd => some x.endCode
  | .lzwRoot c => some c
  | .lzwKnown c => some c
  | .lzwKwkwk => some x.slot
  | .lzwInvalid c => some c
  | .nop | .reset | .rdByte | .rdWord | .rdBlock | .rewind | .seek | .tell | .scanChain | .palLoad | .lzwInit _
  | .lzwDecode | .setScreen | .setFrame | .setGce | .cycleStart | .decodeFrame | .memRd | .memWr => none

/-- The host's view of the decoder: the command whose bits are `w`, numbered as the table numbers them (bit 0 is bit 0 of
the 32-bit command word). A number that does not fit the row, or the word, is no command. -/
def decodeTableWord (nbits w : Nat) : Option Instr :=
  if w < 2 ^ nbits ∧ w < 2 ^ 32 then
    match decodeWord (BitVec.ofNat 32 w) with
    | .ok i => some i
    | .error _ => none
  else none

end Sys2Proof
end

