-- ==== Sys2Proof/Config.lean ====
section
/-! DEFINITION. The implementation parameters of `00_scope.md` R6 to R11. They are OPEN in the spec (D47 to D49), so
they are plain data that the state carries and no step changes: a statement over every state is a statement over every
configuration. -/

namespace Sys2Proof

/-- EMIT_MODE (`00_scope.md` R10). -/
inductive EmitMode where
  | pixel
  | line
deriving DecidableEq, Repr

/-- The parameters of `00_scope.md` R6 (MAX_W, MAX_H), R7 (LZW_MAX_BITS), R8 (HAS_BACKUP), R9 (HAS_FRAMEBUFFER),
R10 (EMIT_MODE) and R11 (HAS_START_HOOK). Which values are lawful is `Machine.legalConfig`. -/
structure Config where
  maxW           : Nat
  maxH           : Nat
  lzwMaxBits     : Nat
  hasBackup      : Bool
  hasFramebuffer : Bool
  emitMode       : EmitMode
  hasStartHook   : Bool
deriving DecidableEq, Repr

end Sys2Proof
end

