-- ==== Sys2Proof/Machine/State.lean ====
section
/-! DEFINITION. The state of the block, of its two collaborators and of its host (`10_state.md`), as plain data; the
reasons a step can stop; the state at power-on (R46, `70_reset_and_hazards.md` R270). -/

namespace Sys2Proof.Machine

/-- STATUS.CODE, the outcome of the last command (`30_encoding.md` R95). -/
inductive CmdCode where
  | success
  | streamReadFailure
  | lzwCorruptStream
  | badCommand
  | badArgument
  | badSequence
  | faulted
deriving DecidableEq, Repr

/-- STATUS.LZW_ST (`10_state.md` R33). -/
inductive LzwSt where
  | uninitialized
  | ready
  | clear
  | decoding
  | ended
deriving DecidableEq, Repr

/-- STATUS.LZW_END, why the decoder is in Ended (`10_state.md` R33). -/
inductive LzwEnd where
  | notEnded
  | endCode
  | chainEnd
  | readFailure
  | corrupt
deriving DecidableEq, Repr

/-- A normalised disposal method (`30_encoding.md` R99, values 0 to 3 in this order). -/
inductive Disposal where
  | none
  | leave
  | background
  | previous
deriving DecidableEq, Repr

/-- DIAG, the sticky diagnostic bits (`10_state.md` R25). -/
structure Diag where
  invalidDisposal : Bool
  outputClipped   : Bool
  readFailure     : Bool
  noEndCode       : Bool
deriving DecidableEq, Repr

/-- A rectangle of the canvas: FR_XY with FR_WH (`10_state.md` R26), DIRTY_XY with DIRTY_WH (R30). -/
structure Rect where
  x : Half
  y : Half
  w : Half
  h : Half
deriving DecidableEq, Repr

/-- GCE, the graphic-control fields (`10_state.md` R27). -/
structure Gce where
  tValid : Bool
  disp   : Disposal
  tIndex : Byte
deriving DecidableEq, Repr

/-- Local memory (`20_memory.md` R60, R61): the bytes that are not 0x00, by address, addresses rising. -/
abbrev Memory := List Host.Cell

/-- The stream collaborator (`10_state.md` R43, `20_memory.md` R63): `data` is S, `pos` is POS, `reads` is `k`, the index
of the next byte-read request of the run, and `failAt` lists the request indexes at which READ_FAIL answers failure
(`00_scope.md` R13). -/
structure Stream where
  data   : List Byte
  pos    : Nat
  reads  : Nat
  failAt : List Nat
deriving DecidableEq, Repr

/-- The LZW decoder (`10_state.md` R33 to R37). `stack` has the next byte to emit first, and LZW_SP is its length. The
two arrays of the dictionary hold the entries that are not 0, by code, codes rising. -/
structure Lzw where
  st        : LzwSt
  endReason : LzwEnd
  m         : Nat
  cursize   : Nat
  topSlot   : Nat
  slot      : Nat
  prevValid : Bool
  prevCode  : Nat
  first     : Byte
  acc       : Nat
  nbits     : Nat
  brem      : Nat
  stack     : List Byte
  prefixTab : List (Nat × Nat)
  suffixTab : List (Nat × Byte)
deriving DecidableEq, Repr

/-- One call of the rendering collaborator (`10_state.md` R45). `skip` is NONE or a byte (`30_encoding.md` R100). -/
inductive Event where
  | clearScreen
  | presentFrame
  | startDrawing
  | pixel (x y : Half) (r g b : Byte)
  | line (x y : Half) (idx : List Byte) (width : Half) (pal565 : List Half) (skip : Option Byte)
deriving DecidableEq, Repr

/-- One access of the host to the register space (`30_encoding.md` R94, `70_reset_and_hazards.md` R281): its width in
bits, its byte offset and, for a write, the word. -/
inductive HostAccess where
  | write (width offset : Nat) (value : Word)
  | read (width offset : Nat)
deriving DecidableEq, Repr

/-- `CMD w` of `30_encoding.md` R94: a 32-bit write to offset 0x00 (`10_state.md` R40). -/
abbrev HostAccess.cmd (w : Word) : HostAccess := .write 32 0x00 w

/-- The machine: parameters, collaborators, host, registers, decoder, memory (`10_state.md` R20). -/
structure State where
  /-- The parameters (`00_scope.md` R6 to R11). -/
  cfg         : Config
  /-- The stream collaborator (R43). -/
  stream      : Stream
  /-- The accesses the host has not made yet, next first (`70_reset_and_hazards.md` R281). -/
  program     : List HostAccess
  /-- What the host's register reads have returned, oldest first (the model's own record). -/
  hostReads   : List Word
  /-- ARG0 (R21). -/
  arg0        : Word
  /-- ARG1 (R21). -/
  arg1        : Word
  /-- ARG2 (R21). -/
  arg2        : Word
  /-- RESULT (R23). -/
  result      : Word
  /-- STATUS.FAULT (R24). -/
  fault       : Bool
  /-- STATUS.KEY (R24, R32). -/
  key         : Bool
  /-- STATUS.CODE (R24, R47). -/
  code        : CmdCode
  /-- DIAG (R25). -/
  diag        : Diag
  /-- FR_XY and FR_WH (R26). -/
  frame       : Rect
  /-- FR_FLAGS.INTERLACE (R26). -/
  interlace   : Bool
  /-- GCE (R27). -/
  gce         : Gce
  /-- DELAY (R27). -/
  delay       : Half
  /-- SCREEN.BG (R28). -/
  bg          : Byte
  /-- PREV.PREV_DISP (R29). -/
  prevDisp    : Disposal
  /-- PREV.PREV_FILL (R29). -/
  prevFill    : Byte
  /-- DIRTY_XY and DIRTY_WH (R30). -/
  dirty       : Rect
  /-- FRAME_NO (R32). -/
  frameNo     : Word
  /-- CYCLE_NO (R32). -/
  cycleNo     : Word
  /-- TOTAL_FRAMES (R32). -/
  totalFrames : Word
  /-- The LZW decoder, with STATUS.LZW_ST and STATUS.LZW_END (R33 to R37). -/
  lzw         : Lzw
  /-- Local memory (R38, R39). -/
  mem         : Memory
  /-- The render event log EV, oldest first (R45). -/
  ev          : List Event
deriving DecidableEq, Repr

/-- Why the machine stops with a fault. The block's own faults are not here: they are next states with STATUS.FAULT set
(`60_exceptions.md` R242). -/
inductive Fault where
  /-- The bound of a decode loop ran out. Raised by LZW_DECODE and DECODE_FRAME if the model's recursion bound were ever
  too small for the stream; that it never is, is a statement of this package (`60_exceptions.md` R280: every command
  ends). Safe: the model stops, the hardware goes on. -/
  | decodeLoopBound
deriving DecidableEq, Repr

/-- Why a step has no next state (`60_exceptions.md` R240, the fifth outcome). -/
inductive Refusal where
  /-- An instruction without a meaning yet, raised by exec's arm alone. Safe. -/
  | notModelled (mnemonic : String)
  /-- A configuration outside `00_scope.md` R6 or R7, raised by the step ("A model refuses a configuration that breaks
  this"). Safe. -/
  | illegalConfig
  /-- A stream of 2^32 bytes or more, outside `00_scope.md` R12, raised by the step. Safe. -/
  | illegalStream
  /-- A host access of another width or offset than `10_state.md` R41 allows, raised by the step. Safe. -/
  | illegalAccess
  /-- DECODE_FRAME with HAS_FRAMEBUFFER = false (`00_scope.md` R9), raised by DECODE_FRAME. Safe. -/
  | noFramebuffer
  /-- A code class asked of a decoder that reads no code there, or whose state gives that code another class
  (`30_encoding.md` R88), raised by the six code classes; no step raises it, since the decode loop runs each code as the
  class it decodes to. Safe. -/
  | codeNotRead
deriving DecidableEq, Repr

namespace Diag

/-- DIAG = 0. -/
def clear : Diag := { invalidDisposal := false, outputClipped := false, readFailure := false, noEndCode := false }

end Diag

/-- The decoder with every LZW field 0 and an empty stack (`41_lzw.md` R141, LzwUninit), over the two arrays. -/
def Lzw.uninit (prefixTab : List (Nat × Nat)) (suffixTab : List (Nat × Byte)) : Lzw :=
  { st := .uninitialized, endReason := .notEnded, m := 0, cursize := 0, topSlot := 0, slot := 0, prevValid := false,
    prevCode := 0, first := 0, acc := 0, nbits := 0, brem := 0, stack := [], prefixTab := prefixTab,
    suffixTab := suffixTab }

/-- The launch inputs of a run (`70_reset_and_hazards.md` R270, R281): S, the oracle, MEM_INIT, the host program, and
the unspecified contents of the dictionary arrays (`10_state.md` R46). -/
structure Launch where
  data      : List Byte
  failAt    : List Nat
  memInit   : Memory
  program   : List HostAccess
  prefixTab : List (Nat × Nat)
  suffixTab : List (Nat × Byte)
deriving DecidableEq, Repr

/-- The state at power-on (`10_state.md` R46, `70_reset_and_hazards.md` R270), for every configuration and every launch
input. -/
def State.powerOn (cfg : Config) (l : Launch) : State :=
  { cfg := cfg
    stream := { data := l.data, pos := 0, reads := 0, failAt := l.failAt }
    program := l.program
    hostReads := []
    arg0 := 0, arg1 := 0, arg2 := 0, result := 0
    fault := false, key := false, code := .success, diag := .clear
    frame := { x := 0, y := 0, w := 0, h := 0 }, interlace := false
    gce := { tValid := false, disp := .none, tIndex := 0 }, delay := 0, bg := 0
    prevDisp := .none, prevFill := 0
    dirty := { x := 0, y := 0, w := 0, h := 0 }
    frameNo := 0, cycleNo := 0, totalFrames := 0
    lzw := .uninit l.prefixTab l.suffixTab
    mem := l.memInit
    ev := [] }

/-- The configuration of `State.reset`: one lawful choice of the open parameters (DESIGN CHOICE, log 1), the
conventions of `95_test_vectors.md` on a 4 by 4 canvas. -/
def resetConfig : Config :=
  { maxW := 4, maxH := 4, lzwMaxBits := 12, hasBackup := true, hasFramebuffer := true, emitMode := .pixel,
    hasStartHook := true }

/-- The launch inputs of `State.reset`: nothing is launched (DESIGN CHOICE, log 1, log 2, log 4, log 5). -/
def resetLaunch : Launch :=
  { data := [], failAt := [], memInit := [], program := [], prefixTab := [], suffixTab := [] }

/-- The machine right after reset: power-on under one choice of the open inputs. -/
def State.reset : State := State.powerOn resetConfig resetLaunch

end Sys2Proof.Machine
end

