-- ==== Sys2Proof/Machine/Ops.lean ====
section
/-! DEFINITION. The shared operations: sparse tables, local memory and its map (`20_memory.md` R61 to R64), the stream
(R63), raising a fault and reporting (`60_exceptions.md` R242, R244), the dispatcher (`30_encoding.md` R92). -/

namespace Sys2Proof.Machine

/-! ### Sparse tables: pairs of an index and a value, indexes rising, no value equal to the default -/

/-- The value at index `k`; `d` where nothing is listed. -/
def tabGet {α : Type} (d : α) : List (Nat × α) → Nat → α
  | [], _ => d
  | (j, v) :: t, k => if j = k then v else tabGet d t k

/-- The table without index `k`. -/
def tabErase {α : Type} : List (Nat × α) → Nat → List (Nat × α)
  | [], _ => []
  | (j, v) :: t, k => if j = k then tabErase t k else (j, v) :: tabErase t k

/-- The table with `(k, v)` put before the first larger index. -/
def tabInsert {α : Type} : List (Nat × α) → Nat → α → List (Nat × α)
  | [], k, v => [(k, v)]
  | (j, w) :: t, k, v => if k < j then (k, v) :: (j, w) :: t else (j, w) :: tabInsert t k v

/-- The table with value `v` at index `k`; the default is not listed. -/
def tabSet {α : Type} [DecidableEq α] (d : α) (t : List (Nat × α)) (k : Nat) (v : α) : List (Nat × α) :=
  if v = d then tabErase t k else tabInsert (tabErase t k) k v

/-- The canonical form of a sparse table. -/
abbrev tabCanon {α : Type} (d : α) (t : List (Nat × α)) : Prop :=
  t.Pairwise (fun p q => p.1 < q.1) ∧ ∀ p ∈ t, p.2 ≠ d

/-! ### Local memory -/

/-- What an address that is not listed reads as (DESIGN CHOICE, log 4). -/
def memDefault : Byte := 0

/-- `MemRead(a, 1)` (`00_scope.md` R16, `20_memory.md` R68). -/
def Memory.get (m : Memory) (a : Nat) : Byte := tabGet memDefault m a

/-- `MemWrite(a, 1, v)` (`00_scope.md` R16, `20_memory.md` R68). -/
def Memory.set (m : Memory) (a : Nat) (v : Byte) : Memory := tabSet memDefault m a v

/-- The canonical form of a memory: addresses strictly rising, no listed byte equal to what an unlisted one reads as. -/
abbrev Memory.wf (m : Memory) : Prop := tabCanon memDefault m

/-- `MemWrite(a + k, 1, bs[k])` for every `k`, in order. -/
def Memory.setBytes : Memory → Nat → List Byte → Memory
  | m, _, [] => m
  | m, a, b :: bs => Memory.setBytes (m.set a b) (a + 1) bs

/-! ### The local memory map (`20_memory.md` R61) -/

/-- `FBN = MAX_W * MAX_H` (`00_scope.md` R6). FB is `0 .. FBN-1` and BK is `FBN .. 2*FBN-1`. -/
def fbn (c : Config) : Nat := c.maxW * c.maxH

/-- `PAL_BASE = 2 * FBN`. -/
def palBase (c : Config) : Nat := 2 * fbn c

/-- The first address of P565, `PAL_BASE + 768`. -/
def p565Base (c : Config) : Nat := palBase c + 768

/-- `MEM_SIZE = 2 * FBN + 1280`. -/
def memSize (c : Config) : Nat := 2 * fbn c + 1280

/-- `Writable(a)` (`20_memory.md` R64). -/
def writable (c : Config) (a : Nat) : Bool :=
  decide (a < fbn c)
    || (c.hasBackup && decide (fbn c ≤ a) && decide (a < 2 * fbn c))
    || (decide (palBase c ≤ a) && decide (a < palBase c + 768))

/-- `Readable(a)` (`20_memory.md` R64). -/
def readable (c : Config) (a : Nat) : Bool :=
  writable c a || (decide (palBase c + 768 ≤ a) && decide (a < memSize c))

/-- `Writable(a)` for every address of `[lo, hi)`, in closed form: FB, BK and PAL are one piece when HAS_BACKUP holds and
two pieces with a hole between them when it does not. An empty range passes (`20_memory.md` R64). -/
def rangeWritable (c : Config) (lo hi : Nat) : Bool :=
  decide (hi ≤ lo)
    || (if c.hasBackup then decide (hi ≤ palBase c + 768)
        else decide (hi ≤ fbn c) || (decide (palBase c ≤ lo) && decide (hi ≤ palBase c + 768)))

/-- A configuration within `00_scope.md` R6 and R7. -/
def legalConfig (c : Config) : Bool :=
  decide (1 ≤ c.maxW) && decide (c.maxW ≤ 65535) && decide (1 ≤ c.maxH) && decide (c.maxH ≤ 65535)
    && decide (memSize c ≤ 2 ^ 32) && decide (10 ≤ c.lzwMaxBits) && decide (c.lzwMaxBits ≤ 12)

/-- A stream within `00_scope.md` R12: `SLEN < 2^32`. -/
def legalStream (t : Stream) : Bool := decide (t.data.length < 2 ^ 32)

/-! ### The stream collaborator (`20_memory.md` R63) -/

/-- SLEN. -/
def Stream.slen (t : Stream) : Nat := t.data.length

/-- `StreamSeek(p)`: whether it succeeded, and the stream after it. -/
def Stream.seek (t : Stream) (p : Nat) : Bool × Stream :=
  if p ≤ t.slen then (true, { t with pos := p }) else (false, t)

/-- `READ_FAIL(k)` for the request being answered (`00_scope.md` R13). -/
def Stream.failing (t : Stream) : Bool := t.failAt.contains t.reads

/-- `StreamReadByte()`: the byte, or none for EOF, and the stream after it. Every request counts in `k`. -/
def Stream.readByte (t : Stream) : Option Byte × Stream :=
  match t.data[t.pos]? with
  | none => (none, { t with reads := t.reads + 1 })
  | some b =>
    if t.failing then (none, { t with reads := t.reads + 1 })
    else (some b, { t with pos := t.pos + 1, reads := t.reads + 1 })

/-- `StreamReadBlock(n)`: its bytes, up to the first EOF, and the stream after it. -/
def Stream.readBlock : Nat → Stream → List Byte × Stream
  | 0, t => ([], t)
  | n + 1, t =>
    match t.readByte with
    | (none, t') => ([], t')
    | (some b, t') =>
      let r := Stream.readBlock n t'
      (b :: r.1, r.2)

/-- Bytes of S not yet read. -/
def Stream.left (t : Stream) : Nat := t.data.length - t.pos

/-- The loop of `ScanChain()` (`40_reader.md` R116): whether the chain ended with its zero-length block, and the stream
after it. The first argument bounds the passes: every pass but the last consumes a byte. -/
def Stream.scanLoop : Nat → Stream → Bool × Stream
  | n, t =>
    match t.readByte with
    | (none, t1) => (false, t1)
    | (some l, t1) =>
      if l = 0 then (true, t1)
      else
        let r := Stream.readBlock l.toNat t1
        if r.1.length < l.toNat then (false, r.2)
        else match n with
          | 0 => (false, r.2)
          | n' + 1 => Stream.scanLoop n' r.2

/-- `ScanChain()` (`40_reader.md` R116). Its `end` is the position of the stream it leaves. -/
def Stream.scanChain (t : Stream) : Bool × Stream := Stream.scanLoop t.left t

/-! ### Outcomes of a command -/

/-- The outcome type of a meaning. -/
abbrev Result := Host.Outcome State Fault Refusal

/-- `raise Fault(c)` (`00_scope.md` R16, `60_exceptions.md` R242): CODE and FAULT are written and nothing is undone.
Nothing else is saved and no control moves (R248); only RESET or power-on leaves the fault state (R249). -/
def raiseFault (c : CmdCode) (s : State) : State := { s with code := c, fault := true }

/-- `report(StreamReadFailure)` (`60_exceptions.md` R244), which also sets DIAG.READ_FAILURE (`40_reader.md` R122). -/
def reportReadFailure (s : State) : State :=
  { s with code := .streamReadFailure, diag := { s.diag with readFailure := true } }

/-- `if not ok: report(StreamReadFailure)`. -/
def reportUnless (ok : Bool) (s : State) : State := if ok then s else reportReadFailure s

/-- The dispatcher's part of a command (`30_encoding.md` R92, `60_exceptions.md` R243): while FAULT = 1 only CODE
changes; otherwise CODE is Success and the command's rule runs. -/
def command (s : State) (rule : State → Result) : Result :=
  if s.fault then .next { s with code := .faulted } else rule { s with code := .success }

/-- The dispatcher's part of RESET and MEM_RD, which run in the fault state too (`60_exceptions.md` R243). -/
def commandWhileFaulted (s : State) (rule : State → Result) : Result := rule { s with code := .success }

/-- Leaving the fault state (`60_exceptions.md` R249): only RESET does it. There is no return from a trap. -/
def clearFault (s : State) : State := { s with fault := false, code := .success }

/-- `Emit` of a list of events, in order (`00_scope.md` R16, `10_state.md` R45). -/
def emit (es : List Event) (s : State) : State := { s with ev := s.ev ++ es }

end Sys2Proof.Machine
end

