-- ==== Sys2Proof/Machine/Operands.lean ====
section
/-! DEFINITION. Bit fields, and the operand layouts of the argument registers (`30_encoding.md` R85, R86). Every field
is an unsigned natural, zero-extended, with no scaling; the other bits are ignored. -/

namespace Sys2Proof.Machine

/-- Bits `[7+lo:lo]` of a register. -/
def byteField (w : Word) (lo : Nat) : Byte := w.extractLsb' lo 8

/-- Bits `[15+lo:lo]` of a register. -/
def halfField (w : Word) (lo : Nat) : Half := w.extractLsb' lo 16

/-- Bit `i` of a register. -/
def bitField (w : Word) (i : Nat) : Bool := w.getLsbD i

/-- ARG0 as an address, a count or a position: RD_BLOCK dst, REWIND n, SEEK p, PAL_LOAD count, LZW_DECODE dst, MEM_RD
and MEM_WR addr. -/
def arg0Nat (s : State) : Nat := s.arg0.toNat

/-- ARG1 as a count: RD_BLOCK n, LZW_DECODE len. -/
def arg1Nat (s : State) : Nat := s.arg1.toNat

/-- ARG2 as an address: LZW_DECODE end. -/
def arg2Nat (s : State) : Nat := s.arg2.toNat

/-- SET_SCREEN bg, ARG0[7:0]. -/
def argBg (s : State) : Byte := byteField s.arg0 0

/-- SET_FRAME left, top (ARG0) and width, height (ARG1). -/
def argFrame (s : State) : Rect :=
  { x := halfField s.arg0 0, y := halfField s.arg0 16, w := halfField s.arg1 0, h := halfField s.arg1 16 }

/-- SET_FRAME interlace, ARG2[0]. -/
def argInterlace (s : State) : Bool := bitField s.arg2 0

/-- SET_GCE transparency flag, ARG0[0]. -/
def argTFlag (s : State) : Bool := bitField s.arg0 0

/-- SET_GCE raw disposal value, ARG0[10:8]. -/
def argRawDisposal (s : State) : BitVec 3 := s.arg0.extractLsb' 8 3

/-- SET_GCE transparent index, ARG0[23:16]. -/
def argTIndex (s : State) : Byte := byteField s.arg0 16

/-- SET_GCE delay, ARG1[15:0]. -/
def argDelay (s : State) : Half := halfField s.arg1 0

/-- MEM_WR value, ARG1[7:0]. -/
def argValue (s : State) : Byte := byteField s.arg1 0

/-- The method of a raw disposal value, none where the value is invalid (`30_encoding.md` R99). -/
def disposalOf (v : BitVec 3) : Option Disposal :=
  match v.toNat with
  | 0 => some .none
  | 1 => some .leave
  | 2 => some .background
  | 3 => some .previous
  | _ => Option.none

end Sys2Proof.Machine
end

