-- ==== Sys2Proof/Machine/Flags.lean ====
section
/-! DEFINITION. The encodings of the status values (`30_encoding.md` R95, R99, `10_state.md` R33) and the words a host
reads at STATUS, DIAG, GCE, PREV and the LZW registers (R24, R25, R27, R29, R34). Unlisted bits read 0. -/

namespace Sys2Proof.Machine

/-- STATUS.CODE (`30_encoding.md` R95). -/
def CmdCode.toNat : CmdCode → Nat
  | .success => 0
  | .streamReadFailure => 1
  | .lzwCorruptStream => 2
  | .badCommand => 3
  | .badArgument => 4
  | .badSequence => 5
  | .faulted => 6

/-- STATUS.LZW_ST (`10_state.md` R33). -/
def LzwSt.toNat : LzwSt → Nat
  | .uninitialized => 0
  | .ready => 1
  | .clear => 2
  | .decoding => 3
  | .ended => 4

/-- STATUS.LZW_END (`10_state.md` R33). -/
def LzwEnd.toNat : LzwEnd → Nat
  | .notEnded => 0
  | .endCode => 1
  | .chainEnd => 2
  | .readFailure => 3
  | .corrupt => 4

/-- The number of a disposal method (`30_encoding.md` R99). -/
def Disposal.toNat : Disposal → Nat
  | .none => 0
  | .leave => 1
  | .background => 2
  | .previous => 3

/-- One word from its fields, each a value, its width and its lowest bit: every value is cut to its width. -/
def packWord : List (Nat × Nat × Nat) → Word
  | [] => 0
  | (v, width, lo) :: rest => BitVec.ofNat 32 (v % 2 ^ width * 2 ^ lo) ||| packWord rest

/-- STATUS (`10_state.md` R24). -/
def statusWord (s : State) : Word :=
  packWord [(s.fault.toNat, 1, 0), (s.key.toNat, 1, 1), (s.lzw.st.toNat, 3, 4), (s.lzw.endReason.toNat, 3, 8),
    (s.code.toNat, 4, 16)]

/-- DIAG (`10_state.md` R25). -/
def diagWord (d : Diag) : Word :=
  packWord [(d.invalidDisposal.toNat, 1, 0), (d.outputClipped.toNat, 1, 1), (d.readFailure.toNat, 1, 2),
    (d.noEndCode.toNat, 1, 3)]

/-- FR_XY or DIRTY_XY (`10_state.md` R26, R30). -/
def xyWord (r : Rect) : Word := r.y ++ r.x

/-- FR_WH or DIRTY_WH (`10_state.md` R26, R30). -/
def whWord (r : Rect) : Word := r.h ++ r.w

/-- GCE (`10_state.md` R27). -/
def gceWord (g : Gce) : Word :=
  packWord [(g.tValid.toNat, 1, 0), (g.disp.toNat, 3, 8), (g.tIndex.toNat, 8, 16)]

/-- PREV (`10_state.md` R29). -/
def prevWord (s : State) : Word := packWord [(s.prevDisp.toNat, 3, 0), (s.prevFill.toNat, 8, 8)]

/-- LZW_A (`10_state.md` R34). -/
def lzwAWord (z : Lzw) : Word := packWord [(z.m, 4, 0), (z.cursize, 4, 4), (z.topSlot, 13, 8)]

/-- LZW_B (`10_state.md` R34); PREV_CODE reads 0 when PREV_VALID = 0. -/
def lzwBWord (z : Lzw) : Word :=
  packWord [(z.slot, 13, 0), (if z.prevValid then z.prevCode else 0, 12, 16), (z.prevValid.toNat, 1, 31)]

/-- LZW_C (`10_state.md` R34). -/
def lzwCWord (z : Lzw) : Word := packWord [(z.first.toNat, 8, 0), (z.nbits, 5, 8), (z.brem, 8, 16)]

/-- LZW_ACC (`10_state.md` R34). -/
def lzwAccWord (z : Lzw) : Word := packWord [(z.acc, 32, 0)]

/-- LZW_SP (`10_state.md` R34, R37). -/
def lzwSpWord (z : Lzw) : Word := packWord [(z.stack.length, 13, 0)]

end Sys2Proof.Machine
end

