-- ==== Sys2Proof/Machine/LzwEngine.lean ====
section
/-! DEFINITION. The parts of the LZW decoder that its commands and code classes share (`41_lzw.md`): initialisation, the
sub-block-aware data bytes (`40_reader.md` R120), the code reader, the dictionary and its growth. -/

namespace Sys2Proof.Machine

/-! ### Names of `10_state.md` R35 -/

/-- `codeSize = m + 1`. -/
def Lzw.codeSize (z : Lzw) : Nat := z.m + 1

/-- `clearCode = 2^m`. -/
def Lzw.clearCode (z : Lzw) : Nat := 2 ^ z.m

/-- `newcodes = clearCode + 2`. -/
def Lzw.newcodes (z : Lzw) : Nat := 2 ^ z.m + 2

/-- What the classes of `30_encoding.md` R88 are tested against. -/
def Lzw.codeCtx (z : Lzw) : CodeCtx := { m := z.m, cursize := z.cursize, slot := z.slot, prev := z.prevValid }

/-! ### Initialisation -/

/-- A legal minimum code size (`41_lzw.md` R142). -/
def legalMinCode (m : Nat) : Bool := decide (2 ≤ m) && decide (m ≤ 8)

/-- `LzwInit(m)` (`41_lzw.md` R141). PREFIX and SUFFIX are not written. -/
def lzwInit (m : Nat) (z : Lzw) : Lzw :=
  { z with
    st := .ready, endReason := .notEnded
    m := m, slot := 2 ^ m + 2, cursize := m + 1, topSlot := 2 ^ (m + 1)
    prevValid := false, prevCode := 0, first := 0
    acc := 0, nbits := 0, brem := 0, stack := [] }

/-- `LzwUninit()` (`41_lzw.md` R141). PREFIX and SUFFIX are not written. -/
def lzwUninit (z : Lzw) : Lzw :=
  { z with
    st := .uninitialized, endReason := .notEnded
    m := 0, slot := 0, cursize := 0, topSlot := 0
    prevValid := false, prevCode := 0, first := 0
    acc := 0, nbits := 0, brem := 0, stack := [] }

/-- The decoder enters Ended (`41_lzw.md` R161). -/
def lzwStop (why : LzwEnd) (z : Lzw) : Lzw := { z with st := .ended, endReason := why }

/-- The decoder enters Ended because DECODE_FRAME has read an illegal minimum code size (`42_compositor.md` R189). This can
happen with bytes on the stack, and the stack is empty in Ended (R158), so it is emptied (DEDUCED, log 9). -/
def lzwReject (z : Lzw) : Lzw := { lzwStop .corrupt z with stack := [] }

/-! ### The code reader -/

/-- The answer of `NextDataByte` and of `GetCode`: a value, CHAIN or FAIL. -/
inductive Fetch (α : Type) where
  | got (a : α)
  | chain
  | fail
deriving DecidableEq, Repr

/-- A payload byte of the current sub-block (`40_reader.md` R120). A failed read leaves BREM. -/
def payloadByte (z : Lzw) (t : Stream) : Fetch Byte × Lzw × Stream :=
  match t.readByte with
  | (none, t1) => (.fail, z, t1)
  | (some b, t1) => (.got b, { z with brem := z.brem - 1 }, t1)

/-- `NextDataByte()` (`40_reader.md` R120). -/
def nextDataByte (z : Lzw) (t : Stream) : Fetch Byte × Lzw × Stream :=
  if z.brem = 0 then
    match t.readByte with
    | (none, t1) => (.fail, z, t1)
    | (some l, t1) => if l = 0 then (.chain, z, t1) else payloadByte { z with brem := l.toNat } t1
  else payloadByte z t

/-- `ACC <- ACC + b * 2^NBITS; NBITS <- NBITS + 8` (`41_lzw.md` R146). -/
def pushBits (b : Byte) (z : Lzw) : Lzw := { z with acc := z.acc + b.toNat * 2 ^ z.nbits, nbits := z.nbits + 8 }

/-- The loop of `GetCode` (`41_lzw.md` R146): bytes are taken while NBITS < CURSIZE. The first argument bounds the
passes: `CURSIZE - NBITS` of them are enough. -/
def fillAcc : Nat → Lzw → Stream → Fetch Unit × Lzw × Stream
  | 0, z, t => (.got (), z, t)
  | n + 1, z, t =>
    if z.nbits < z.cursize then
      match nextDataByte z t with
      | (.got b, z1, t1) => fillAcc n (pushBits b z1) t1
      | (.chain, z1, t1) => (.chain, z1, t1)
      | (.fail, z1, t1) => (.fail, z1, t1)
    else (.got (), z, t)

/-- The code in ACC taken out (`41_lzw.md` R146). -/
def takeCode (z : Lzw) : Nat × Lzw :=
  (z.acc % 2 ^ z.cursize, { z with acc := z.acc / 2 ^ z.cursize, nbits := z.nbits - z.cursize })

/-- `GetCode()` (`41_lzw.md` R146). -/
def getCode (z : Lzw) (t : Stream) : Fetch Nat × Lzw × Stream :=
  match fillAcc (z.cursize - z.nbits) z t with
  | (.got _, z1, t1) => (.got (takeCode z1).1, (takeCode z1).2, t1)
  | (.chain, z1, t1) => (.chain, z1, t1)
  | (.fail, z1, t1) => (.fail, z1, t1)

/-- The bits the code reader can still take. -/
def bitsLeft (z : Lzw) (t : Stream) : Nat := z.nbits + 8 * t.left

/-! ### The dictionary -/

/-- `PREFIX[c]` (`10_state.md` R36). -/
def Lzw.prefixOf (z : Lzw) (c : Nat) : Nat := tabGet 0 z.prefixTab c

/-- `SUFFIX[c]` (`10_state.md` R36). -/
def Lzw.suffixOf (z : Lzw) (c : Nat) : Byte := tabGet 0 z.suffixTab c

/-- The walk of `StringOf` (`41_lzw.md` R147), with the tail built so far. The first argument bounds the walk: since
every registered prefix is below its code (R162 item 3), the code itself is a bound (log 16). -/
def walkString (z : Lzw) : Nat → Nat → List Byte → List Byte
  | 0, c, tail => BitVec.ofNat 8 c :: tail
  | n + 1, c, tail =>
    if z.newcodes ≤ c then walkString z n (z.prefixOf c) (z.suffixOf c :: tail) else BitVec.ofNat 8 c :: tail

/-- `StringOf(c)` (`41_lzw.md` R147). -/
def stringOf (z : Lzw) (c : Nat) : List Byte := walkString z c c []

/-- The first byte of a string, `s[0]`. A string is never empty. -/
def firstByte (str : List Byte) : Byte := str.headD 0

/-- The widening check that follows each registration (`41_lzw.md` R155). -/
def widen (maxBits : Nat) (z : Lzw) : Lzw :=
  if z.topSlot ≤ z.slot ∧ z.cursize < maxBits then { z with cursize := z.cursize + 1, topSlot := 2 * z.topSlot } else z

/-- `Register(x)` (`41_lzw.md` R154); a full dictionary is left as it is (R156). -/
def register (maxBits : Nat) (x : Byte) (z : Lzw) : Lzw :=
  if z.slot < z.topSlot then
    widen maxBits
      { z with
        suffixTab := tabSet 0 z.suffixTab z.slot x
        prefixTab := tabSet 0 z.prefixTab z.slot z.prevCode
        slot := z.slot + 1 }
  else z

/-- `ClearDict()` (`41_lzw.md` R148). -/
def clearDict (z : Lzw) : Lzw :=
  { z with
    cursize := z.codeSize, topSlot := 2 ^ z.codeSize, slot := z.newcodes
    prevValid := false, prevCode := 0, st := .clear }

/-- The end of a pass that produced the string `str` from the code `c` (`41_lzw.md` R144): the previous code, FIRST and
LZW_ST are set and the string is pushed with its first byte on top. -/
def acceptString (c : Nat) (str : List Byte) (z : Lzw) : Lzw :=
  { z with
    first := firstByte str, prevCode := c, prevValid := true, st := .decoding
    stack := str ++ z.stack }

end Sys2Proof.Machine
end

