-- ==== Sys2Proof/Machine/Lzw.lean ====
section
/-! DEFINITION. The LZW code classes (`41_lzw.md` R148 to R153), the decode loop (R144, R145), and the commands LZW_INIT
(R140) and LZW_DECODE (R143). -/

namespace Sys2Proof.Machine

/-! ### What a code does to the block, by class -/

/-- CLEAR (`41_lzw.md` R148). -/
def codeClear (s : State) : State := { s with lzw := clearDict s.lzw }

/-- END (`41_lzw.md` R149). -/
def codeEnd (s : State) : State := { s with lzw := lzwStop .endCode s.lzw }

/-- ROOT (`41_lzw.md` R150): no entry is registered. -/
def codeRoot (c : Nat) (s : State) : State := { s with lzw := acceptString c [BitVec.ofNat 8 c] s.lzw }

/-- KNOWN (`41_lzw.md` R151). -/
def codeKnown (c : Nat) (s : State) : State :=
  let str := stringOf s.lzw c
  { s with lzw := acceptString c str (register s.cfg.lzwMaxBits (firstByte str) s.lzw) }

/-- KWKWK (`41_lzw.md` R152): the code is SLOT as it stands before the registration. -/
def codeKwkwk (s : State) : State :=
  let str := stringOf s.lzw s.lzw.prevCode ++ [s.lzw.first]
  { s with lzw := acceptString s.lzw.slot str (register s.cfg.lzwMaxBits (firstByte str) s.lzw) }

/-- INVALID (`41_lzw.md` R153): the decoder ends as Corrupt and the command raises LzwCorruptStream. -/
def codeInvalid (s : State) : State :=
  raiseFault .lzwCorruptStream { s with lzw := lzwStop .corrupt s.lzw }

/-! ### The code classes as instructions -/

/-- The decoder is in a state that reads codes (`41_lzw.md` R161), with an empty stack (R144). -/
def readsCode (s : State) : Bool :=
  (decide (s.lzw.st = .ready) || decide (s.lzw.st = .clear) || decide (s.lzw.st = .decoding))
    && s.lzw.stack.isEmpty

/-- A code of the class of `i` runs where the decoder reads a code and its state selects that class for it
(`30_encoding.md` R88). Elsewhere the code is not there, or is of another class (log 10). -/
def runCode (i : Instr) (act : State → State) (s : State) : Result :=
  if readsCode s && i.selected s.lzw.codeCtx then .next (act s) else .refused .codeNotRead

/-- LZW_CLEAR. -/
def execLzwClear (s : State) : Result := runCode .lzwClear codeClear s

/-- LZW_END. -/
def execLzwEnd (s : State) : Result := runCode .lzwEnd codeEnd s

/-- LZW_ROOT. -/
def execLzwRoot (c : Nat) (s : State) : Result := runCode (.lzwRoot c) (codeRoot c) s

/-- LZW_KNOWN. -/
def execLzwKnown (c : Nat) (s : State) : Result := runCode (.lzwKnown c) (codeKnown c) s

/-- LZW_KWKWK. -/
def execLzwKwkwk (s : State) : Result := runCode .lzwKwkwk codeKwkwk s

/-- LZW_INVALID. -/
def execLzwInvalid (c : Nat) (s : State) : Result := runCode (.lzwInvalid c) codeInvalid s

/-! ### The decode loop -/

/-- Why a call of the decoder returned (`41_lzw.md` R144). `stuck` is the model's own: the recursion bound ran out
(log 14). -/
inductive LzwOutcome where
  | ok
  | ended
  | eoi
  | chain
  | fail
  | corrupt
  | stuck
deriving DecidableEq, Repr

/-- What a call of the decoder answers: its outcome, the count of bytes produced, the state. -/
structure Decoded where
  outcome : LzwOutcome
  count   : Nat
  state   : State

/-- `GetCode()` on the whole state. -/
def readCode (s : State) : Fetch Nat × State :=
  let r := getCode s.lzw s.stream
  (r.1, { s with lzw := r.2.1, stream := r.2.2 })

/-- CHAIN while a code is read (`41_lzw.md` R159). -/
def chainEnded (s : State) : State :=
  { s with lzw := lzwStop .chainEnd s.lzw, diag := { s.diag with noEndCode := true } }

/-- FAIL while a code is read (`41_lzw.md` R160). -/
def readFailed (s : State) : State := { s with lzw := lzwStop .readFailure s.lzw }

/-- Codes are read until one pushes a string or the decoder ends (`41_lzw.md` R144): a CLEAR goes on with the next code.
The first argument bounds the CLEAR codes: each takes at least one bit. -/
def readCodes : Nat → State → LzwOutcome × State
  | n, s =>
    match readCode s with
    | (.chain, s1) => (.chain, chainEnded s1)
    | (.fail, s1) => (.fail, readFailed s1)
    | (.got c, s1) =>
      match decodeCode s1.lzw.codeCtx c with
      | .lzwClear =>
        match n with
        | 0 => (.stuck, s1)
        | n' + 1 => readCodes n' (codeClear s1)
      | .lzwEnd => (.eoi, codeEnd s1)
      | .lzwRoot c' => (.ok, codeRoot c' s1)
      | .lzwKnown c' => (.ok, codeKnown c' s1)
      | .lzwKwkwk => (.ok, codeKwkwk s1)
      | .lzwInvalid _ => (.corrupt, codeInvalid s1)
      | .nop | .reset | .rdByte | .rdWord | .rdBlock | .rewind | .seek | .tell | .scanChain | .palLoad | .lzwInit _
      | .lzwDecode | .setScreen | .setFrame | .setGce | .cycleStart | .decodeFrame | .memRd | .memWr => (.stuck, s1)

/-- A byte to emit is on the stack, if need be after codes are read (`41_lzw.md` R144). -/
def refill (s : State) : LzwOutcome × State :=
  match s.lzw.stack with
  | _ :: _ => (.ok, s)
  | [] => readCodes (bitsLeft s.lzw s.stream) s

/-- The output discipline of `41_lzw.md` R145 for one popped byte: written at `out` if `out < lim`, discarded with
DIAG.OUTPUT_CLIPPED otherwise. -/
def putByte (lim out : Nat) (b : Byte) (s : State) : State :=
  if out < lim then { s with mem := s.mem.set out b } else { s with diag := { s.diag with outputClipped := true } }

/-- The top of the stack is popped and put out at `out` (`41_lzw.md` R144, R145). -/
def popByte (lim out : Nat) (b : Byte) (rest : List Byte) (s : State) : State :=
  putByte lim out b { s with lzw := { s.lzw with stack := rest } }

/-- The loop of `41_lzw.md` R144: as many bytes as its second argument says are produced at `out` onwards, with the end
bound `lim`; the third argument is the count so far. -/
def decodeLoop (lim : Nat) : Nat → Nat → Nat → State → Decoded
  | 0, _, k, s => { outcome := .ok, count := k, state := s }
  | n + 1, out, k, s =>
    match refill s with
    | (.ok, s1) =>
      match s1.lzw.stack with
      | b :: rest => decodeLoop lim n (out + 1) (k + 1) (popByte lim out b rest s1)
      | [] => { outcome := .stuck, count := k, state := s1 }
    | (o, s1) => { outcome := o, count := k, state := s1 }

/-- `LzwDecode(dst, len, end)` (`41_lzw.md` R144); in Ended nothing happens (R158). -/
def lzwDecode (dst len lim : Nat) (s : State) : Decoded :=
  if s.lzw.st = .ended then { outcome := .ended, count := 0, state := s } else decodeLoop lim len dst 0 s

/-! ### The commands -/

/-- LZW_INIT (`41_lzw.md` R140). -/
def execLzwInit (m : Byte) (s : State) : Result :=
  command s fun s =>
    if legalMinCode m.toNat then .next { s with lzw := lzwInit m.toNat s.lzw }
    else .next (raiseFault .badArgument { s with lzw := lzwUninit s.lzw })

/-- The end of LZW_DECODE (`41_lzw.md` R143): RESULT, then the fault or the report. -/
def finishDecode (d : Decoded) : Result :=
  let s := { d.state with result := BitVec.ofNat 32 d.count }
  match d.outcome with
  | .corrupt => .next (raiseFault .lzwCorruptStream s)
  | .fail => .next (reportReadFailure s)
  | .ok | .ended | .eoi | .chain => .next s
  | .stuck => .fault .decodeLoopBound

/-- LZW_DECODE (`41_lzw.md` R143). -/
def execLzwDecode (s : State) : Result :=
  command s fun s =>
    if s.lzw.st = .uninitialized then .next (raiseFault .badSequence s)
    else if rangeWritable s.cfg (arg0Nat s) (min (arg2Nat s) (arg0Nat s + arg1Nat s)) then
      finishDecode (lzwDecode (arg0Nat s) (arg1Nat s) (arg2Nat s) s)
    else .next (raiseFault .badArgument s)

end Sys2Proof.Machine
end

