-- ==== Sys2Proof/Machine/Compositor.lean ====
section
/-! DEFINITION. The frame compositor (`42_compositor.md`): SET_SCREEN, SET_FRAME, SET_GCE, CYCLE_START, DECODE_FRAME and
the steps of DECODE_FRAME, R185 to R210. -/

namespace Sys2Proof.Machine

/-! ### Descriptor and cycle commands -/

/-- SET_SCREEN (`42_compositor.md` R180). -/
def execSetScreen (s : State) : Result := command s fun s => .next { s with bg := argBg s }

/-- SET_FRAME (`42_compositor.md` R181). -/
def execSetFrame (s : State) : Result :=
  command s fun s => .next { s with frame := argFrame s, interlace := argInterlace s }

/-- `NormaliseDisposal(v)` (`42_compositor.md` R183): the method, and the state with the diagnostic. -/
def normaliseDisposal (v : BitVec 3) (s : State) : Disposal × State :=
  match disposalOf v with
  | some d => (d, s)
  | none => (.none, { s with diag := { s.diag with invalidDisposal := true } })

/-- SET_GCE (`42_compositor.md` R182). -/
def execSetGce (s : State) : Result :=
  command s fun s =>
    let r := normaliseDisposal (argRawDisposal s) s
    .next { r.2 with
      gce := { tValid := argTFlag s, disp := r.1, tIndex := argTIndex s }
      delay := argDelay s }

/-- GCE.T_VALID and GCE.DISP back at their defaults (`10_state.md` R27, `42_compositor.md` R184, R208). -/
def gceDefaults (g : Gce) : Gce := { g with tValid := false, disp := .none }

/-- CYCLE_START (`42_compositor.md` R184). -/
def execCycleStart (s : State) : Result :=
  command s fun s =>
    .next { s with
      totalFrames := if s.cycleNo ≠ 0 ∧ s.totalFrames = 0 then s.frameNo else s.totalFrames
      cycleNo := s.cycleNo + 1
      frameNo := 0
      key := true
      prevDisp := .none
      gce := gceDefaults s.gce }

/-! ### Rectangles and buffers -/

/-- `Clip(x, y, w, h)` (`42_compositor.md` R185). -/
def clip (c : Config) (r : Rect) : Rect :=
  let cw := if r.x.toNat < c.maxW then min r.w.toNat (c.maxW - r.x.toNat) else 0
  let ch := if r.y.toNat < c.maxH then min r.h.toNat (c.maxH - r.y.toNat) else 0
  if cw = 0 ∨ ch = 0 then { r with w := 0, h := 0 } else { r with w := BitVec.ofNat 16 cw, h := BitVec.ofNat 16 ch }

/-- The whole canvas, `(0, 0, MAX_W, MAX_H)`. -/
def canvas (c : Config) : Rect := { x := 0, y := 0, w := BitVec.ofNat 16 c.maxW, h := BitVec.ofNat 16 c.maxH }

/-- The byte of pixel `(x, y)` in FB (`20_memory.md` R62). -/
def pixelAddr (c : Config) (x y : Nat) : Nat := y * c.maxW + x

/-- The pixels of a rectangle, rows top to bottom and pixels left to right (`42_compositor.md` R185). -/
def rectPixels (r : Rect) : List (Nat × Nat) :=
  (List.range r.h.toNat).flatMap fun dy =>
    (List.range r.w.toNat).map fun dx => (r.x.toNat + dx, r.y.toNat + dy)

/-- `FillRect(FB, v, r)` (`42_compositor.md` R185). -/
def fillRect (c : Config) (v : Byte) (r : Rect) (m : Memory) : Memory :=
  (rectPixels r).foldl (fun m p => m.set (pixelAddr c p.1 p.2) v) m

/-- `CopyRect(src → dst, r)` (`42_compositor.md` R185) between the buffers that begin at `src` and at `dst`. -/
def copyRect (c : Config) (src dst : Nat) (r : Rect) (m : Memory) : Memory :=
  (rectPixels r).foldl (fun m p => m.set (dst + pixelAddr c p.1 p.2) (m.get (src + pixelAddr c p.1 p.2))) m

/-! ### The steps of DECODE_FRAME -/

/-- `fillv` (`42_compositor.md` R186, R190). -/
def fillValue (s : State) : Byte := if s.gce.tValid then s.gce.tIndex else s.bg

/-- `KeyFill(fillv)` (`42_compositor.md` R190). -/
def keyFill (s : State) : State :=
  { s with mem := fillRect s.cfg (fillValue s) (canvas s.cfg) s.mem, dirty := canvas s.cfg }

/-- The previous method calls for the clear-screen request (`42_compositor.md` R191). -/
def asksClear (s : State) : Bool := !s.key && (decide (s.prevDisp = .background) || decide (s.prevDisp = .previous))

/-- `ApplyPreviousDisposal()` (`42_compositor.md` R192, R193, R194). -/
def applyDisposal (s : State) : State :=
  match s.prevDisp with
  | .none | .leave => s
  | .background => { s with mem := fillRect s.cfg s.prevFill s.dirty s.mem }
  | .previous => if s.cfg.hasBackup then { s with mem := copyRect s.cfg (fbn s.cfg) 0 s.dirty s.mem } else s

/-- Current-frame bookkeeping (`42_compositor.md` R195). -/
def bookkeep (s : State) : State :=
  { s with dirty := clip s.cfg s.frame, prevDisp := s.gce.disp, prevFill := fillValue s }

/-- Backup save (`42_compositor.md` R196), over the rectangle the bookkeeping has just recorded. -/
def saveBackup (s : State) : State :=
  if s.gce.disp = .previous ∧ s.cfg.hasBackup then { s with mem := copyRect s.cfg 0 (fbn s.cfg) s.dirty s.mem } else s

/-- The steps between the decoder's initialisation and the rows (`42_compositor.md` R186). -/
def prepareFrame (s : State) : State :=
  let s1 := if s.key then keyFill s else s
  let s2 := if asksClear s1 then emit [.clearScreen] s1 else s1
  saveBackup (bookkeep (applyDisposal s2))

/-- The rows `start, start + step, …` below `h`. -/
def passRows (h start step : Nat) : List Nat :=
  (List.range ((h - start + (step - 1)) / step)).map fun k => start + step * k

/-- `RowOrder(h, interlace)` (`42_compositor.md` R197). -/
def rowOrder (h : Nat) (interlace : Bool) : List Nat :=
  if interlace then passRows h 0 8 ++ passRows h 4 8 ++ passRows h 2 4 ++ passRows h 1 2 else List.range h

/-- `dst` of row offset `r` (`42_compositor.md` R198). -/
def rowDst (s : State) (r : Nat) : Nat := (s.frame.y.toNat + r) * s.cfg.maxW + s.frame.x.toNat

/-- `end` of row offset `r` (`42_compositor.md` R198). -/
def rowEnd (s : State) (r : Nat) : Nat :=
  if s.frame.y.toNat + r < s.cfg.maxH then (s.frame.y.toNat + r) * s.cfg.maxW + s.cfg.maxW else rowDst s r

/-- What `DecodeRows` answers: how it ended, `total`, `rf`, the state. -/
structure Rows where
  outcome : LzwOutcome
  total   : Nat
  rf      : Bool
  state   : State

/-- `DecodeRows(rf)` (`42_compositor.md` R199), with `total` and `rf` so far. A corrupt code ends it (R200). -/
def decodeRows : List Nat → Nat → Bool → State → Rows
  | [], total, rf, s => { outcome := .ok, total := total, rf := rf, state := s }
  | r :: rs, total, rf, s =>
    let d := lzwDecode (rowDst s r) s.frame.w.toNat (rowEnd s r) s
    match d.outcome with
    | .corrupt => { outcome := .corrupt, total := total + d.count, rf := rf, state := d.state }
    | .stuck => { outcome := .stuck, total := total + d.count, rf := rf, state := d.state }
    | .fail => decodeRows rs (total + d.count) true d.state
    | .ok | .ended | .eoi | .chain => decodeRows rs (total + d.count) rf d.state

/-- `PalLookup(p)` (`42_compositor.md` R205). -/
def palLookup (c : Config) (m : Memory) (p : Byte) : Byte × Byte × Byte :=
  (m.get (palBase c + 3 * p.toNat), m.get (palBase c + 3 * p.toNat + 1), m.get (palBase c + 3 * p.toNat + 2))

/-- The `Pixel` event of pixel `(x, y)`, none where it is transparent (`42_compositor.md` R204). -/
def pixelEvent (s : State) (x y : Nat) : Option Event :=
  let p := s.mem.get (pixelAddr s.cfg x y)
  if s.gce.tValid ∧ p = s.gce.tIndex then none
  else
    let rgb := palLookup s.cfg s.mem p
    some (.pixel (BitVec.ofNat 16 x) (BitVec.ofNat 16 y) rgb.1 rgb.2.1 rgb.2.2)

/-- P565 entry `i`, little-endian (`20_memory.md` R61, R65). -/
def p565Entry (c : Config) (m : Memory) (i : Nat) : Half :=
  m.get (p565Base c + 2 * i + 1) ++ m.get (p565Base c + 2 * i)

/-- `skip` (`30_encoding.md` R100). -/
def skipIndex (g : Gce) : Option Byte := if g.tValid then some g.tIndex else none

/-- The `Line` event of row `y` of the rectangle `r` (`42_compositor.md` R206). -/
def lineEvent (s : State) (r : Rect) (y : Nat) : Event :=
  .line r.x (BitVec.ofNat 16 y)
    ((List.range r.w.toNat).map fun dx => s.mem.get (pixelAddr s.cfg (r.x.toNat + dx) y))
    r.w
    ((List.range 256).map (p565Entry s.cfg s.mem))
    (skipIndex s.gce)

/-- The events of `EmitRect(cur)` (`42_compositor.md` R203, R204, R206), rows top to bottom. -/
def rectEvents (s : State) (r : Rect) : List Event :=
  match s.cfg.emitMode with
  | .pixel => (rectPixels r).filterMap fun p => pixelEvent s p.1 p.2
  | .line => (List.range r.h.toNat).map fun dy => lineEvent s r (r.y.toNat + dy)

/-- The start hook (`42_compositor.md` R202). -/
def startEvents (c : Config) : List Event := if c.hasStartHook then [.startDrawing] else []

/-- Emission: start hook, visible pixels or lines, present (`42_compositor.md` R202, R203, R207). -/
def emitFrame (s : State) : State := emit (startEvents s.cfg ++ rectEvents s s.dirty ++ [.presentFrame]) s

/-- The end of a completed frame (`42_compositor.md` R201 to R210). The rectangle emitted is the one the bookkeeping
recorded (R195). -/
def finishFrame (endOff : Nat) (r : Rows) : State :=
  let s := emitFrame { r.state with stream := (r.state.stream.seek endOff).2 }
  reportUnless (!r.rf)
    { s with
      gce := gceDefaults s.gce
      frameNo := s.frameNo + 1
      key := false
      result := BitVec.ofNat 32 r.total }

/-- DECODE_FRAME from the decoder's initialisation on (`42_compositor.md` R189 to R210). -/
def composeFrame (m endOff : Nat) (rf : Bool) (s : State) : Result :=
  if legalMinCode m then
    let s1 := prepareFrame { s with lzw := lzwInit m s.lzw }
    let r := decodeRows (rowOrder s1.frame.h.toNat s1.interlace) 0 rf s1
    match r.outcome with
    | .stuck => .fault .decodeLoopBound
    | .corrupt => .next (raiseFault .lzwCorruptStream { r.state with result := BitVec.ofNat 32 r.total })
    | .ok | .ended | .eoi | .chain | .fail => .next (finishFrame endOff r)
  else .next (raiseFault .lzwCorruptStream { s with lzw := lzwReject s.lzw, result := 0 })

/-- DECODE_FRAME (`42_compositor.md` R186), with R187 (the minimum code size) and R188 (the chain located). -/
def execDecodeFrame (s : State) : Result :=
  command s fun s =>
    if s.cfg.hasFramebuffer then
      if s.cycleNo = 0 then .next (raiseFault .badSequence s)
      else
        match s.stream.readByte with
        | (none, t) => .next (reportReadFailure { s with stream := t, result := 0 })
        | (some m, t) =>
          let scan := t.scanChain
          composeFrame m.toNat scan.2.pos (!scan.1) { s with stream := (scan.2.seek t.pos).2 }
    else .refused .noFramebuffer

end Sys2Proof.Machine
end

