-- ==== Sys2Proof/Machine/Reader.lean ====
section
/-! DEFINITION. The bitstream reader commands (`40_reader.md`): RD_BYTE, RD_WORD, RD_BLOCK, REWIND, SEEK, TELL,
SCAN_CHAIN, PAL_LOAD. -/

namespace Sys2Proof.Machine

/-- RESULT after EOF in RD_BYTE and RD_WORD (`40_reader.md` R110, R111). -/
def eofResult : Word := 0xFFFFFFFF#32

/-- RD_BYTE (`40_reader.md` R110). -/
def execRdByte (s : State) : Result :=
  command s fun s =>
    match s.stream.readByte with
    | (none, t) => .next (reportReadFailure { s with stream := t, result := eofResult })
    | (some b, t) => .next { s with stream := t, result := b.setWidth 32 }

/-- RD_WORD (`40_reader.md` R111): the first byte read is bits 7:0. -/
def execRdWord (s : State) : Result :=
  command s fun s =>
    match s.stream.readByte with
    | (none, t) => .next (reportReadFailure { s with stream := t, result := eofResult })
    | (some lo, t) =>
      match t.readByte with
      | (none, t') => .next (reportReadFailure { s with stream := t', result := eofResult })
      | (some hi, t') => .next { s with stream := t', result := BitVec.ofNat 32 (hi.toNat * 256 + lo.toNat) }

/-- RD_BLOCK (`40_reader.md` R112). -/
def execRdBlock (s : State) : Result :=
  command s fun s =>
    if rangeWritable s.cfg (arg0Nat s) (arg0Nat s + arg1Nat s) then
      let r := Stream.readBlock (arg1Nat s) s.stream
      .next (reportUnless (decide (r.1.length = arg1Nat s))
        { s with
          stream := r.2
          mem := s.mem.setBytes (arg0Nat s) r.1
          result := BitVec.ofNat 32 r.1.length })
    else .next (raiseFault .badArgument s)

/-- REWIND (`40_reader.md` R113). -/
def execRewind (s : State) : Result :=
  command s fun s =>
    if s.stream.pos < arg0Nat s then .next (raiseFault .badArgument s)
    else
      .next { s with
        stream := (s.stream.seek (s.stream.pos - arg0Nat s)).2
        result := BitVec.ofNat 32 (s.stream.pos - arg0Nat s) }

/-- SEEK (`40_reader.md` R114). -/
def execSeek (s : State) : Result :=
  command s fun s =>
    match s.stream.seek (arg0Nat s) with
    | (true, t) => .next { s with stream := t, result := BitVec.ofNat 32 (arg0Nat s) }
    | (false, t) => .next (reportReadFailure { s with stream := t, result := BitVec.ofNat 32 t.pos })

/-- TELL (`40_reader.md` R115). -/
def execTell (s : State) : Result :=
  command s fun s => .next { s with result := BitVec.ofNat 32 s.stream.pos }

/-- SCAN_CHAIN (`40_reader.md` R117). -/
def execScanChain (s : State) : Result :=
  command s fun s =>
    let r := s.stream.scanChain
    .next (reportUnless r.1 { s with stream := r.2, result := BitVec.ofNat 32 r.2.pos })

/-- `Pack565(r, g, b)` (`40_reader.md` R119): red in bits 15:11, green in 10:5, blue in 4:0. -/
def pack565 (r g b : Byte) : Half := r.extractLsb' 3 5 ++ g.extractLsb' 2 6 ++ b.extractLsb' 3 5

/-- The packed colour of the PAL entry `i` in memory `m`. -/
def palPacked (c : Config) (m : Memory) (i : Nat) : Half :=
  pack565 (m.get (palBase c + 3 * i)) (m.get (palBase c + 3 * i + 1)) (m.get (palBase c + 3 * i + 2))

/-- P565 entry `i` written from PAL entry `i`, low byte at the lower address (`20_memory.md` R65). -/
def packEntry (c : Config) (m : Memory) (i : Nat) : Memory :=
  m.setBytes (p565Base c + 2 * i) [(palPacked c m i).extractLsb' 0 8, (palPacked c m i).extractLsb' 8 8]

/-- All 256 entries of P565 recomputed, in order (`40_reader.md` R118). -/
def packAll (c : Config) (m : Memory) : Memory := (List.range 256).foldl (packEntry c) m

/-- PAL_LOAD (`40_reader.md` R118). -/
def execPalLoad (s : State) : Result :=
  command s fun s =>
    if arg0Nat s < 1 ∨ 256 < arg0Nat s then .next (raiseFault .badArgument s)
    else
      let r := Stream.readBlock (3 * arg0Nat s) s.stream
      .next (reportUnless (decide (r.1.length = 3 * arg0Nat s))
        { s with
          stream := r.2
          mem := packAll s.cfg (s.mem.setBytes (palBase s.cfg) r.1)
          result := BitVec.ofNat 32 r.1.length })

end Sys2Proof.Machine
end

