-- ==== Sys2Proof/Machine/System.lean ====
section
/-! DEFINITION. The system commands NOP, RESET, MEM_RD, MEM_WR (`43_system.md`). -/

namespace Sys2Proof.Machine

/-- NOP (`43_system.md` R230). -/
def execNop (s : State) : Result := command s fun s => .next s

/-- `Reset()` (`70_reset_and_hazards.md` R271). ARG0 to ARG2, local memory, PREFIX, SUFFIX, the stream and the event log
are not touched. -/
def resetState (s : State) : State :=
  clearFault
    { s with
      result := 0, diag := .clear, key := false
      lzw := lzwUninit s.lzw
      frame := { x := 0, y := 0, w := 0, h := 0 }, interlace := false
      gce := { tValid := false, disp := .none, tIndex := 0 }, delay := 0, bg := 0
      prevDisp := .none, prevFill := 0
      dirty := { x := 0, y := 0, w := 0, h := 0 }
      frameNo := 0, cycleNo := 0, totalFrames := 0 }

/-- RESET (`43_system.md` R231), which runs while FAULT = 1 too. -/
def execReset (s : State) : Result := commandWhileFaulted s fun s => .next (resetState s)

/-- MEM_RD (`43_system.md` R232), which runs while FAULT = 1 too. -/
def execMemRd (s : State) : Result :=
  commandWhileFaulted s fun s =>
    if readable s.cfg (arg0Nat s) then .next { s with result := (s.mem.get (arg0Nat s)).setWidth 32 }
    else .next (raiseFault .badArgument s)

/-- MEM_WR (`43_system.md` R233). -/
def execMemWr (s : State) : Result :=
  command s fun s =>
    if writable s.cfg (arg0Nat s) then .next { s with mem := s.mem.set (arg0Nat s) (argValue s) }
    else .next (raiseFault .badArgument s)

end Sys2Proof.Machine
end

