-- ==== Sys2Proof/Machine/Dispatch.lean ====
section
/-! DEFINITION. exec: one arm per row of the opcode table. -/

namespace Sys2Proof.Machine

def exec (i : Instr) (s : State) : Host.Outcome State Fault Refusal :=
  match i with
  | .nop => Sys2Proof.Machine.execNop s
  | .reset => Sys2Proof.Machine.execReset s
  | .rdByte => Sys2Proof.Machine.execRdByte s
  | .rdWord => Sys2Proof.Machine.execRdWord s
  | .rdBlock => Sys2Proof.Machine.execRdBlock s
  | .rewind => Sys2Proof.Machine.execRewind s
  | .seek => Sys2Proof.Machine.execSeek s
  | .tell => Sys2Proof.Machine.execTell s
  | .scanChain => Sys2Proof.Machine.execScanChain s
  | .palLoad => Sys2Proof.Machine.execPalLoad s
  | .lzwInit m => Sys2Proof.Machine.execLzwInit m s
  | .lzwDecode => Sys2Proof.Machine.execLzwDecode s
  | .setScreen => Sys2Proof.Machine.execSetScreen s
  | .setFrame => Sys2Proof.Machine.execSetFrame s
  | .setGce => Sys2Proof.Machine.execSetGce s
  | .cycleStart => Sys2Proof.Machine.execCycleStart s
  | .decodeFrame => Sys2Proof.Machine.execDecodeFrame s
  | .memRd => Sys2Proof.Machine.execMemRd s
  | .memWr => Sys2Proof.Machine.execMemWr s
  | .lzwClear => Sys2Proof.Machine.execLzwClear s
  | .lzwEnd => Sys2Proof.Machine.execLzwEnd s
  | .lzwRoot c => Sys2Proof.Machine.execLzwRoot c s
  | .lzwKnown c => Sys2Proof.Machine.execLzwKnown c s
  | .lzwKwkwk => Sys2Proof.Machine.execLzwKwkwk s
  | .lzwInvalid c => Sys2Proof.Machine.execLzwInvalid c s

end Sys2Proof.Machine
end

