-- ==== Sys2Proof/Machine/HostPort.lean ====
section
/-! DEFINITION. The host register space (`10_state.md` R40 to R42): which accesses are lawful, what a read returns, what
a write that is not to CMD does. -/

namespace Sys2Proof.Machine

/-- An access of 32 bits at a multiple of 4 among the 64 words of the space (`10_state.md` R40, R41). -/
def legalAccess (width offset : Nat) : Bool :=
  decide (width = 32) && decide (offset % 4 = 0) && decide (offset < 0x100)

/-- What a host read returns (`10_state.md` R40). CMD reads 0 (R22) and so does a reserved offset (R41). -/
def readReg (offset : Nat) (s : State) : Word :=
  match offset with
  | 0x04 => s.arg0
  | 0x08 => s.arg1
  | 0x0C => s.arg2
  | 0x10 => s.result
  | 0x14 => statusWord s
  | 0x18 => diagWord s.diag
  | 0x20 => xyWord s.frame
  | 0x24 => whWord s.frame
  | 0x28 => packWord [(s.interlace.toNat, 1, 0)]
  | 0x2C => gceWord s.gce
  | 0x30 => packWord [(s.delay.toNat, 16, 0)]
  | 0x34 => packWord [(s.bg.toNat, 8, 0)]
  | 0x38 => prevWord s
  | 0x3C => xyWord s.dirty
  | 0x40 => whWord s.dirty
  | 0x44 => s.frameNo
  | 0x48 => s.cycleNo
  | 0x4C => s.totalFrames
  | 0x50 => lzwAWord s.lzw
  | 0x54 => lzwBWord s.lzw
  | 0x58 => lzwCWord s.lzw
  | 0x5C => lzwAccWord s.lzw
  | 0x60 => lzwSpWord s.lzw
  | _ => 0

/-- A host write to any offset but CMD's (`10_state.md` R21, R41, R42): ARG0 to ARG2 take the word, every other write is
ignored. -/
def writeReg (offset : Nat) (v : Word) (s : State) : State :=
  match offset with
  | 0x04 => { s with arg0 := v }
  | 0x08 => { s with arg1 := v }
  | 0x0C => { s with arg2 := v }
  | _ => s

/-- A host register read: the value goes to the host and nothing of the block changes (`10_state.md` R42). -/
def hostRead (offset : Nat) (s : State) : State := { s with hostReads := s.hostReads ++ [readReg offset s] }

/-- A command word that is no command (`30_encoding.md` R92, `60_exceptions.md` R243, R246): Faulted while FAULT = 1,
unless its OPC is RESET's or MEM_RD's; otherwise BadCommand. -/
def illegalWord (opc : Byte) (s : State) : State :=
  if s.fault && decide (opc ≠ 0x01#8) && decide (opc ≠ 0x40#8) then { s with code := .faulted }
  else raiseFault .badCommand s

end Sys2Proof.Machine
end

