-- ==== Sys2Proof/Machine/Step.lean ====
section
/-! DEFINITION. One step: the host's next access (`70_reset_and_hazards.md` R281). The block fetches no instructions
(`10_state.md` R31); a command word comes to it through CMD (R22). -/

namespace Sys2Proof.Machine

/-- A host write of `w` to CMD (`10_state.md` R22, `30_encoding.md` R92). FAULT is tested by each command's own meaning
(`command`), so that a decoded command is exec of it. -/
def onCmdWrite (w : Word) (s : State) : Host.Outcome State Fault Refusal :=
  match decodeWord w with
  | .ok i => exec i s
  | .error _ => .next (illegalWord (opcOf w) s)

/-- One access made by the host (`10_state.md` R40 to R42). -/
def hostAccess (a : HostAccess) (s : State) : Host.Outcome State Fault Refusal :=
  match a with
  | .write width offset v =>
    if legalAccess width offset then
      if offset = 0x00 then onCmdWrite v s else .next (writeReg offset v s)
    else .refused .illegalAccess
  | .read width offset => if legalAccess width offset then .next (hostRead offset s) else .refused .illegalAccess

/-- One step. A configuration outside `00_scope.md` R6, R7 and a stream outside R12 are refused. With no access left the
block is idle and holds its state (`60_exceptions.md` R255, `70_reset_and_hazards.md` R270). -/
def step (s : State) : Host.Outcome State Fault Refusal :=
  if legalConfig s.cfg then
    if legalStream s.stream then
      match s.program with
      | [] => .next s
      | a :: rest => hostAccess a { s with program := rest }
    else .refused .illegalStream
  else .refused .illegalConfig

/-- The state whose next host access is the write of the word with bits `w` to CMD: the place the next instruction comes
from. The bits at `nbits` and above are 0, and so are the bits above the 32 of a command word. -/
def State.withFetchWord (s : State) (nbits w : Nat) : State :=
  { s with program := HostAccess.cmd (BitVec.ofNat 32 (w % 2 ^ nbits)) :: s.program }

end Sys2Proof.Machine
end

