-- ==== Sys2Proof/Safety.lean ====
section
/-! DEFINITION. What a safe run is (`70_reset_and_hazards.md` R281), and the invariants of the machine: the bounds of the
stream, of local memory, of the LZW decoder (`41_lzw.md` R162), of the dirty rectangle and of the key flag. -/

namespace Sys2Proof.Machine

/-! ### Runs -/

/-- A state that is a successful end of a run (R281): every access made, and the block not faulted. A refused run has no
end state at all. -/
def goodEnd (s : State) : Prop := s.program = [] ∧ s.fault = false

/-- `t` is reached from `s` by steps that each answer a next state. -/
inductive Reaches : State → State → Prop where
  | refl (s : State) : Reaches s s
  | tail {s t u : State} : Reaches s t → step t = .next u → Reaches s u

/-! ### The stream (`20_memory.md` R63, R68) -/

/-- `t'` is the stream `t` after read requests: POS has moved forward only and stays within SLEN, requests were counted,
S and the oracle are the same. -/
structure Stream.Ahead (t t' : Stream) : Prop where
  data   : t'.data = t.data
  failAt : t'.failAt = t.failAt
  pos    : t.pos ≤ t'.pos
  reads  : t.reads ≤ t'.reads
  bound  : t.pos ≤ t.slen → t'.pos ≤ t.slen

/-! ### The LZW decoder (`41_lzw.md` R162) -/

/-- The code is a string of the dictionary: a root code, or a registered one (`41_lzw.md` R147). -/
def Lzw.knows (z : Lzw) (c : Nat) : Prop := c < z.clearCode ∨ (z.newcodes ≤ c ∧ c < z.slot)

/-- Every registered prefix is an earlier string of the dictionary (`41_lzw.md` R162 item 3). -/
def Lzw.dictOk (z : Lzw) : Prop :=
  ∀ k, z.newcodes ≤ k → k < z.slot → z.prefixOf k < k ∧ (z.prefixOf k < z.clearCode ∨ z.newcodes ≤ z.prefixOf k)

/-- The decoder reads codes (`41_lzw.md` R161). -/
def LzwSt.coding : LzwSt → Bool
  | .ready | .clear | .decoding => true
  | .uninitialized | .ended => false

/-- Every field fits its register (`10_state.md` R34), in every state of the decoder. -/
structure Lzw.Fits (z : Lzw) : Prop where
  m        : z.m < 2 ^ 4
  cursize  : z.cursize < 2 ^ 4
  topSlot  : z.topSlot < 2 ^ 13
  slot     : z.slot < 2 ^ 13
  prevCode : z.prevCode < 2 ^ 12
  acc      : z.acc < 2 ^ z.nbits
  nbits    : z.nbits < 2 ^ 5
  brem     : z.brem < 2 ^ 8
  sp       : z.stack.length < 2 ^ 13

/-- Items 1 to 7 of `41_lzw.md` R162 while the decoder reads codes. They are stated for those states only: DECODE_FRAME
can end a decoder that was never initialised (`42_compositor.md` R189, log 9). -/
structure Lzw.Coding (maxBits : Nat) (z : Lzw) : Prop where
  mLow      : 2 ≤ z.m
  mHigh     : z.m ≤ 8
  noPrev    : z.prevValid = false → z.slot = z.newcodes
  slotLow   : z.newcodes ≤ z.slot
  slotHigh  : z.slot ≤ z.topSlot
  top       : z.topSlot = 2 ^ z.cursize
  codeSize  : z.codeSize ≤ z.cursize
  curHigh   : z.cursize ≤ maxBits
  dict      : z.dictOk
  prev      : z.prevValid = true → z.knows z.prevCode ∧ z.first = firstByte (stringOf z z.prevCode)
  stack     : z.stack.length < 2 ^ maxBits
  bits      : z.nbits < 8
  noEnd     : z.endReason = .notEnded

/-- The decoder's invariant: every field fits, LZW_END is 0 exactly outside Ended (`10_state.md` R33), the bounds of R162
hold while codes are read, and the stack is empty outside Decoding, in Ended too (`41_lzw.md` R158). -/
structure Lzw.Ok (maxBits : Nat) (z : Lzw) : Prop where
  fits   : z.Fits
  reason : z.endReason = .notEnded ↔ z.st ≠ .ended
  coding : z.st.coding = true → z.Coding maxBits
  empty  : z.st ≠ .decoding → z.stack = []

/-! ### Memory, the dirty rectangle, the key flag -/

/-- Local memory is canonical and lists only addresses that exist (`20_memory.md` R61). -/
def MemOk (c : Config) (m : Memory) : Prop := m.wf ∧ ∀ p ∈ m, readable c p.1 = true

/-- The rectangle is inside the canvas or empty (`10_state.md` R30, `42_compositor.md` R185). -/
def Rect.inCanvas (c : Config) (r : Rect) : Prop :=
  (r.w = 0 ∧ r.h = 0) ∨ (r.x.toNat + r.w.toNat ≤ c.maxW ∧ r.y.toNat + r.h.toNat ≤ c.maxH)

/-- The invariant of the machine. `key` is `42_compositor.md` R212: at a key frame PREV_DISP is 0, unless the block is
faulted (a corrupt key frame has recorded its own method, R200). -/
structure Inv (s : State) : Prop where
  cfg    : legalConfig s.cfg = true
  stream : legalStream s.stream = true
  pos    : s.stream.pos ≤ s.stream.slen
  mem    : MemOk s.cfg s.mem
  lzw    : s.lzw.Ok s.cfg.lzwMaxBits
  dirty  : s.dirty.inCanvas s.cfg
  key    : s.key = true → s.fault = false → s.prevDisp = .none

/-- Launch inputs within the spec's laws (`00_scope.md` R6, R7, R12, `20_memory.md` R76): a lawful configuration, a
stream below 2^32 bytes, and a MEM_INIT in canonical form over addresses that exist. -/
def Launch.lawful (c : Config) (l : Launch) : Prop :=
  legalConfig c = true ∧ l.data.length < 2 ^ 32 ∧ MemOk c l.memInit

/-! ### Names the statements use -/

/-- The configuration and the stream are within the laws that every step checks (`00_scope.md` R6, R7, R12). -/
def State.lawful (s : State) : Prop := legalConfig s.cfg = true ∧ legalStream s.stream = true

/-- Of the byte-read requests from now on, the one with number `i` is answered with a byte, the earlier ones having been:
S has that byte and READ_FAIL does not fail that request (`20_memory.md` R63, `00_scope.md` R13). -/
def Stream.delivers (t : Stream) (i : Nat) : Prop := t.pos + i < t.data.length ∧ t.reads + i ∉ t.failAt

/-- The byte of S that is `i` bytes after POS. -/
def Stream.byteAt (t : Stream) (i : Nat) : Byte := t.data.getD (t.pos + i) 0

/-- The stream after `k` requests that were answered with a byte and `failed` requests that were answered with EOF. -/
def Stream.after (t : Stream) (k failed : Nat) : Stream := { t with pos := t.pos + k, reads := t.reads + k + failed }

/-- The bytes of a sub-block chain with these payloads (`30_encoding.md` R89). -/
def chainBytes (blocks : List (List Byte)) : List Byte :=
  (blocks.flatMap fun b => BitVec.ofNat 8 b.length :: b) ++ [0]

/-- The addresses of a rectangle's pixels in FB (`20_memory.md` R62). -/
def Rect.addrs (c : Config) (r : Rect) : List Nat := (rectPixels r).map fun p => pixelAddr c p.1 p.2

/-- The FB byte at `a` once DECODE_FRAME has keyed the canvas (`42_compositor.md` R190) or applied the previous frame's
disposal (R192 to R194), before it decodes a row. -/
def disposedByte (s : State) (a : Nat) : Byte :=
  if s.key then fillValue s
  else if s.prevDisp = .background ∧ a ∈ s.dirty.addrs s.cfg then s.prevFill
  else if s.prevDisp = .previous ∧ s.cfg.hasBackup ∧ a ∈ s.dirty.addrs s.cfg then s.mem.get (fbn s.cfg + a)
  else s.mem.get a

end Sys2Proof.Machine
end

