-- ==== Sys2Proof/Certificates/Slice0/Obligations.lean ====
section
/-! DEFINITION. The statements of this package, for the provers. Each docstring names the rules a statement formalises, and
says where a clause rests on a choice of the model and not on a rule. -/

section
open Sys2Proof Sys2Proof.Machine

/-! ### Encodings -/

/-- `30_encoding.md` R81, R82: which words are which command. -/
def Obligations.OpcodeMap : Prop :=
  ∀ (w : Word) (i : Instr), decodeWord w = .ok i ↔
    w.extractLsb' 16 16 = 0#16 ∧ (w.extractLsb' 0 8, i) ∈
      [(0x00#8, Instr.nop), (0x01#8, .reset), (0x10#8, .rdByte), (0x11#8, .rdWord), (0x12#8, .rdBlock),
       (0x13#8, .rewind), (0x14#8, .seek), (0x15#8, .tell), (0x16#8, .scanChain), (0x17#8, .palLoad),
       (0x20#8, .lzwInit (w.extractLsb' 8 8)), (0x21#8, .lzwDecode), (0x30#8, .setScreen), (0x31#8, .setFrame),
       (0x32#8, .setGce), (0x33#8, .cycleStart), (0x34#8, .decodeFrame), (0x40#8, .memRd), (0x41#8, .memWr)]

/-- Every command decodes from its own word, and a word that decodes to a command is that command's word up to IMM8, which
only LZW_INIT reads (`30_encoding.md` R80 to R82, R94). -/
def Obligations.CommandRoundTrip : Prop :=
  (∀ i : Instr, i.isCommand = true → ∃ w, encode i = some w ∧ decodeWord w = .ok i)
    ∧ ∀ (w : Word) (i : Instr), decodeWord w = .ok i →
      i.isCommand = true ∧ ∃ v, encode i = some v ∧ v &&& 0xFFFF00FF#32 = w &&& 0xFFFF00FF#32
        ∧ ∀ m, i = .lzwInit m → v = w

/-- `30_encoding.md` R88: the class of a code. -/
def Obligations.CodeClasses : Prop :=
  ∀ (x : CodeCtx) (c : Nat),
    (decodeCode x c = .lzwClear ↔ c = 2 ^ x.m)
      ∧ (decodeCode x c = .lzwEnd ↔ c = 2 ^ x.m + 1)
      ∧ (decodeCode x c = .lzwRoot c ↔ x.prev = false ∧ c < 2 ^ x.m)
      ∧ (decodeCode x c = .lzwKnown c ↔ x.prev = true ∧ c < x.slot ∧ c ≠ 2 ^ x.m ∧ c ≠ 2 ^ x.m + 1)
      ∧ (decodeCode x c = .lzwKwkwk ↔ x.prev = true ∧ c = x.slot ∧ c ≠ 2 ^ x.m ∧ c ≠ 2 ^ x.m + 1)
      ∧ (decodeCode x c = .lzwInvalid c ↔
          (x.prev = false ∧ 2 ^ x.m + 2 ≤ c) ∨ (x.prev = true ∧ x.slot < c ∧ c ≠ 2 ^ x.m ∧ c ≠ 2 ^ x.m + 1))
      ∧ (decodeCode x c = .lzwClear ∨ decodeCode x c = .lzwEnd ∨ decodeCode x c = .lzwRoot c
          ∨ decodeCode x c = .lzwKnown c ∨ decodeCode x c = .lzwKwkwk ∨ decodeCode x c = .lzwInvalid c)

/-- In every decoder state, a code class that the state can select has one code of CURSIZE bits that decodes to it, and
every code of CURSIZE bits decodes to a class that the state selects and that encodes back to it (`30_encoding.md` R87,
R88). -/
def Obligations.CodeRoundTrip : Prop :=
  (∀ (x : CodeCtx) (i : Instr), i.selected x = true →
      ∃ c, encodeCode x i = some c ∧ c < 2 ^ x.cursize ∧ decodeCode x c = i)
    ∧ ∀ (x : CodeCtx) (c : Nat), c < 2 ^ x.cursize →
      (decodeCode x c).selected x = true ∧ encodeCode x (decodeCode x c) = some c

/-- Words written out from the tables of `30_encoding.md` R80, R81, R88 and R94, one or more of every family. -/
def Obligations.SampleEncodings : Prop :=
  decodeWord 0x00000000#32 = .ok .nop ∧ decodeWord 0x00000001#32 = .ok .reset
    ∧ decodeWord 0x00000012#32 = .ok .rdBlock ∧ decodeWord 0x0000FF17#32 = .ok .palLoad
    ∧ decodeWord 0x00000220#32 = .ok (.lzwInit 2#8) ∧ decodeWord 0x00000031#32 = .ok .setFrame
    ∧ decodeWord 0x00000034#32 = .ok .decodeFrame ∧ decodeWord 0x00000041#32 = .ok .memWr
    ∧ decodeWord 0x00010001#32 = .error .reservedBits ∧ decodeWord 0x00000042#32 = .error .unassignedOpcode
    ∧ decodeCode { m := 2, cursize := 3, slot := 6, prev := false } 4 = .lzwClear
    ∧ decodeCode { m := 2, cursize := 3, slot := 6, prev := true } 5 = .lzwEnd
    ∧ decodeCode { m := 2, cursize := 3, slot := 6, prev := false } 1 = .lzwRoot 1
    ∧ decodeCode { m := 2, cursize := 3, slot := 6, prev := true } 1 = .lzwKnown 1
    ∧ decodeCode { m := 2, cursize := 3, slot := 6, prev := true } 6 = .lzwKwkwk
    ∧ decodeCode { m := 2, cursize := 3, slot := 6, prev := false } 6 = .lzwInvalid 6

/-! ### Steps, the dispatcher, faults -/

/-- A step whose next host access writes a word that decodes to `i` is exec of `i`, with that access taken off the host's
list (`30_encoding.md` R92, `10_state.md` R22). The list is the model's way to hold the host (log 2). -/
def Obligations.StepRunsDecodedCommand : Prop :=
  ∀ (s : State) (w : Word) (rest : List HostAccess) (i : Instr), s.lawful → s.program = .cmd w :: rest →
    decodeWord w = .ok i → step s = exec i { s with program := rest }

/-- The decode loop (`41_lzw.md` R144) reads its codes with GetCode, and runs every code as the instruction that it decodes
to: exec of that instruction answers the state the loop goes on with or returns. CHAIN ends the decoder as ChainEnd with
NO_END_CODE (R159) and FAIL ends it as ReadFailure (R160), the partial code bits staying as GetCode leaves them (log 8).
With an empty stack and a byte wanted, LzwDecode reads codes, and goes on with the state they leave or returns their outcome;
`bitsLeft` is the model's bound of that loop (log 14). -/
def Obligations.DecoderRunsDecodedCode : Prop :=
  (∀ s : State, readCode s = ((getCode s.lzw s.stream).1,
      { s with lzw := (getCode s.lzw s.stream).2.1, stream := (getCode s.lzw s.stream).2.2 }))
    ∧ (∀ (n : Nat) (s s1 : State) (c : Nat), readsCode s = true → readCode s = (.got c, s1) →
      ∃ t, exec (decodeCode s1.lzw.codeCtx c) s1 = .next t
        ∧ (decodeCode s1.lzw.codeCtx c = .lzwClear → readCodes (n + 1) s = readCodes n t)
        ∧ (decodeCode s1.lzw.codeCtx c = .lzwEnd → readCodes (n + 1) s = (.eoi, t))
        ∧ (decodeCode s1.lzw.codeCtx c = .lzwInvalid c → readCodes (n + 1) s = (.corrupt, t))
        ∧ (decodeCode s1.lzw.codeCtx c ≠ .lzwClear → decodeCode s1.lzw.codeCtx c ≠ .lzwEnd →
            decodeCode s1.lzw.codeCtx c ≠ .lzwInvalid c → readCodes (n + 1) s = (.ok, t)))
    ∧ (∀ (n : Nat) (s s1 : State), readCode s = (.chain, s1) →
      readCodes n s = (.chain, { s1 with
        lzw := { s1.lzw with st := .ended, endReason := .chainEnd }, diag := { s1.diag with noEndCode := true } }))
    ∧ (∀ (n : Nat) (s s1 : State), readCode s = (.fail, s1) →
      readCodes n s = (.fail, { s1 with lzw := { s1.lzw with st := .ended, endReason := .readFailure } }))
    ∧ ∀ (dst n lim : Nat) (s s1 : State) (o : LzwOutcome), s.lzw.st ≠ .ended → s.lzw.stack = [] →
      readCodes (bitsLeft s.lzw s.stream) s = (o, s1) →
      (o = .ok → lzwDecode dst (n + 1) lim s = lzwDecode dst (n + 1) lim s1)
        ∧ (o ≠ .ok → lzwDecode dst (n + 1) lim s = { outcome := o, count := 0, state := s1 })

/-- `30_encoding.md` R83, R84: the illegal words, while FAULT = 0. -/
def Obligations.IllegalWordFaults : Prop :=
  ∀ (s : State) (w : Word) (rest : List HostAccess), s.lawful → s.fault = false → s.program = .cmd w :: rest →
    (w.extractLsb' 16 16 ≠ 0#16
      ∨ (w.extractLsb' 0 8).toNat ∈ List.range' 0x02 14 ++ List.range' 0x18 8 ++ List.range' 0x22 14
          ++ List.range' 0x35 11 ++ List.range' 0x42 190) →
    step s = .next { s with program := rest, code := .badCommand, fault := true }

/-- `60_exceptions.md` R243: a faulted block runs only RESET and MEM_RD. -/
def Obligations.FaultedBlock : Prop :=
  ∀ (s : State) (w : Word) (rest : List HostAccess), s.lawful → s.fault = true → s.program = .cmd w :: rest →
    (w.extractLsb' 0 8 ≠ 0x01#8 → w.extractLsb' 0 8 ≠ 0x40#8 →
        step s = .next { s with program := rest, code := .faulted })
      ∧ (w.extractLsb' 0 8 = 0x01#8 ∨ w.extractLsb' 0 8 = 0x40#8 → w.extractLsb' 16 16 ≠ 0#16 →
        step s = .next { s with program := rest, code := .badCommand, fault := true })
      ∧ (w.extractLsb' 0 8 = 0x40#8 → w.extractLsb' 16 16 = 0#16 → readable s.cfg s.arg0.toNat = true →
        step s = .next { s with
          program := rest, code := .success, result := (s.mem.get s.arg0.toNat).setWidth 32 })
      ∧ (w.extractLsb' 0 8 = 0x40#8 → w.extractLsb' 16 16 = 0#16 → readable s.cfg s.arg0.toNat = false →
        step s = .next { s with program := rest, code := .badArgument, fault := true })
      ∧ (w.extractLsb' 0 8 = 0x01#8 → w.extractLsb' 16 16 = 0#16 →
        ∃ t, step s = .next t ∧ t.fault = false ∧ t.code = .success)

/-- `60_exceptions.md` R249: FAULT is left only by RESET, and until then a step changes nothing of the block but CODE,
RESULT (MEM_RD) and what the host itself writes to ARG0 to ARG2. The host's list of accesses and its record of reads are
the model's (log 2, log 13). -/
def Obligations.FaultLeftOnlyByReset : Prop :=
  ∀ s t : State, step s = .next t → s.fault = true →
    (t.fault = false → ∃ w rest, s.program = .cmd w :: rest ∧ w.extractLsb' 0 8 = 0x01#8 ∧ w.extractLsb' 16 16 = 0#16)
      ∧ (t.fault = true → t = { s with
          program := t.program, hostReads := t.hostReads, arg0 := t.arg0, arg1 := t.arg1, arg2 := t.arg2
          code := t.code, result := t.result })

/-- `60_exceptions.md` R240: the outcomes of a write to CMD, the refusal among them. -/
def Obligations.OutcomeOfCommand : Prop :=
  ∀ (s : State) (w : Word) (rest : List HostAccess), s.lawful → s.program = .cmd w :: rest →
    (¬(decodeWord w = .ok .decodeFrame ∧ s.cfg.hasFramebuffer = false ∧ s.fault = false) →
      ∃ t, step s = .next t
        ∧ ((t.code = .success ∧ (t.fault = s.fault ∨ decodeWord w = .ok .reset))
          ∨ (t.code = .streamReadFailure ∧ t.diag.readFailure = true ∧ t.fault = s.fault)
          ∨ (t.code ∈ [CmdCode.lzwCorruptStream, .badCommand, .badArgument, .badSequence] ∧ t.fault = true)
          ∨ (s.fault = true ∧ t = { s with program := rest, code := .faulted })))
      ∧ (decodeWord w = .ok .decodeFrame ∧ s.cfg.hasFramebuffer = false ∧ s.fault = false →
        step s = .refused .noFramebuffer)

/-- No step ends in a fault of the model, and a step is refused only for the reasons of `00_scope.md` R6, R7, R9, R12 and
`10_state.md` R41: every command ends (`70_reset_and_hazards.md` R280). Three things here are the model's: that a stream
outside R12 is refused, and that offsets of 0x100 and above are (log 12), and that a step with no host access left answers
the state as it is, the idle block of `60_exceptions.md` R255 (log 2). -/
def Obligations.EveryStepEnds : Prop :=
  ∀ s : State, (∀ f, step s ≠ .fault f)
    ∧ (∀ r, step s = .refused r →
      (r = .illegalConfig ∧ legalConfig s.cfg = false) ∨ (r = .illegalStream ∧ legalStream s.stream = false)
        ∨ (∃ rest width off v, r = .illegalAccess
            ∧ (s.program = .write width off v :: rest ∨ s.program = .read width off :: rest)
            ∧ (width ≠ 32 ∨ off % 4 ≠ 0 ∨ 0x100 ≤ off))
        ∨ (∃ rest w, r = .noFramebuffer ∧ s.program = .cmd w :: rest ∧ decodeWord w = .ok .decodeFrame
            ∧ s.cfg.hasFramebuffer = false ∧ s.fault = false))
    ∧ (s.lawful → s.program = [] → step s = .next s)

/-- `10_state.md` R41, R42: the host's accesses to registers other than CMD. A read's value goes to `hostReads`, the
model's record of what the host has seen (log 13). -/
def Obligations.HostAccesses : Prop :=
  ∀ (s : State) (width off : Nat) (v : Word) (rest : List HostAccess), s.lawful →
    ((width ≠ 32 ∨ off % 4 ≠ 0) →
        (s.program = .write width off v :: rest ∨ s.program = .read width off :: rest) →
        step s = .refused .illegalAccess)
      ∧ (width = 32 → off % 4 = 0 → off < 0x100 → off ≠ 0 → s.program = .write width off v :: rest →
        step s = .next { s with
          program := rest
          arg0 := if off = 0x04 then v else s.arg0
          arg1 := if off = 0x08 then v else s.arg1
          arg2 := if off = 0x0C then v else s.arg2 })
      ∧ (width = 32 → off % 4 = 0 → off < 0x100 → s.program = .read width off :: rest →
        step s = .next { s with program := rest, hostReads := s.hostReads ++ [readReg off s] })
      ∧ (off = 0 ∨ off = 0x1C ∨ 0x60 < off → readReg off s = 0)

/-- The words a host reads at the offsets of `10_state.md` R40: the whole-word registers, and the fields of STATUS (R24),
DIAG (R25), FR_XY, FR_WH, FR_FLAGS (R26), GCE, DELAY (R27) and SCREEN (R28). -/
def Obligations.RegisterFields : Prop :=
  ∀ s : State,
    (readReg 0x04 s = s.arg0 ∧ readReg 0x08 s = s.arg1 ∧ readReg 0x0C s = s.arg2 ∧ readReg 0x10 s = s.result
      ∧ readReg 0x44 s = s.frameNo ∧ readReg 0x48 s = s.cycleNo ∧ readReg 0x4C s = s.totalFrames)
    ∧ ((readReg 0x14 s).getLsbD 0 = s.fault ∧ (readReg 0x14 s).getLsbD 1 = s.key
      ∧ ((readReg 0x14 s).extractLsb' 4 3).toNat = s.lzw.st.toNat
      ∧ ((readReg 0x14 s).extractLsb' 8 3).toNat = s.lzw.endReason.toNat
      ∧ ((readReg 0x14 s).extractLsb' 16 4).toNat = s.code.toNat ∧ readReg 0x14 s &&& 0xFFF0F88C#32 = 0)
    ∧ ((readReg 0x18 s).getLsbD 0 = s.diag.invalidDisposal ∧ (readReg 0x18 s).getLsbD 1 = s.diag.outputClipped
      ∧ (readReg 0x18 s).getLsbD 2 = s.diag.readFailure ∧ (readReg 0x18 s).getLsbD 3 = s.diag.noEndCode
      ∧ readReg 0x18 s &&& 0xFFFFFFF0#32 = 0)
    ∧ ((readReg 0x20 s).extractLsb' 0 16 = s.frame.x ∧ (readReg 0x20 s).extractLsb' 16 16 = s.frame.y
      ∧ (readReg 0x24 s).extractLsb' 0 16 = s.frame.w ∧ (readReg 0x24 s).extractLsb' 16 16 = s.frame.h
      ∧ (readReg 0x28 s).getLsbD 0 = s.interlace ∧ readReg 0x28 s &&& 0xFFFFFFFE#32 = 0)
    ∧ ((readReg 0x2C s).getLsbD 0 = s.gce.tValid ∧ ((readReg 0x2C s).extractLsb' 8 3).toNat = s.gce.disp.toNat
      ∧ (readReg 0x2C s).extractLsb' 16 8 = s.gce.tIndex ∧ readReg 0x2C s &&& 0xFF00F8FE#32 = 0
      ∧ (readReg 0x30 s).extractLsb' 0 16 = s.delay ∧ readReg 0x30 s &&& 0xFFFF0000#32 = 0
      ∧ (readReg 0x34 s).extractLsb' 0 8 = s.bg ∧ readReg 0x34 s &&& 0xFFFFFF00#32 = 0)

/-- The fields of PREV (`10_state.md` R29), DIRTY_XY, DIRTY_WH (R30) and the LZW registers (R34), for a decoder whose
values fit their fields (`41_lzw.md` R162). -/
def Obligations.DecoderRegisterFields : Prop :=
  ∀ s : State, s.lzw.Fits →
    (((readReg 0x38 s).extractLsb' 0 3).toNat = s.prevDisp.toNat ∧ (readReg 0x38 s).extractLsb' 8 8 = s.prevFill
      ∧ readReg 0x38 s &&& 0xFFFF00F8#32 = 0
      ∧ (readReg 0x3C s).extractLsb' 0 16 = s.dirty.x ∧ (readReg 0x3C s).extractLsb' 16 16 = s.dirty.y
      ∧ (readReg 0x40 s).extractLsb' 0 16 = s.dirty.w ∧ (readReg 0x40 s).extractLsb' 16 16 = s.dirty.h)
    ∧ (((readReg 0x50 s).extractLsb' 0 4).toNat = s.lzw.m ∧ ((readReg 0x50 s).extractLsb' 4 4).toNat = s.lzw.cursize
      ∧ ((readReg 0x50 s).extractLsb' 8 13).toNat = s.lzw.topSlot ∧ readReg 0x50 s &&& 0xFFE00000#32 = 0)
    ∧ (((readReg 0x54 s).extractLsb' 0 13).toNat = s.lzw.slot
      ∧ ((readReg 0x54 s).extractLsb' 16 12).toNat = (if s.lzw.prevValid then s.lzw.prevCode else 0)
      ∧ (readReg 0x54 s).getLsbD 31 = s.lzw.prevValid ∧ readReg 0x54 s &&& 0x7000E000#32 = 0)
    ∧ ((readReg 0x58 s).extractLsb' 0 8 = s.lzw.first ∧ ((readReg 0x58 s).extractLsb' 8 5).toNat = s.lzw.nbits
      ∧ ((readReg 0x58 s).extractLsb' 16 8).toNat = s.lzw.brem ∧ readReg 0x58 s &&& 0xFF00E000#32 = 0)
    ∧ ((readReg 0x5C s).toNat = s.lzw.acc ∧ (readReg 0x60 s).toNat = s.lzw.stack.length)

/-! ### Whole-machine rules -/

/-- No command writes ARG0 to ARG2 (`10_state.md` R21), S (`20_memory.md` R68, R72), READ_FAIL or a parameter; POS stays
within SLEN (`10_state.md` R43). The host's own lists are the model's (log 2, log 13). -/
def Obligations.CommandsKeepInputs : Prop :=
  ∀ (i : Instr) (s t : State), exec i s = .next t →
    t.arg0 = s.arg0 ∧ t.arg1 = s.arg1 ∧ t.arg2 = s.arg2 ∧ t.cfg = s.cfg ∧ t.stream.data = s.stream.data
      ∧ t.stream.failAt = s.stream.failAt ∧ s.stream.reads ≤ t.stream.reads ∧ t.program = s.program
      ∧ t.hostReads = s.hostReads ∧ (s.stream.pos ≤ s.stream.data.length → t.stream.pos ≤ t.stream.data.length)

/-- Which instructions write which register (`10_state.md` R23, R24, R26 to R30, R32; the LZW fields R33, R34). -/
def Obligations.RegisterWriters : Prop :=
  ∀ (i : Instr) (s t : State), exec i s = .next t →
    (i ≠ .setFrame → i ≠ .reset → t.frame = s.frame ∧ t.interlace = s.interlace)
      ∧ (i ≠ .setGce → i ≠ .cycleStart → i ≠ .decodeFrame → i ≠ .reset → t.gce = s.gce)
      ∧ (i ≠ .setGce → i ≠ .reset → t.delay = s.delay)
      ∧ (i ≠ .setScreen → i ≠ .reset → t.bg = s.bg)
      ∧ (i ≠ .cycleStart → i ≠ .decodeFrame → i ≠ .reset →
          t.prevDisp = s.prevDisp ∧ t.key = s.key ∧ t.frameNo = s.frameNo)
      ∧ (i ≠ .decodeFrame → i ≠ .reset → t.prevFill = s.prevFill ∧ t.dirty = s.dirty)
      ∧ (i ≠ .cycleStart → i ≠ .reset → t.cycleNo = s.cycleNo ∧ t.totalFrames = s.totalFrames)
      ∧ (s.totalFrames ≠ 0 → i ≠ .reset → t.totalFrames = s.totalFrames)
      ∧ (i.isCommand = true → (∀ m, i ≠ .lzwInit m) → i ≠ .lzwDecode → i ≠ .decodeFrame → i ≠ .reset → t.lzw = s.lzw)
      ∧ (t.code ∈ [CmdCode.badCommand, .badArgument, .badSequence, .faulted] → s.fault = false → i ≠ .reset →
          i.isCommand = true → t.result = s.result)
      ∧ (i ∈ [Instr.nop, .setScreen, .setFrame, .setGce, .cycleStart, .memWr] ∨ (∃ m, i = .lzwInit m)
          ∨ i.isCommand = false → t.result = s.result)

/-- Who stores to local memory, and where: only RD_BLOCK, PAL_LOAD, LZW_DECODE, DECODE_FRAME and MEM_WR store; P565 is
written by PAL_LOAD alone; no address that is not readable is ever written (`20_memory.md` R61, R64, `10_state.md` R38,
`42_compositor.md` R213). The last two clauses assume that DIRTY is inside the canvas, which every step keeps
(Obligations.InvariantKept). -/
def Obligations.MemoryWriters : Prop :=
  ∀ (i : Instr) (s t : State), exec i s = .next t →
    (i ≠ .rdBlock → i ≠ .palLoad → i ≠ .lzwDecode → i ≠ .decodeFrame → i ≠ .memWr → t.mem = s.mem)
      ∧ (legalConfig s.cfg = true → s.dirty.inCanvas s.cfg →
        (i ≠ .palLoad → ∀ a, palBase s.cfg + 768 ≤ a → a < memSize s.cfg → t.mem.get a = s.mem.get a)
          ∧ ∀ a, readable s.cfg a = false → t.mem.get a = s.mem.get a)

/-- The DIAG bits (`10_state.md` R25): they are sticky until RESET; INVALID_DISPOSAL is set by SET_GCE on a raw value above
3 alone, READ_FAILURE exactly by the commands that end in StreamReadFailure, and the other two only by the decoder's
commands, which set them as Obligations.LzwDecodeEffect and Obligations.DecodeFrameEffect say. -/
def Obligations.DiagnosticBits : Prop :=
  ∀ (i : Instr) (s t : State), exec i s = .next t → i ≠ .reset → i.isCommand = true →
    (t.diag.invalidDisposal = true ↔
        s.diag.invalidDisposal = true ∨ (i = .setGce ∧ s.fault = false ∧ 3 < (s.arg0.extractLsb' 8 3).toNat))
      ∧ (t.diag.readFailure = true ↔ s.diag.readFailure = true ∨ t.code = .streamReadFailure)
      ∧ (s.diag.outputClipped = true → t.diag.outputClipped = true)
      ∧ (s.diag.noEndCode = true → t.diag.noEndCode = true)
      ∧ (i ≠ .lzwDecode → i ≠ .decodeFrame →
          t.diag.outputClipped = s.diag.outputClipped ∧ t.diag.noEndCode = s.diag.noEndCode)

/-- The event log only grows, and only DECODE_FRAME makes it grow (`10_state.md` R45, `20_memory.md` R77). -/
def Obligations.EventLogGrows : Prop :=
  (∀ (i : Instr) (s t : State), exec i s = .next t → (∃ es, t.ev = s.ev ++ es) ∧ (i ≠ .decodeFrame → t.ev = s.ev))
    ∧ ∀ s t : State, step s = .next t → ∃ es, t.ev = s.ev ++ es

/-- The invariant holds at power-on, for every lawful configuration and launch input. -/
def Obligations.InvariantAtPowerOn : Prop :=
  ∀ (c : Config) (l : Launch), l.lawful c → Inv (State.powerOn c l)

/-- Every step keeps the invariant: memory stays canonical and inside the map, POS inside S, the LZW decoder within the
bounds of `41_lzw.md` R162 with an empty stack outside Decoding (R158; log 9 for the one case that no rule spells out),
DIRTY inside the canvas (`10_state.md` R30), and PREV_DISP is 0 at a key frame (`42_compositor.md` R212). -/
def Obligations.InvariantKept : Prop :=
  ∀ s t : State, Inv s → step s = .next t → Inv t

/-! ### Reset and the system commands -/

/-- `10_state.md` R46 and `70_reset_and_hazards.md` R270, R271: the values at power-on, for every configuration and launch
input, and after RESET. At power-on every register that RESET writes holds what RESET leaves. -/
def Obligations.ResetValues : Prop :=
  (∀ (c : Config) (l : Launch),
    (State.powerOn c l).cfg = c ∧ (State.powerOn c l).program = l.program
      ∧ (State.powerOn c l).arg0 = 0 ∧ (State.powerOn c l).arg1 = 0 ∧ (State.powerOn c l).arg2 = 0
      ∧ (State.powerOn c l).stream = { data := l.data, pos := 0, reads := 0, failAt := l.failAt }
      ∧ (State.powerOn c l).mem = l.memInit ∧ (State.powerOn c l).ev = []
      ∧ (State.powerOn c l).lzw.prefixTab = l.prefixTab ∧ (State.powerOn c l).lzw.suffixTab = l.suffixTab
      ∧ exec .reset (State.powerOn c l) = .next (State.powerOn c l))
    ∧ ∀ s : State, exec .reset s = .next { s with
        result := 0, fault := false, key := false, code := .success
        diag := { invalidDisposal := false, outputClipped := false, readFailure := false, noEndCode := false }
        frame := { x := 0, y := 0, w := 0, h := 0 }, interlace := false
        gce := { tValid := false, disp := .none, tIndex := 0 }, delay := 0, bg := 0
        prevDisp := .none, prevFill := 0, dirty := { x := 0, y := 0, w := 0, h := 0 }
        frameNo := 0, cycleNo := 0, totalFrames := 0
        lzw := { s.lzw with
          st := .uninitialized, endReason := .notEnded, m := 0, cursize := 0, topSlot := 0, slot := 0
          prevValid := false, prevCode := 0, first := 0, acc := 0, nbits := 0, brem := 0, stack := [] } }

/-- `43_system.md` R230. -/
def Obligations.NopEffect : Prop :=
  ∀ s : State, s.fault = false → exec .nop s = .next { s with code := .success }

/-- `43_system.md` R232, with `Readable` of `20_memory.md` R64 written out. -/
def Obligations.MemReadEffect : Prop :=
  ∀ s : State,
    (readable s.cfg s.arg0.toNat = true ↔
        s.arg0.toNat < fbn s.cfg ∨ (s.cfg.hasBackup = true ∧ fbn s.cfg ≤ s.arg0.toNat ∧ s.arg0.toNat < 2 * fbn s.cfg)
          ∨ (palBase s.cfg ≤ s.arg0.toNat ∧ s.arg0.toNat < memSize s.cfg))
      ∧ (readable s.cfg s.arg0.toNat = true →
        exec .memRd s = .next { s with code := .success, result := (s.mem.get s.arg0.toNat).setWidth 32 })
      ∧ (readable s.cfg s.arg0.toNat = false →
        exec .memRd s = .next { s with code := .badArgument, fault := true })

/-- `43_system.md` R233, with `Writable` of `20_memory.md` R64 written out. -/
def Obligations.MemWriteEffect : Prop :=
  ∀ s : State, s.fault = false →
    (writable s.cfg s.arg0.toNat = true ↔
        s.arg0.toNat < fbn s.cfg ∨ (s.cfg.hasBackup = true ∧ fbn s.cfg ≤ s.arg0.toNat ∧ s.arg0.toNat < 2 * fbn s.cfg)
          ∨ (palBase s.cfg ≤ s.arg0.toNat ∧ s.arg0.toNat < palBase s.cfg + 768))
      ∧ (writable s.cfg s.arg0.toNat = true →
        ∃ t, exec .memWr s = .next t ∧ t = { s with code := .success, mem := t.mem }
          ∧ ∀ b, t.mem.get b = if b = s.arg0.toNat then s.arg1.extractLsb' 0 8 else s.mem.get b)
      ∧ (writable s.cfg s.arg0.toNat = false →
        exec .memWr s = .next { s with code := .badArgument, fault := true })

/-! ### The reader -/

/-- `40_reader.md` R110. -/
def Obligations.ReadByteEffect : Prop :=
  ∀ s : State, s.fault = false →
    (s.stream.delivers 0 → exec .rdByte s = .next { s with
        code := .success, stream := s.stream.after 1 0, result := (s.stream.byteAt 0).setWidth 32 })
      ∧ (¬s.stream.delivers 0 → exec .rdByte s = .next { s with
        code := .streamReadFailure, diag := { s.diag with readFailure := true }
        stream := s.stream.after 0 1, result := 0xFFFFFFFF#32 })

/-- `40_reader.md` R111. -/
def Obligations.ReadWordEffect : Prop :=
  ∀ s : State, s.fault = false →
    (s.stream.delivers 0 → s.stream.delivers 1 → exec .rdWord s = .next { s with
        code := .success, stream := s.stream.after 2 0
        result := BitVec.ofNat 32 ((s.stream.byteAt 1).toNat * 256 + (s.stream.byteAt 0).toNat) })
      ∧ (s.stream.delivers 0 → ¬s.stream.delivers 1 → exec .rdWord s = .next { s with
        code := .streamReadFailure, diag := { s.diag with readFailure := true }
        stream := s.stream.after 1 1, result := 0xFFFFFFFF#32 })
      ∧ (¬s.stream.delivers 0 → exec .rdWord s = .next { s with
        code := .streamReadFailure, diag := { s.diag with readFailure := true }
        stream := s.stream.after 0 1, result := 0xFFFFFFFF#32 })

/-- `40_reader.md` R112: `k` bytes are delivered, all the requested ones or up to the first EOF. -/
def Obligations.ReadBlockEffect : Prop :=
  ∀ s : State, s.fault = false →
    ((∀ a, s.arg0.toNat ≤ a → a < s.arg0.toNat + s.arg1.toNat → writable s.cfg a = true) →
      ∃ k t, k ≤ s.arg1.toNat ∧ (∀ i, i < k → s.stream.delivers i)
        ∧ (k < s.arg1.toNat → ¬s.stream.delivers k)
        ∧ exec .rdBlock s = .next t
        ∧ t = { s with
            stream := s.stream.after k (if k < s.arg1.toNat then 1 else 0), mem := t.mem, result := BitVec.ofNat 32 k
            code := if k < s.arg1.toNat then .streamReadFailure else .success
            diag := { s.diag with readFailure := s.diag.readFailure || decide (k < s.arg1.toNat) } }
        ∧ ∀ a, t.mem.get a = if s.arg0.toNat ≤ a ∧ a < s.arg0.toNat + k then s.stream.byteAt (a - s.arg0.toNat)
            else s.mem.get a)
      ∧ ((∃ a, s.arg0.toNat ≤ a ∧ a < s.arg0.toNat + s.arg1.toNat ∧ writable s.cfg a = false) →
        exec .rdBlock s = .next { s with code := .badArgument, fault := true })

/-- `40_reader.md` R113. POS is within S (`10_state.md` R43), as every step keeps it. -/
def Obligations.RewindEffect : Prop :=
  ∀ s : State, s.fault = false →
    (s.arg0.toNat ≤ s.stream.pos → s.stream.pos ≤ s.stream.data.length → exec .rewind s = .next { s with
        code := .success, stream := { s.stream with pos := s.stream.pos - s.arg0.toNat }
        result := BitVec.ofNat 32 (s.stream.pos - s.arg0.toNat) })
      ∧ (s.stream.pos < s.arg0.toNat → exec .rewind s = .next { s with code := .badArgument, fault := true })

/-- `40_reader.md` R114. -/
def Obligations.SeekEffect : Prop :=
  ∀ s : State, s.fault = false →
    (s.arg0.toNat ≤ s.stream.data.length → exec .seek s = .next { s with
        code := .success, stream := { s.stream with pos := s.arg0.toNat }, result := s.arg0 })
      ∧ (s.stream.data.length < s.arg0.toNat → exec .seek s = .next { s with
        code := .streamReadFailure, diag := { s.diag with readFailure := true }
        result := BitVec.ofNat 32 s.stream.pos })

/-- `40_reader.md` R115: RESULT is POS, which fits it when S is shorter than 2^32 bytes and POS is within S. -/
def Obligations.TellEffect : Prop :=
  ∀ s : State, s.fault = false →
    exec .tell s = .next { s with code := .success, result := BitVec.ofNat 32 s.stream.pos }
      ∧ (s.stream.data.length < 2 ^ 32 → s.stream.pos ≤ s.stream.data.length →
        (BitVec.ofNat 32 s.stream.pos).toNat = s.stream.pos)

/-- SCAN_CHAIN is ScanChain with POS as its result (`40_reader.md` R117); it ends, moves POS forward inside S, and changes
nothing else. With an ideal stream it succeeds exactly when a whole chain stands at POS, and then POS is just after it, and a
truncated chain leaves POS at the end of S (`30_encoding.md` R89). With any stream, ScanChain is the loop of R116 by what the
stream delivers: no length byte; a length byte 0; a payload delivered whole; a payload cut after `k` bytes. -/
def Obligations.ScanChainEffect : Prop :=
  (∀ s : State, s.fault = false → s.stream.pos ≤ s.stream.data.length →
    ∃ t ok, exec .scanChain s = .next t
      ∧ t = { s with
          stream := { s.stream with pos := t.stream.pos, reads := t.stream.reads }
          result := BitVec.ofNat 32 t.stream.pos
          code := if ok then .success else .streamReadFailure
          diag := { s.diag with readFailure := s.diag.readFailure || !ok } }
      ∧ s.stream.scanChain = (ok, t.stream)
      ∧ s.stream.pos ≤ t.stream.pos ∧ t.stream.pos ≤ s.stream.data.length ∧ s.stream.reads < t.stream.reads
      ∧ (s.stream.failAt = [] →
        (ok = false → t.stream.pos = s.stream.data.length)
          ∧ (ok = true ↔ ∃ blocks tail, s.stream.data.drop s.stream.pos = chainBytes blocks ++ tail
              ∧ ∀ b ∈ blocks, 1 ≤ b.length ∧ b.length ≤ 255)
          ∧ ∀ blocks tail, s.stream.data.drop s.stream.pos = chainBytes blocks ++ tail →
              (∀ b ∈ blocks, 1 ≤ b.length ∧ b.length ≤ 255) →
              t.stream.pos = s.stream.pos + (chainBytes blocks).length))
    ∧ ∀ u : Stream,
      (¬u.delivers 0 → u.scanChain = (false, u.after 0 1))
        ∧ (u.delivers 0 → u.byteAt 0 = 0 → u.scanChain = (true, u.after 1 0))
        ∧ (u.delivers 0 → u.byteAt 0 ≠ 0 → (∀ i, i < (u.byteAt 0).toNat → u.delivers (1 + i)) →
          u.scanChain = (u.after (1 + (u.byteAt 0).toNat) 0).scanChain)
        ∧ ∀ k, u.delivers 0 → k < (u.byteAt 0).toNat → (∀ i, i < k → u.delivers (1 + i)) → ¬u.delivers (1 + k) →
          u.scanChain = (false, u.after (1 + k) 1)

/-- `40_reader.md` R118: the palette is loaded, P565 agrees with it, and nothing else of memory changes. -/
def Obligations.PaletteLoadEffect : Prop :=
  ∀ s : State, s.fault = false →
    ((1 ≤ s.arg0.toNat ∧ s.arg0.toNat ≤ 256) →
      ∃ k t, k ≤ 3 * s.arg0.toNat ∧ (∀ i, i < k → s.stream.delivers i)
        ∧ (k < 3 * s.arg0.toNat → ¬s.stream.delivers k)
        ∧ exec .palLoad s = .next t
        ∧ t = { s with
            stream := s.stream.after k (if k < 3 * s.arg0.toNat then 1 else 0), mem := t.mem
            result := BitVec.ofNat 32 k
            code := if k < 3 * s.arg0.toNat then .streamReadFailure else .success
            diag := { s.diag with readFailure := s.diag.readFailure || decide (k < 3 * s.arg0.toNat) } }
        ∧ (∀ a, a < palBase s.cfg + 768 ∨ memSize s.cfg ≤ a → t.mem.get a =
            if palBase s.cfg ≤ a ∧ a < palBase s.cfg + k then s.stream.byteAt (a - palBase s.cfg) else s.mem.get a)
        ∧ ∀ i, i < 256 → ∀ v, v = pack565 (t.mem.get (palBase s.cfg + 3 * i)) (t.mem.get (palBase s.cfg + 3 * i + 1))
              (t.mem.get (palBase s.cfg + 3 * i + 2)) →
            t.mem.get (palBase s.cfg + 768 + 2 * i) = v.extractLsb' 0 8
              ∧ t.mem.get (palBase s.cfg + 768 + 2 * i + 1) = v.extractLsb' 8 8)
      ∧ ((s.arg0.toNat < 1 ∨ 256 < s.arg0.toNat) →
        exec .palLoad s = .next { s with code := .badArgument, fault := true })

/-- `40_reader.md` R119. The spec marks the bit layout as general knowledge, not its source's. -/
def Obligations.Pack565Formula : Prop :=
  ∀ r g b : Byte, (pack565 r g b).toNat = r.toNat / 8 * 2 ^ 11 + g.toNat / 4 * 2 ^ 5 + b.toNat / 8

/-- `40_reader.md` R120, by what the stream answers to the next two requests. -/
def Obligations.NextDataByteCases : Prop :=
  ∀ (z : Lzw) (t : Stream),
    (z.brem ≠ 0 → t.delivers 0 → nextDataByte z t = (.got (t.byteAt 0), { z with brem := z.brem - 1 }, t.after 1 0))
      ∧ (z.brem ≠ 0 → ¬t.delivers 0 → nextDataByte z t = (.fail, z, t.after 0 1))
      ∧ (z.brem = 0 → ¬t.delivers 0 → nextDataByte z t = (.fail, z, t.after 0 1))
      ∧ (z.brem = 0 → t.delivers 0 → t.byteAt 0 = 0 → nextDataByte z t = (.chain, z, t.after 1 0))
      ∧ (z.brem = 0 → t.delivers 0 → t.byteAt 0 ≠ 0 → t.delivers 1 →
        nextDataByte z t = (.got (t.byteAt 1), { z with brem := (t.byteAt 0).toNat - 1 }, t.after 2 0))
      ∧ (z.brem = 0 → t.delivers 0 → t.byteAt 0 ≠ 0 → ¬t.delivers 1 →
        nextDataByte z t = (.fail, { z with brem := (t.byteAt 0).toNat }, t.after 1 1))

/-! ### The LZW decoder -/

/-- `41_lzw.md` R140, R141, R142. -/
def Obligations.LzwInitEffect : Prop :=
  ∀ (m : Byte) (s : State), s.fault = false →
    (2 ≤ m.toNat ∧ m.toNat ≤ 8 → exec (.lzwInit m) s = .next { s with
        code := .success
        lzw := { s.lzw with
          st := .ready, endReason := .notEnded, m := m.toNat, slot := 2 ^ m.toNat + 2, cursize := m.toNat + 1
          topSlot := 2 ^ (m.toNat + 1), prevValid := false, prevCode := 0, first := 0, acc := 0, nbits := 0, brem := 0
          stack := [] } })
      ∧ (m.toNat < 2 ∨ 8 < m.toNat → exec (.lzwInit m) s = .next { s with
        code := .badArgument, fault := true
        lzw := { s.lzw with
          st := .uninitialized, endReason := .notEnded, m := 0, slot := 0, cursize := 0, topSlot := 0
          prevValid := false, prevCode := 0, first := 0, acc := 0, nbits := 0, brem := 0, stack := [] } })

/-- `41_lzw.md` R146: the code reader's loop, whatever the model's recursion bound. -/
def Obligations.GetCodeLoop : Prop :=
  ∀ (z : Lzw) (t : Stream),
    (z.cursize ≤ z.nbits → getCode z t =
        (.got (z.acc % 2 ^ z.cursize), { z with acc := z.acc / 2 ^ z.cursize, nbits := z.nbits - z.cursize }, t))
      ∧ (z.nbits < z.cursize → getCode z t =
        match nextDataByte z t with
        | (.got b, z1, t1) => getCode { z1 with acc := z1.acc + b.toNat * 2 ^ z1.nbits, nbits := z1.nbits + 8 } t1
        | (.chain, z1, t1) => (.chain, z1, t1)
        | (.fail, z1, t1) => (.fail, z1, t1))

/-- LZW_DECODE is LzwDecode of ARG0, ARG1 and ARG2 (`41_lzw.md` R143), and completes: it produces `k` bytes of the `len` asked
for, and fewer exactly when the decoder ended (R163); it stores only to the addresses of the bytes produced that are below
the end bound (R145, R162 item 8); it changes the LZW fields, the stream, memory, DIAG, CODE, FAULT and RESULT and nothing
else. OUTPUT_CLIPPED is set by a byte produced at or above the end bound (R145), NO_END_CODE by a chain that ends without an
end code (R159), READ_FAILURE by the report (R160). -/
def Obligations.LzwDecodeEffect : Prop :=
  ∀ s : State, s.fault = false → s.lzw.st ≠ .uninitialized →
    (∀ a, s.arg0.toNat ≤ a → a < min s.arg2.toNat (s.arg0.toNat + s.arg1.toNat) → writable s.cfg a = true) →
    ∃ t k d, exec .lzwDecode s = .next t
      ∧ d = lzwDecode s.arg0.toNat s.arg1.toNat s.arg2.toNat { s with code := .success }
      ∧ k = d.count
      ∧ t = { s with
          lzw := d.state.lzw, stream := d.state.stream, mem := d.state.mem, code := t.code, fault := t.fault
          diag := { s.diag with
            outputClipped := s.diag.outputClipped || decide (0 < k ∧ s.arg2.toNat < s.arg0.toNat + k)
            noEndCode := s.diag.noEndCode
              || decide (s.lzw.st ≠ .ended ∧ t.lzw.st = .ended ∧ t.lzw.endReason = .chainEnd)
            readFailure := s.diag.readFailure || decide (t.code = .streamReadFailure) }
          result := BitVec.ofNat 32 k }
      ∧ k ≤ s.arg1.toNat
      ∧ (s.lzw.st ≠ .ended → (k < s.arg1.toNat ↔ t.lzw.st = .ended))
      ∧ (s.lzw.st = .ended → k = 0)
      ∧ (∀ a, ¬(s.arg0.toNat ≤ a ∧ a < min s.arg2.toNat (s.arg0.toNat + k)) → t.mem.get a = s.mem.get a)
      ∧ s.stream.Ahead t.stream
      ∧ ((t.code = .success ∧ t.fault = false
            ∧ (s.lzw.st ≠ .ended → k < s.arg1.toNat → t.lzw.endReason = .endCode ∨ t.lzw.endReason = .chainEnd))
          ∨ (t.code = .streamReadFailure ∧ t.fault = false ∧ t.lzw.endReason = .readFailure)
          ∨ (t.code = .lzwCorruptStream ∧ t.fault = true ∧ t.lzw.endReason = .corrupt))

/-- The causes that end LZW_DECODE before it decodes (`41_lzw.md` R143, `60_exceptions.md` R246). -/
def Obligations.LzwDecodeTurnedAway : Prop :=
  ∀ s : State, s.fault = false →
    (s.lzw.st = .uninitialized → exec .lzwDecode s = .next { s with code := .badSequence, fault := true })
      ∧ (s.lzw.st ≠ .uninitialized →
        (∃ a, s.arg0.toNat ≤ a ∧ a < min s.arg2.toNat (s.arg0.toNat + s.arg1.toNat) ∧ writable s.cfg a = false) →
        exec .lzwDecode s = .next { s with code := .badArgument, fault := true })

/-- `41_lzw.md` R158: in Ended nothing happens, and in a decoder of the invariant the stack is empty there. That it is empty
after an illegal minimum code size too is the model's reading (log 9). -/
def Obligations.LzwDecodeAfterEnd : Prop :=
  ∀ s : State, s.fault = false → s.lzw.st = .ended →
    (s.lzw.Ok s.cfg.lzwMaxBits → s.lzw.stack = [])
      ∧ ((∀ a, s.arg0.toNat ≤ a → a < min s.arg2.toNat (s.arg0.toNat + s.arg1.toNat) → writable s.cfg a = true) →
        exec .lzwDecode s = .next { s with code := .success, result := 0 })

/-- Two calls that continue one another produce and store what one call of the sum of their lengths does, and leave the
same state (`41_lzw.md` R157). -/
def Obligations.LzwDecodeSplits : Prop :=
  ∀ (dst n1 n2 lim : Nat) (s : State) (a b whole : Decoded), a = lzwDecode dst n1 lim s →
    b = lzwDecode (dst + n1) n2 lim a.state → whole = lzwDecode dst (n1 + n2) lim s →
    whole.count = a.count + b.count ∧ whole.state = b.state

/-- The address and the end bound of a call affect only which bytes are stored, never which bytes are produced, what is
read from the stream or what the decoder becomes (`41_lzw.md` R157). -/
def Obligations.LzwBoundsOnlyStore : Prop :=
  ∀ (dst dst' len lim lim' : Nat) (s : State) (a b : Decoded), a = lzwDecode dst len lim s →
    b = lzwDecode dst' len lim' s →
    b.outcome = a.outcome ∧ b.count = a.count ∧ b.state.lzw = a.state.lzw ∧ b.state.stream = a.state.stream
      ∧ ∀ i, i < a.count → dst + i < lim → dst' + i < lim' →
        b.state.mem.get (dst' + i) = a.state.mem.get (dst + i)

/-- `41_lzw.md` R145: bytes that stand on the reversal stack are emitted before any code is read, top first; each is stored
below the end bound and discarded with OUTPUT_CLIPPED at or above it. -/
def Obligations.StackIsEmittedFirst : Prop :=
  ∀ s : State, s.fault = false → s.lzw.st ≠ .uninitialized → s.lzw.st ≠ .ended →
    s.arg1.toNat ≤ s.lzw.stack.length →
    (∀ a, s.arg0.toNat ≤ a → a < min s.arg2.toNat (s.arg0.toNat + s.arg1.toNat) → writable s.cfg a = true) →
    ∃ t, exec .lzwDecode s = .next t
      ∧ t = { s with
          code := .success, result := s.arg1, mem := t.mem
          lzw := { s.lzw with stack := s.lzw.stack.drop s.arg1.toNat }
          diag := { s.diag with
            outputClipped := (s.diag.outputClipped
              || decide (0 < s.arg1.toNat ∧ s.arg2.toNat < s.arg0.toNat + s.arg1.toNat)) } }
      ∧ ∀ a, t.mem.get a =
          if s.arg0.toNat ≤ a ∧ a < min s.arg2.toNat (s.arg0.toNat + s.arg1.toNat)
          then s.lzw.stack.getD (a - s.arg0.toNat) 0 else s.mem.get a

/-- `41_lzw.md` R148, R149: a clear code and an end code. -/
def Obligations.ClearAndEndCodes : Prop :=
  ∀ s : State, (s.lzw.st = .ready ∨ s.lzw.st = .clear ∨ s.lzw.st = .decoding) → s.lzw.stack = [] →
    (2 ^ s.lzw.m < 2 ^ s.lzw.cursize → exec .lzwClear s = .next { s with
        lzw := { s.lzw with
          cursize := s.lzw.m + 1, topSlot := 2 ^ (s.lzw.m + 1), slot := 2 ^ s.lzw.m + 2
          prevValid := false, prevCode := 0, st := .clear } })
      ∧ (2 ^ s.lzw.m + 1 < 2 ^ s.lzw.cursize → exec .lzwEnd s = .next { s with
        lzw := { s.lzw with st := .ended, endReason := .endCode } })

/-- `41_lzw.md` R150, which the spec derives from R154. -/
def Obligations.RootCode : Prop :=
  ∀ (c : Nat) (s : State), (s.lzw.st = .ready ∨ s.lzw.st = .clear ∨ s.lzw.st = .decoding) → s.lzw.stack = [] →
    s.lzw.prevValid = false → c < 2 ^ s.lzw.m → c < 2 ^ s.lzw.cursize →
    exec (.lzwRoot c) s = .next { s with
      lzw := { s.lzw with
        first := BitVec.ofNat 8 c, prevCode := c, prevValid := true, st := .decoding, stack := [BitVec.ofNat 8 c] } }

/-- `41_lzw.md` R151, with the registration of R154 and the widening of R155; a full dictionary stays as it is (R156). The
string of a code is that of R147: a root code's is its byte, and a registered code's is its prefix's string followed by its
suffix, in a decoder that meets the bounds of R162. In a state outside those bounds the walk of a string is the model's
(log 16). -/
def Obligations.KnownCode : Prop :=
  (∀ (c : Nat) (s : State), (s.lzw.st = .ready ∨ s.lzw.st = .clear ∨ s.lzw.st = .decoding) → s.lzw.stack = [] →
    s.lzw.prevValid = true → c < s.lzw.slot → c ≠ 2 ^ s.lzw.m → c ≠ 2 ^ s.lzw.m + 1 → c < 2 ^ s.lzw.cursize →
    ∃ t x tail, exec (.lzwKnown c) s = .next t ∧ stringOf s.lzw c = x :: tail
      ∧ (s.lzw.topSlot ≤ s.lzw.slot → t = { s with
          lzw := { s.lzw with
            first := x, prevCode := c, prevValid := true, st := .decoding, stack := stringOf s.lzw c } })
      ∧ (s.lzw.slot < s.lzw.topSlot → t = { s with
          lzw := { s.lzw with
            slot := s.lzw.slot + 1
            cursize := if s.lzw.slot + 1 = s.lzw.topSlot ∧ s.lzw.cursize < s.cfg.lzwMaxBits then s.lzw.cursize + 1
              else s.lzw.cursize
            topSlot := if s.lzw.slot + 1 = s.lzw.topSlot ∧ s.lzw.cursize < s.cfg.lzwMaxBits then 2 * s.lzw.topSlot
              else s.lzw.topSlot
            prefixTab := t.lzw.prefixTab, suffixTab := t.lzw.suffixTab
            first := x, prevCode := c, prevValid := true, st := .decoding, stack := stringOf s.lzw c } }
        ∧ ∀ k, t.lzw.prefixOf k = (if k = s.lzw.slot then s.lzw.prevCode else s.lzw.prefixOf k)
            ∧ t.lzw.suffixOf k = if k = s.lzw.slot then x else s.lzw.suffixOf k))
    ∧ (∀ (z : Lzw) (c : Nat), c < 2 ^ z.m → stringOf z c = [BitVec.ofNat 8 c])
    ∧ ∀ (maxBits : Nat) (z : Lzw) (c : Nat), z.Ok maxBits → (z.st = .ready ∨ z.st = .clear ∨ z.st = .decoding) →
      2 ^ z.m + 2 ≤ c → c < z.slot → stringOf z c = stringOf z (z.prefixOf c) ++ [z.suffixOf c]

/-- `41_lzw.md` R152, in a decoder that meets the bounds of R162 (which every step keeps): the string is the previous
code's followed by its own first byte, the entry at SLOT is registered, and it is the string of the code afterwards. The
spec marks that registration as general knowledge, not its source's. -/
def Obligations.KwkwkCode : Prop :=
  ∀ s : State, 10 ≤ s.cfg.lzwMaxBits ∧ s.cfg.lzwMaxBits ≤ 12 → s.lzw.Ok s.cfg.lzwMaxBits →
    (s.lzw.st = .ready ∨ s.lzw.st = .clear ∨ s.lzw.st = .decoding) → s.lzw.stack = [] →
    s.lzw.prevValid = true → s.lzw.slot < 2 ^ s.lzw.cursize →
    ∃ t, exec .lzwKwkwk s = .next t
      ∧ t = { s with
          lzw := { s.lzw with
            slot := s.lzw.slot + 1
            cursize := if s.lzw.slot + 1 = s.lzw.topSlot ∧ s.lzw.cursize < s.cfg.lzwMaxBits then s.lzw.cursize + 1
              else s.lzw.cursize
            topSlot := if s.lzw.slot + 1 = s.lzw.topSlot ∧ s.lzw.cursize < s.cfg.lzwMaxBits then 2 * s.lzw.topSlot
              else s.lzw.topSlot
            prefixTab := t.lzw.prefixTab, suffixTab := t.lzw.suffixTab
            prevCode := s.lzw.slot, st := .decoding
            stack := stringOf s.lzw s.lzw.prevCode ++ [s.lzw.first] } }
      ∧ (∀ k, t.lzw.prefixOf k = (if k = s.lzw.slot then s.lzw.prevCode else s.lzw.prefixOf k)
          ∧ t.lzw.suffixOf k = if k = s.lzw.slot then s.lzw.first else s.lzw.suffixOf k)
      ∧ stringOf t.lzw s.lzw.slot = stringOf s.lzw s.lzw.prevCode ++ [s.lzw.first]

/-- `41_lzw.md` R153. -/
def Obligations.InvalidCode : Prop :=
  ∀ (c : Nat) (s : State), (s.lzw.st = .ready ∨ s.lzw.st = .clear ∨ s.lzw.st = .decoding) → s.lzw.stack = [] →
    ((s.lzw.prevValid = false ∧ 2 ^ s.lzw.m + 2 ≤ c)
      ∨ (s.lzw.prevValid = true ∧ s.lzw.slot < c ∧ c ≠ 2 ^ s.lzw.m ∧ c ≠ 2 ^ s.lzw.m + 1)) →
    c < 2 ^ s.lzw.cursize →
    exec (.lzwInvalid c) s = .next { s with
      code := .lzwCorruptStream, fault := true, lzw := { s.lzw with st := .ended, endReason := .corrupt } }

/-- A code class is refused exactly where the decoder reads no code or its state gives no code that class. The refusal is
the model's choice for an instruction that stands nowhere on its own (log 10). -/
def Obligations.CodeOutsideDecoder : Prop :=
  ∀ (i : Instr) (s : State), i.isCommand = false →
    (exec i s = .refused .codeNotRead ↔
      ¬((s.lzw.st = .ready ∨ s.lzw.st = .clear ∨ s.lzw.st = .decoding) ∧ s.lzw.stack = []
        ∧ i.selected s.lzw.codeCtx = true))

/-! ### The compositor -/

/-- `42_compositor.md` R180, R181, with the fields of `30_encoding.md` R85. -/
def Obligations.DescriptorCommands : Prop :=
  ∀ s : State, s.fault = false →
    exec .setScreen s = .next { s with code := .success, bg := s.arg0.extractLsb' 0 8 }
      ∧ exec .setFrame s = .next { s with
        code := .success
        frame := { x := s.arg0.extractLsb' 0 16, y := s.arg0.extractLsb' 16 16
                   w := s.arg1.extractLsb' 0 16, h := s.arg1.extractLsb' 16 16 }
        interlace := s.arg2.getLsbD 0 }

/-- `42_compositor.md` R182, R183. -/
def Obligations.GraphicControl : Prop :=
  ∀ s : State, s.fault = false →
    ∃ d, exec .setGce s = .next { s with
        code := .success, delay := s.arg1.extractLsb' 0 16
        gce := { tValid := s.arg0.getLsbD 0, disp := d, tIndex := s.arg0.extractLsb' 16 8 }
        diag := { s.diag with
          invalidDisposal := (s.diag.invalidDisposal || decide (3 < (s.arg0.extractLsb' 8 3).toNat)) } }
      ∧ d.toNat = if (s.arg0.extractLsb' 8 3).toNat ≤ 3 then (s.arg0.extractLsb' 8 3).toNat else 0

/-- `42_compositor.md` R184. -/
def Obligations.CycleStartEffect : Prop :=
  ∀ s : State, s.fault = false →
    exec .cycleStart s = .next { s with
      code := .success
      totalFrames := if 1 ≤ s.cycleNo.toNat ∧ s.totalFrames = 0 then s.frameNo else s.totalFrames
      cycleNo := BitVec.ofNat 32 ((s.cycleNo.toNat + 1) % 2 ^ 32)
      frameNo := 0, key := true, prevDisp := .none
      gce := { s.gce with tValid := false, disp := .none } }

/-- The ways DECODE_FRAME ends before a row is decoded (`42_compositor.md` R186, R187, R189, `00_scope.md` R9). After a bad
minimum code size POS is where the chain starts, and the requests of the chain scan (R188) have been counted; that the other
LZW fields stay and the stack is emptied there is the model's reading of R189 and `41_lzw.md` R158 (log 9). -/
def Obligations.DecodeFrameEarlyEnds : Prop :=
  ∀ s : State, s.fault = false →
    (s.cfg.hasFramebuffer = false → exec .decodeFrame s = .refused .noFramebuffer)
      ∧ (s.cfg.hasFramebuffer = true → s.cycleNo = 0 →
        exec .decodeFrame s = .next { s with code := .badSequence, fault := true })
      ∧ (s.cfg.hasFramebuffer = true → s.cycleNo ≠ 0 → ¬s.stream.delivers 0 →
        exec .decodeFrame s = .next { s with
          code := .streamReadFailure, diag := { s.diag with readFailure := true }, result := 0
          stream := s.stream.after 0 1 })
      ∧ (s.cfg.hasFramebuffer = true → s.cycleNo ≠ 0 → s.stream.delivers 0 →
        (s.stream.byteAt 0).toNat < 2 ∨ 8 < (s.stream.byteAt 0).toNat →
        exec .decodeFrame s = .next { s with
          code := .lzwCorruptStream, fault := true, result := 0
          lzw := { s.lzw with st := .ended, endReason := .corrupt, stack := [] }
          stream := { s.stream with
            pos := s.stream.pos + 1, reads := (s.stream.after 1 0).scanChain.2.reads } })

/-- DECODE_FRAME with a legal minimum code size completes or is aborted by a corrupt code, and what each of the two leaves
in every register (`42_compositor.md` R186, R191, R195, R199 to R203, R207 to R210, R213); memory is in
Obligations.DecodeFrameMemory and Obligations.DecodeFramePixels. `d` is one decode of HEIGHT * WIDTH bytes from LzwInit and
the chain's start, which the rows make up; its corruption is the frame's abort. OUTPUT_CLIPPED is set by a byte produced for
a pixel outside the canvas (`41_lzw.md` R145, R198). A completed frame reports exactly when the chain scan or a row's read
failed. -/
def Obligations.DecodeFrameEffect : Prop :=
  ∀ s : State, s.fault = false → s.cfg.hasFramebuffer = true → s.cycleNo ≠ 0 → s.stream.delivers 0 →
    2 ≤ (s.stream.byteAt 0).toNat → (s.stream.byteAt 0).toNat ≤ 8 →
    ∃ t d clear, exec .decodeFrame s = .next t
      ∧ d = lzwDecode 0 (s.frame.h.toNat * s.frame.w.toNat) (s.frame.h.toNat * s.frame.w.toNat) { s with
          lzw := lzwInit (s.stream.byteAt 0).toNat s.lzw
          stream := { s.stream with pos := s.stream.pos + 1, reads := (s.stream.after 1 0).scanChain.2.reads } }
      ∧ clear = (if s.key = false ∧ (s.prevDisp = .background ∨ s.prevDisp = .previous) then [Event.clearScreen] else [])
      ∧ d.count ≤ s.frame.h.toNat * s.frame.w.toNat
      ∧ (t.diag.outputClipped = true ↔ s.diag.outputClipped = true
          ∨ ∃ j row dx, (rowOrder s.frame.h.toNat s.interlace)[j]? = some row ∧ dx < s.frame.w.toNat
            ∧ j * s.frame.w.toNat + dx < d.count
            ∧ (s.cfg.maxW ≤ s.frame.x.toNat + dx ∨ s.cfg.maxH ≤ s.frame.y.toNat + row))
      ∧ (d.outcome = .corrupt →
          t = { s with
            stream := d.state.stream, lzw := d.state.lzw, mem := t.mem, ev := s.ev ++ clear
            dirty := clip s.cfg s.frame, prevDisp := s.gce.disp
            prevFill := if s.gce.tValid then s.gce.tIndex else s.bg
            code := .lzwCorruptStream, fault := true
            diag := { s.diag with outputClipped := t.diag.outputClipped }
            result := BitVec.ofNat 32 d.count }
          ∧ t.lzw.st = .ended ∧ t.lzw.endReason = .corrupt)
      ∧ (d.outcome ≠ .corrupt →
          t = { s with
            stream := { d.state.stream with pos := (s.stream.after 1 0).scanChain.2.pos }
            lzw := d.state.lzw, mem := t.mem
            ev := s.ev ++ clear ++ (if s.cfg.hasStartHook then [Event.startDrawing] else [])
              ++ rectEvents { t with gce := s.gce } (clip s.cfg s.frame) ++ [Event.presentFrame]
            dirty := clip s.cfg s.frame, prevDisp := s.gce.disp
            prevFill := if s.gce.tValid then s.gce.tIndex else s.bg
            gce := { s.gce with tValid := false, disp := .none }, frameNo := s.frameNo + 1, key := false
            code := if (s.stream.after 1 0).scanChain.1 = false
                ∨ (t.lzw.st = .ended ∧ t.lzw.endReason = .readFailure) then .streamReadFailure else .success
            diag := { s.diag with
              outputClipped := t.diag.outputClipped
              noEndCode := s.diag.noEndCode || decide (t.lzw.st = .ended ∧ t.lzw.endReason = .chainEnd)
              readFailure := s.diag.readFailure || decide (t.code = .streamReadFailure) }
            result := BitVec.ofNat 32 d.count })

/-- What DECODE_FRAME does to local memory, from a state of the machine's invariant: outside the frame's clipped rectangle
FB holds the keyed or disposed content (`42_compositor.md` R190, R192, R193, R194); BK takes the content of that rectangle
before the rows are decoded, when the frame's own method is restore-to-previous and a backup exists (R196), and else stays;
PAL and P565 stay. -/
def Obligations.DecodeFrameMemory : Prop :=
  ∀ s : State, Inv s → s.fault = false → s.cfg.hasFramebuffer = true → s.cycleNo ≠ 0 → s.stream.delivers 0 →
    2 ≤ (s.stream.byteAt 0).toNat → (s.stream.byteAt 0).toNat ≤ 8 →
    ∃ t, exec .decodeFrame s = .next t
      ∧ (∀ a, a < fbn s.cfg → a ∉ (clip s.cfg s.frame).addrs s.cfg → t.mem.get a = disposedByte s a)
      ∧ ∀ a, fbn s.cfg ≤ a → t.mem.get a =
          if s.gce.disp = .previous ∧ s.cfg.hasBackup = true ∧ a - fbn s.cfg ∈ (clip s.cfg s.frame).addrs s.cfg
          then disposedByte s (a - fbn s.cfg) else s.mem.get a

/-- The pixels that DECODE_FRAME leaves in the frame's rectangle: the bytes that one decode of the frame's HEIGHT * WIDTH
bytes produces, laid out row after row in the row order; a pixel whose byte the stream does not give keeps the keyed or
disposed content (`42_compositor.md` R197 to R199, R210). `d` is that one decode, whose output stands at the addresses from
0 of its own state; it starts from LzwInit with the stream after the chain scan, back at the chain's start (R188, R189). -/
def Obligations.DecodeFramePixels : Prop :=
  ∀ s : State, Inv s → s.fault = false → s.cfg.hasFramebuffer = true → s.cycleNo ≠ 0 → s.stream.delivers 0 →
    2 ≤ (s.stream.byteAt 0).toNat → (s.stream.byteAt 0).toNat ≤ 8 →
    ∃ t d, exec .decodeFrame s = .next t
      ∧ d = lzwDecode 0 (s.frame.h.toNat * s.frame.w.toNat) (s.frame.h.toNat * s.frame.w.toNat) { s with
          lzw := lzwInit (s.stream.byteAt 0).toNat s.lzw
          stream := { s.stream with pos := s.stream.pos + 1, reads := (s.stream.after 1 0).scanChain.2.reads } }
      ∧ t.result = BitVec.ofNat 32 d.count ∧ t.lzw = d.state.lzw ∧ (t.fault = true ↔ d.outcome = .corrupt)
      ∧ ∀ j row dx, (rowOrder s.frame.h.toNat s.interlace)[j]? = some row → dx < s.frame.w.toNat →
          s.frame.x.toNat + dx < s.cfg.maxW → s.frame.y.toNat + row < s.cfg.maxH →
          t.mem.get ((s.frame.y.toNat + row) * s.cfg.maxW + (s.frame.x.toNat + dx)) =
            if j * s.frame.w.toNat + dx < d.count then d.state.mem.get (j * s.frame.w.toNat + dx)
            else disposedByte s ((s.frame.y.toNat + row) * s.cfg.maxW + (s.frame.x.toNat + dx))

/-- The rows of a frame, in whatever order, read the stream and leave the decoder as one call for as many bytes does
(`42_compositor.md` R197 to R200, `41_lzw.md` R157): their total is its count, they are corrupt when it is, and they record a
read failure when the scan did (`rf`) or the call has one. -/
def Obligations.RowsAreOneDecode : Prop :=
  ∀ (rs : List Nat) (rf : Bool) (s : State) (r : Rows) (d : Decoded), r = decodeRows rs 0 rf s →
    d = lzwDecode 0 (rs.length * s.frame.w.toNat) 0 s →
    r.total = d.count ∧ r.state.lzw = d.state.lzw ∧ r.state.stream = d.state.stream
      ∧ (r.outcome = .corrupt ↔ d.outcome = .corrupt) ∧ (r.rf = true ↔ rf = true ∨ d.outcome = .fail)

/-- `42_compositor.md` R197: every row once, by pass and within a pass top to bottom; no interlace, top to bottom. The spec
derives the once-each and the pass of a row from the loop it states. -/
def Obligations.RowOrderPasses : Prop :=
  (∀ (h : Nat) (i : Bool), (rowOrder h i).Perm (List.range h))
    ∧ (∀ h : Nat, rowOrder h false = List.range h)
    ∧ ∀ h : Nat, (rowOrder h true).Pairwise fun a b =>
        ∀ pass : Nat → Nat,
          (∀ r, pass r = if r % 8 = 0 then 1 else if r % 8 = 4 then 2 else if r % 4 = 2 then 3 else 4) →
          pass a < pass b ∨ (pass a = pass b ∧ a < b)

/-- `42_compositor.md` R203 to R206: the events of the emitted rectangle, row by row. -/
def Obligations.EmittedEvents : Prop :=
  ∀ (s : State) (r : Rect),
    (s.cfg.emitMode = .pixel → rectEvents s r =
        (List.range r.h.toNat).flatMap fun dy => (List.range r.w.toNat).flatMap fun dx =>
          let p := s.mem.get ((r.y.toNat + dy) * s.cfg.maxW + (r.x.toNat + dx))
          if s.gce.tValid = true ∧ p = s.gce.tIndex then []
          else [Event.pixel (BitVec.ofNat 16 (r.x.toNat + dx)) (BitVec.ofNat 16 (r.y.toNat + dy))
            (s.mem.get (palBase s.cfg + 3 * p.toNat)) (s.mem.get (palBase s.cfg + 3 * p.toNat + 1))
            (s.mem.get (palBase s.cfg + 3 * p.toNat + 2))])
      ∧ (s.cfg.emitMode = .line → (rectEvents s r).length = r.h.toNat
        ∧ ∀ dy, dy < r.h.toNat → ∃ idx pal, (rectEvents s r)[dy]? = some
            (Event.line r.x (BitVec.ofNat 16 (r.y.toNat + dy)) idx r.w pal
              (if s.gce.tValid then some s.gce.tIndex else none))
          ∧ idx.length = r.w.toNat
          ∧ (∀ dx, dx < r.w.toNat → idx[dx]? = some (s.mem.get ((r.y.toNat + dy) * s.cfg.maxW + (r.x.toNat + dx))))
          ∧ pal.length = 256
          ∧ ∀ i, i < 256 → pal[i]? = some (s.mem.get (palBase s.cfg + 768 + 2 * i + 1)
              ++ s.mem.get (palBase s.cfg + 768 + 2 * i)))

end
end

