-- ==== Sys2Proof/Laws/Stream.lean ====
section
/-! SUPPORT. Laws of the stream collaborator: what a read, a block read and a chain scan can do. -/

namespace Sys2Proof.Machine.Stream

open Sys2Proof.Machine

theorem Ahead.refl (t : Stream) : Ahead t t := ⟨rfl, rfl, le_refl _, le_refl _, id⟩

theorem Ahead.slen {t u : Stream} (h : Ahead t u) : u.slen = t.slen := by simp [Stream.slen, h.data]

theorem Ahead.trans {t u v : Stream} (h : Ahead t u) (k : Ahead u v) : Ahead t v :=
  ⟨k.data.trans h.data, k.failAt.trans h.failAt, h.pos.trans k.pos, h.reads.trans k.reads,
    fun hp => by have := k.bound (by rw [h.slen]; exact h.bound hp); rwa [h.slen] at this⟩

/-- Everything one byte-read request can do (`20_memory.md` R63). -/
theorem readByte_cases (t : Stream) :
    (∃ b, t.data[t.pos]? = some b ∧ t.failing = false
        ∧ t.readByte = (some b, { t with pos := t.pos + 1, reads := t.reads + 1 }))
      ∨ ((t.slen ≤ t.pos ∨ t.failing = true) ∧ t.readByte = (none, { t with reads := t.reads + 1 })) := by
  unfold readByte
  cases h : t.data[t.pos]? with
  | none => exact .inr ⟨.inl (List.getElem?_eq_none_iff.1 h), rfl⟩
  | some b =>
    cases hf : t.failing
    · exact .inl ⟨b, rfl, rfl, rfl⟩
    · exact .inr ⟨.inr rfl, rfl⟩

theorem readByte_ahead (t : Stream) : Ahead t t.readByte.2 := by
  rcases readByte_cases t with ⟨b, hb, -, h⟩ | ⟨-, h⟩
  · have : t.pos < t.data.length := (List.getElem?_eq_some_iff.1 hb).1
    rw [h]
    exact ⟨rfl, rfl, Nat.le_succ _, Nat.le_succ _, fun _ => this⟩
  · rw [h]
    exact ⟨rfl, rfl, le_refl _, Nat.le_succ _, id⟩

theorem readByte_left {t t' : Stream} {b : Byte} (h : t.readByte = (some b, t')) : t'.left + 1 = t.left := by
  rcases readByte_cases t with ⟨b', hb, -, h'⟩ | ⟨-, h'⟩
  · have : t.pos < t.data.length := (List.getElem?_eq_some_iff.1 hb).1
    rw [h'] at h
    obtain ⟨-, rfl⟩ := Prod.mk.inj h
    simp only [left]
    omega
  · rw [h'] at h
    cases h

/-- A read that succeeds gives the byte at POS. -/
theorem readByte_some {t t' : Stream} {b : Byte} (h : t.readByte = (some b, t')) :
    t.data[t.pos]? = some b ∧ t.failing = false ∧ t' = { t with pos := t.pos + 1, reads := t.reads + 1 } := by
  rcases readByte_cases t with ⟨b', hb, hf, h'⟩ | ⟨-, h'⟩
  · rw [h'] at h
    obtain ⟨hbb, rfl⟩ := Prod.mk.inj h
    cases hbb
    exact ⟨hb, hf, rfl⟩
  · rw [h'] at h
    cases h

theorem readByte_none {t t' : Stream} (h : t.readByte = (none, t')) :
    (t.slen ≤ t.pos ∨ t.failing = true) ∧ t' = { t with reads := t.reads + 1 } := by
  rcases readByte_cases t with ⟨b', hb, hf, h'⟩ | ⟨hn, h'⟩
  · rw [h'] at h
    cases h
  · rw [h'] at h
    exact ⟨hn, (Prod.mk.inj h).2.symm⟩

theorem readBlock_succ (n : Nat) (t : Stream) :
    readBlock (n + 1) t = match t.readByte with
      | (none, t') => ([], t')
      | (some b, t') => (b :: (readBlock n t').1, (readBlock n t').2) := rfl

/-- Everything a block read can do (`20_memory.md` R63): it returns at most `n` bytes, they are the bytes of S at POS, POS
moves by their number, and it is short only at the end of S or at a failing request. -/
theorem readBlock_spec (n : Nat) (t : Stream) :
    (readBlock n t).1.length ≤ n
      ∧ (∀ i, i < (readBlock n t).1.length → (readBlock n t).1[i]? = t.data[t.pos + i]?)
      ∧ (readBlock n t).2.data = t.data
      ∧ (readBlock n t).2.failAt = t.failAt
      ∧ (readBlock n t).2.pos = t.pos + (readBlock n t).1.length
      ∧ (readBlock n t).2.reads
          = t.reads + (readBlock n t).1.length + (if (readBlock n t).1.length < n then 1 else 0)
      ∧ (t.pos ≤ t.slen → t.pos + (readBlock n t).1.length ≤ t.slen)
      ∧ ((readBlock n t).1.length < n →
          t.slen ≤ t.pos + (readBlock n t).1.length ∨ t.reads + (readBlock n t).1.length ∈ t.failAt) := by
  induction n generalizing t with
  | zero => simp [readBlock]
  | succ n ih =>
    rw [readBlock_succ]
    rcases readByte_cases t with ⟨b, hb, hf, h⟩ | ⟨hn, h⟩
    · have hlt : t.pos < t.data.length := (List.getElem?_eq_some_iff.1 hb).1
      rw [h]
      obtain ⟨h1, h2, h3, h4, h5, h6, h7, h8⟩ := ih { t with pos := t.pos + 1, reads := t.reads + 1 }
      simp only [List.length_cons]
      refine ⟨by omega, ?_, h3, h4, by rw [h5]; simp only []; omega, ?_, ?_, ?_⟩
      · intro i hi
        cases i with
        | zero => simpa using hb.symm
        | succ i =>
          have := h2 i (by omega)
          simp only [List.getElem?_cons_succ, this]
          congr 1
          omega
      · rw [h6]
        simp only [Nat.add_lt_add_iff_right]
        omega
      · intro _
        have := h7 (by simp [slen]; omega)
        simp only [slen] at this ⊢
        omega
      · intro hs
        have := h8 (by omega)
        simp only [slen] at this ⊢
        rcases this with h | h
        · left; omega
        · right
          have e : t.reads + 1 + (readBlock n { t with pos := t.pos + 1, reads := t.reads + 1 }).1.length
              = t.reads + ((readBlock n { t with pos := t.pos + 1, reads := t.reads + 1 }).1.length + 1) := by omega
          rwa [e] at h
    · rw [h]
      simp only [List.length_nil]
      refine ⟨by omega, by simp, by simp, by simp, by simp, by simp, by simp, fun _ => ?_⟩
      simpa [failing, slen] using hn

theorem readBlock_ahead (n : Nat) (t : Stream) : Ahead t (readBlock n t).2 := by
  obtain ⟨_, _, h3, h4, h5, h6, h7, _⟩ := readBlock_spec n t
  exact ⟨h3, h4, by omega, by omega, fun h => by rw [h5]; exact h7 h⟩

theorem readBlock_left (n : Nat) (t : Stream) : (readBlock n t).2.left = t.left - (readBlock n t).1.length := by
  obtain ⟨_, _, h3, _, h5, _, _, _⟩ := readBlock_spec n t
  simp only [left, h3, h5]
  omega

/-- With an ideal stream a block read is short only at the end of S (`00_scope.md` R13). -/
theorem readBlock_ideal (n : Nat) (t : Stream) (h : t.failAt = []) : (readBlock n t).1.length = min n t.left := by
  obtain ⟨h1, _, _, _, _, _, h7, h8⟩ := readBlock_spec n t
  rw [h] at h8
  simp only [List.not_mem_nil, or_false, slen] at h8
  simp only [left]
  simp only [slen] at h7
  by_cases hlt : (readBlock n t).1.length < n
  · have := h8 hlt
    by_cases hp : t.pos ≤ t.data.length
    · have := h7 hp
      omega
    · have h9 : (readBlock n t).1.length = 0 := by
        cases n with
        | zero => omega
        | succ n =>
          rw [readBlock_succ]
          rcases readByte_cases t with ⟨b, hb, _, _⟩ | ⟨_, hr⟩
          · have := (List.getElem?_eq_some_iff.1 hb).1
            omega
          · rw [hr]
            rfl
      omega
  · by_cases hp : t.pos ≤ t.data.length
    · have := h7 hp
      omega
    · cases n with
      | zero => omega
      | succ n =>
        exfalso
        apply hlt
        rw [readBlock_succ]
        rcases readByte_cases t with ⟨b, hb, _, _⟩ | ⟨_, hr⟩
        · have := (List.getElem?_eq_some_iff.1 hb).1
          omega
        · rw [hr]
          simp

theorem seek_ok {t : Stream} {p : Nat} (h : p ≤ t.slen) : t.seek p = (true, { t with pos := p }) := by
  simp [seek, h]

theorem seek_fail {t : Stream} {p : Nat} (h : ¬p ≤ t.slen) : t.seek p = (false, t) := by
  simp [seek, h]

@[simp] theorem seek_data (t : Stream) (p : Nat) : (t.seek p).2.data = t.data := by
  unfold seek; split <;> rfl

@[simp] theorem seek_failAt (t : Stream) (p : Nat) : (t.seek p).2.failAt = t.failAt := by
  unfold seek; split <;> rfl

@[simp] theorem seek_reads (t : Stream) (p : Nat) : (t.seek p).2.reads = t.reads := by
  unfold seek; split <;> rfl

theorem seek_bound (t : Stream) (p : Nat) (h : t.pos ≤ t.slen) : (t.seek p).2.pos ≤ t.slen := by
  unfold seek
  split
  · assumption
  · exact h

theorem scanLoop_ahead (n : Nat) (t : Stream) : Ahead t (scanLoop n t).2 := by
  induction n generalizing t with
  | zero =>
    unfold scanLoop
    have h1 := readByte_ahead t
    rcases hr : t.readByte with ⟨o, t1⟩
    rw [hr] at h1
    cases o with
    | none => exact h1
    | some l =>
      dsimp only
      split
      · exact h1
      · split <;> exact h1.trans (readBlock_ahead _ _)
  | succ n ih =>
    unfold scanLoop
    have h1 := readByte_ahead t
    rcases hr : t.readByte with ⟨o, t1⟩
    rw [hr] at h1
    cases o with
    | none => exact h1
    | some l =>
      dsimp only
      split
      · exact h1
      · split
        · exact h1.trans (readBlock_ahead _ _)
        · exact (h1.trans (readBlock_ahead _ _)).trans (ih _)

theorem scanChain_ahead (t : Stream) : Ahead t t.scanChain.2 := scanLoop_ahead _ _

/-- Any bound of at least the bytes left gives the same scan. -/
theorem scanLoop_enough (n k : Nat) (t : Stream) (hn : t.left ≤ n) (hk : t.left ≤ k) : scanLoop n t = scanLoop k t := by
  induction n generalizing t k with
  | zero =>
    have hl : t.left = 0 := by omega
    rcases hr : t.readByte with ⟨o, t1⟩
    cases o with
    | none => unfold scanLoop; rw [hr]
    | some l =>
      have := readByte_left hr
      omega
  | succ n ih =>
    rcases hr : t.readByte with ⟨o, t1⟩
    unfold scanLoop
    rw [hr]
    cases o with
    | none => rfl
    | some l =>
      have h1 := readByte_left hr
      have h2 := readBlock_left l.toNat t1
      cases k with
      | zero => omega
      | succ k =>
        dsimp only
        rw [ih k (readBlock l.toNat t1).2 (by omega) (by omega)]

/-- ScanChain as `40_reader.md` R116 writes it, with no bound. -/
theorem scanChain_eq (t : Stream) :
    t.scanChain = match t.readByte with
      | (none, t1) => (false, t1)
      | (some l, t1) =>
        if l = 0 then (true, t1)
        else if (readBlock l.toNat t1).1.length < l.toNat then (false, (readBlock l.toNat t1).2)
        else (readBlock l.toNat t1).2.scanChain := by
  rcases hr : t.readByte with ⟨o, t1⟩
  cases o with
  | none =>
    show scanLoop t.left t = _
    unfold scanLoop
    rw [hr]
  | some l =>
    have h1 := readByte_left hr
    have h2 := readBlock_left l.toNat t1
    obtain ⟨n, hn⟩ : ∃ n, t.left = n + 1 := ⟨t1.left, by omega⟩
    show scanLoop t.left t = _
    rw [hn]
    unfold scanLoop
    rw [hr]
    dsimp only
    rw [scanLoop_enough n (readBlock l.toNat t1).2.left (readBlock l.toNat t1).2 (by omega) (le_refl _)]
    rfl

end Sys2Proof.Machine.Stream
end

