-- ==== Sys2Proof/Laws/CodeReader.lean ====
section
/-! SUPPORT. Laws of the sub-block-aware byte source and of the code reader (`40_reader.md` R120, `41_lzw.md` R146). -/

namespace Sys2Proof.Machine

/-- `z'` is `z` after code-reader work: only ACC, NBITS and BREM have changed, BREM still fits its field and ACC still has
no bit at or above NBITS (`41_lzw.md` R162 items 6 and 7). -/
structure Lzw.ReadOn (z z' : Lzw) : Prop where
  frame : z' = { z with acc := z'.acc, nbits := z'.nbits, brem := z'.brem }
  brem  : z.brem < 256 → z'.brem < 256
  acc   : z.acc < 2 ^ z.nbits → z'.acc < 2 ^ z'.nbits

namespace Lzw.ReadOn

theorem refl (z : Lzw) : ReadOn z z := ⟨rfl, id, id⟩

theorem trans {z u v : Lzw} (h : ReadOn z u) (k : ReadOn u v) : ReadOn z v :=
  ⟨by rw [k.frame, h.frame], fun hb => k.brem (h.brem hb), fun ha => k.acc (h.acc ha)⟩

variable {z z' : Lzw} (h : ReadOn z z')
include h

theorem st : z'.st = z.st := by rw [h.frame]
theorem endReason : z'.endReason = z.endReason := by rw [h.frame]
theorem m : z'.m = z.m := by rw [h.frame]
theorem cursize : z'.cursize = z.cursize := by rw [h.frame]
theorem topSlot : z'.topSlot = z.topSlot := by rw [h.frame]
theorem slot : z'.slot = z.slot := by rw [h.frame]
theorem prevValid : z'.prevValid = z.prevValid := by rw [h.frame]
theorem prevCode : z'.prevCode = z.prevCode := by rw [h.frame]
theorem first : z'.first = z.first := by rw [h.frame]
theorem stack : z'.stack = z.stack := by rw [h.frame]
theorem prefixTab : z'.prefixTab = z.prefixTab := by rw [h.frame]
theorem suffixTab : z'.suffixTab = z.suffixTab := by rw [h.frame]

end Lzw.ReadOn

theorem payloadByte_spec (z : Lzw) (t : Stream) :
    z.ReadOn (payloadByte z t).2.1 ∧ t.Ahead (payloadByte z t).2.2
      ∧ (payloadByte z t).2.1.nbits = z.nbits ∧ (payloadByte z t).2.1.acc = z.acc
      ∧ (∀ b, (payloadByte z t).1 = .got b → (payloadByte z t).2.2.left + 1 = t.left) := by
  have ha := Stream.readByte_ahead t
  rcases hr : t.readByte with ⟨o, t1⟩
  rw [hr] at ha
  cases o with
  | none => simp only [payloadByte, hr]; exact ⟨.refl z, ha, trivial, trivial, by simp⟩
  | some b =>
    simp only [payloadByte, hr]
    exact ⟨⟨rfl, fun h => by show z.brem - 1 < 256; omega, id⟩, ha, trivial, trivial, fun _ _ => Stream.readByte_left hr⟩

/-- Everything NextDataByte can do. -/
theorem nextDataByte_spec (z : Lzw) (t : Stream) :
    z.ReadOn (nextDataByte z t).2.1 ∧ t.Ahead (nextDataByte z t).2.2
      ∧ (nextDataByte z t).2.1.nbits = z.nbits ∧ (nextDataByte z t).2.1.acc = z.acc
      ∧ (∀ b, (nextDataByte z t).1 = .got b → (nextDataByte z t).2.2.left + 1 ≤ t.left) := by
  unfold nextDataByte
  split
  · have ha := Stream.readByte_ahead t
    rcases hr : t.readByte with ⟨o, t1⟩
    rw [hr] at ha
    cases o with
    | none => exact ⟨.refl z, ha, rfl, rfl, by simp⟩
    | some l =>
      have hl := Stream.readByte_left hr
      dsimp only
      split
      · exact ⟨.refl z, ha, rfl, rfl, by simp⟩
      · obtain ⟨p1, p2, p3, p4, p5⟩ := payloadByte_spec { z with brem := l.toNat } t1
        have hz : z.ReadOn { z with brem := l.toNat } := ⟨rfl, fun _ => l.isLt, id⟩
        exact ⟨hz.trans p1, ha.trans p2, p3, p4, fun b hb => by have := p5 b hb; omega⟩
  · obtain ⟨p1, p2, p3, p4, p5⟩ := payloadByte_spec z t
    exact ⟨p1, p2, p3, p4, fun b hb => (p5 b hb).le⟩

theorem pushBits_readOn (b : Byte) (z : Lzw) : z.ReadOn (pushBits b z) := by
  refine ⟨rfl, id, fun h => ?_⟩
  have hb : b.toNat < 256 := b.isLt
  have : (b.toNat + 1) * 2 ^ z.nbits ≤ 256 * 2 ^ z.nbits := Nat.mul_le_mul_right _ (by omega)
  show z.acc + b.toNat * 2 ^ z.nbits < 2 ^ (z.nbits + 8)
  rw [Nat.pow_add]
  have e : (b.toNat + 1) * 2 ^ z.nbits = b.toNat * 2 ^ z.nbits + 2 ^ z.nbits := by ring
  omega

/-- Everything the filling loop can do, given passes enough. -/
theorem fillAcc_spec (n : Nat) (z : Lzw) (t : Stream) (hn : z.cursize - z.nbits ≤ n) :
    z.ReadOn (fillAcc n z t).2.1 ∧ t.Ahead (fillAcc n z t).2.2
      ∧ bitsLeft (fillAcc n z t).2.1 (fillAcc n z t).2.2 ≤ bitsLeft z t
      ∧ (fillAcc n z t).2.1.nbits < max (z.nbits + 1) (z.cursize + 8)
      ∧ ((∃ u, (fillAcc n z t).1 = .got u) → z.cursize ≤ (fillAcc n z t).2.1.nbits)
      ∧ ((fillAcc n z t).1 = .chain ∨ (fillAcc n z t).1 = .fail → (fillAcc n z t).2.1.nbits < z.cursize) := by
  induction n generalizing z t with
  | zero => exact ⟨.refl z, .refl t, le_refl _, by simp [fillAcc], fun _ => by simp [fillAcc]; omega, by simp [fillAcc]⟩
  | succ n ih =>
    unfold fillAcc
    split
    · next hlt =>
      obtain ⟨p1, p2, p3, p4, p5⟩ := nextDataByte_spec z t
      rcases hr : nextDataByte z t with ⟨f, z1, t1⟩
      rw [hr] at p1 p2 p3 p4 p5
      cases f with
      | got b =>
        dsimp only at p1 p2 p3 p4 p5 ⊢
        have hl := p5 b rfl
        have hp := pushBits_readOn b z1
        have hc : (pushBits b z1).cursize = z.cursize := p1.cursize
        have hb : (pushBits b z1).nbits = z.nbits + 8 := by show z1.nbits + 8 = _; rw [p3]
        obtain ⟨q1, q2, q3, q4, q5, q6⟩ := ih (pushBits b z1) t1 (by omega)
        rw [hc] at q4 q5 q6
        refine ⟨(p1.trans hp).trans q1, p2.trans q2, q3.trans ?_, ?_, q5, q6⟩
        · simp only [bitsLeft, hb]
          omega
        · omega
      | chain =>
        dsimp only at p1 p2 p3 p4 p5 ⊢
        have := p2.data
        have := p2.pos
        refine ⟨p1, p2, ?_, by omega, by simp, fun _ => by omega⟩
        simp only [bitsLeft, Stream.left, p3, p2.data]
        omega
      | fail =>
        dsimp only at p1 p2 p3 p4 p5 ⊢
        have := p2.pos
        refine ⟨p1, p2, ?_, by omega, by simp, fun _ => by omega⟩
        simp only [bitsLeft, Stream.left, p3, p2.data]
        omega
    · dsimp only
      exact ⟨.refl z, .refl t, le_refl _, by omega, fun _ => by omega, by simp⟩

/-- Everything GetCode can do (`41_lzw.md` R146): only ACC, NBITS, BREM and the stream change; a code has CURSIZE bits,
which are taken from those left; CHAIN and FAIL come only while NBITS < CURSIZE. -/
theorem getCode_spec (z : Lzw) (t : Stream) :
    z.ReadOn (getCode z t).2.1 ∧ t.Ahead (getCode z t).2.2
      ∧ (∀ c, (getCode z t).1 = .got c →
          c < 2 ^ z.cursize ∧ bitsLeft (getCode z t).2.1 (getCode z t).2.2 + z.cursize ≤ bitsLeft z t
            ∧ (z.nbits < 8 → 0 < z.cursize → (getCode z t).2.1.nbits < 8))
      ∧ ((getCode z t).1 = .chain ∨ (getCode z t).1 = .fail → (getCode z t).2.1.nbits < z.cursize) := by
  obtain ⟨p1, p2, p3, p4, p5, p6⟩ := fillAcc_spec (z.cursize - z.nbits) z t (le_refl _)
  unfold getCode
  rcases hr : fillAcc (z.cursize - z.nbits) z t with ⟨f, z1, t1⟩
  rw [hr] at p1 p2 p3 p4 p5 p6
  cases f with
  | got u =>
    dsimp only at p1 p2 p3 p4 p5 p6 ⊢
    have hc := p1.cursize
    have hge : z1.cursize ≤ z1.nbits := by rw [hc]; exact p5 ⟨u, rfl⟩
    have hk : z1.ReadOn (takeCode z1).2 := by
      refine ⟨rfl, id, fun h => ?_⟩
      show z1.acc / 2 ^ z1.cursize < 2 ^ (z1.nbits - z1.cursize)
      rw [Nat.div_lt_iff_lt_mul (Nat.two_pow_pos _), ← Nat.pow_add]
      rwa [Nat.sub_add_cancel hge]
    refine ⟨p1.trans hk, p2, fun c hcc => ?_, by simp⟩
    have hcv : (takeCode z1).1 = c := by simpa using hcc
    refine ⟨?_, ?_, fun h8 h0 => ?_⟩
    · rw [← hcv, ← hc]
      exact Nat.mod_lt _ (Nat.two_pow_pos _)
    · simp only [bitsLeft, takeCode] at p3 ⊢
      omega
    · show z1.nbits - z1.cursize < 8
      omega
  | chain => exact ⟨p1, p2, by simp, fun _ => p6 (.inl rfl)⟩
  | fail => exact ⟨p1, p2, by simp, fun _ => p6 (.inr rfl)⟩

/-- The loop of GetCode does the same under any bound of at least the bits that are missing. -/
theorem fillAcc_enough (n k : Nat) (z : Lzw) (t : Stream)
    (hn : z.cursize - z.nbits ≤ n) (hk : z.cursize - z.nbits ≤ k) :
    fillAcc n z t = fillAcc k z t := by
  induction n generalizing k z t with
  | zero =>
    cases k with
    | zero => rfl
    | succ k => simp only [fillAcc]; rw [if_neg (by omega)]
  | succ n ih =>
    cases k with
    | zero => simp only [fillAcc]; rw [if_neg (by omega)]
    | succ k =>
      simp only [fillAcc]
      split
      · rename_i h
        split
        · rename_i b z1 t1 hb
          have : z1.cursize = z.cursize ∧ z1.nbits = z.nbits := by
            have := nextDataByte_spec z t
            rw [hb] at this
            exact ⟨this.1.cursize, this.2.2.1⟩
          apply ih <;> simp only [pushBits] <;> omega
        · rfl
        · rfl
      · rfl

end Sys2Proof.Machine
end

