-- ==== Sys2Proof/Laws/Table.lean ====
section
/-! SUPPORT. Laws of the sparse tables: read after write with no premise on the table, and the canonical form kept. -/

namespace Sys2Proof.Machine

variable {α : Type}

theorem tabGet_tabErase_same (d : α) (t : List (Nat × α)) (k : Nat) : tabGet d (tabErase t k) k = d := by
  induction t with
  | nil => rfl
  | cons p t ih =>
    obtain ⟨j, v⟩ := p
    by_cases h : j = k <;> simp [tabErase, tabGet, h, ih]

theorem tabGet_tabErase_other (d : α) (t : List (Nat × α)) {k j : Nat} (h : j ≠ k) :
    tabGet d (tabErase t k) j = tabGet d t j := by
  induction t with
  | nil => rfl
  | cons p t ih =>
    obtain ⟨i, v⟩ := p
    by_cases hik : i = k
    · have : i ≠ j := fun e => h (e.symm.trans hik)
      simp [tabErase, tabGet, hik, ih]
      omega
    · by_cases hij : i = j
      · subst hij
        simp [tabErase, tabGet, hik]
      · simp [tabErase, tabGet, hik, hij, ih]

theorem mem_tabErase {t : List (Nat × α)} {k : Nat} {p : Nat × α} (h : p ∈ tabErase t k) : p ∈ t ∧ p.1 ≠ k := by
  induction t with
  | nil => simp [tabErase] at h
  | cons q t ih =>
    obtain ⟨j, v⟩ := q
    by_cases hj : j = k
    · simp only [tabErase, hj, if_true] at h
      exact ⟨List.mem_cons_of_mem _ (ih h).1, (ih h).2⟩
    · simp only [tabErase, hj, if_false, List.mem_cons] at h
      rcases h with rfl | h
      · exact ⟨List.mem_cons_self, hj⟩
      · exact ⟨List.mem_cons_of_mem _ (ih h).1, (ih h).2⟩

theorem tabGet_tabInsert_same (d : α) {t : List (Nat × α)} {k : Nat} (v : α) (h : ∀ p ∈ t, p.1 ≠ k) :
    tabGet d (tabInsert t k v) k = v := by
  induction t with
  | nil => simp [tabInsert, tabGet]
  | cons q t ih =>
    obtain ⟨j, w⟩ := q
    have hj : j ≠ k := h (j, w) List.mem_cons_self
    by_cases hk : k < j
    · simp [tabInsert, tabGet, hk]
    · simp [tabInsert, tabGet, hk, hj, ih fun p hp => h p (List.mem_cons_of_mem _ hp)]

theorem tabGet_tabInsert_other (d : α) (t : List (Nat × α)) {k j : Nat} (v : α) (h : j ≠ k) :
    tabGet d (tabInsert t k v) j = tabGet d t j := by
  induction t with
  | nil => simp [tabInsert, tabGet, h.symm]
  | cons q t ih =>
    obtain ⟨i, w⟩ := q
    by_cases hk : k < i
    · simp [tabInsert, tabGet, hk, h.symm]
    · by_cases hij : i = j
      · subst hij
        simp [tabInsert, tabGet, hk]
      · simp [tabInsert, tabGet, hk, hij, ih]

theorem mem_tabInsert {t : List (Nat × α)} {k : Nat} {v : α} {p : Nat × α} :
    p ∈ tabInsert t k v ↔ p = (k, v) ∨ p ∈ t := by
  induction t with
  | nil => simp [tabInsert]
  | cons q t ih =>
    obtain ⟨j, w⟩ := q
    by_cases hk : k < j
    · simp [tabInsert, hk]
    · simp only [tabInsert, hk, if_false, List.mem_cons, ih]
      tauto

theorem tabErase_sorted {t : List (Nat × α)} (k : Nat) (h : t.Pairwise (fun p q => p.1 < q.1)) :
    (tabErase t k).Pairwise (fun p q => p.1 < q.1) := by
  induction t with
  | nil => exact .nil
  | cons q t ih =>
    obtain ⟨j, v⟩ := q
    rw [List.pairwise_cons] at h
    by_cases hj : j = k
    · simpa [tabErase, hj] using ih h.2
    · simp only [tabErase, hj, if_false, List.pairwise_cons]
      exact ⟨fun p hp => h.1 p (mem_tabErase hp).1, ih h.2⟩

theorem tabInsert_sorted {t : List (Nat × α)} {k : Nat} (v : α) (h : t.Pairwise (fun p q => p.1 < q.1))
    (hk : ∀ p ∈ t, p.1 ≠ k) : (tabInsert t k v).Pairwise (fun p q => p.1 < q.1) := by
  induction t with
  | nil => simp [tabInsert]
  | cons q t ih =>
    obtain ⟨j, w⟩ := q
    rw [List.pairwise_cons] at h
    have hj : j ≠ k := hk (j, w) List.mem_cons_self
    by_cases hlt : k < j
    · simp only [tabInsert, hlt, if_true, List.pairwise_cons, List.mem_cons]
      refine ⟨?_, h.1, h.2⟩
      rintro p (rfl | hp)
      · exact hlt
      · exact lt_trans hlt (h.1 p hp)
    · simp only [tabInsert, hlt, if_false, List.pairwise_cons]
      refine ⟨fun p hp => ?_, ih h.2 fun p hp => hk p (List.mem_cons_of_mem _ hp)⟩
      rcases mem_tabInsert.1 hp with rfl | hp
      · show j < k
        omega
      · exact h.1 p hp

variable [DecidableEq α]

/-- Reading the index just written gives the value written. -/
@[simp] theorem tabGet_tabSet_same (d : α) (t : List (Nat × α)) (k : Nat) (v : α) :
    tabGet d (tabSet d t k v) k = v := by
  unfold tabSet
  split
  · next h => rw [tabGet_tabErase_same, h]
  · exact tabGet_tabInsert_same d v fun p hp => (mem_tabErase hp).2

/-- A write leaves every other index alone. -/
theorem tabGet_tabSet_other (d : α) (t : List (Nat × α)) {k j : Nat} (v : α) (h : j ≠ k) :
    tabGet d (tabSet d t k v) j = tabGet d t j := by
  unfold tabSet
  split
  · exact tabGet_tabErase_other d t h
  · rw [tabGet_tabInsert_other d _ v h, tabGet_tabErase_other d t h]

theorem tabGet_tabSet (d : α) (t : List (Nat × α)) (k j : Nat) (v : α) :
    tabGet d (tabSet d t k v) j = if j = k then v else tabGet d t j := by
  split
  · next h => rw [h, tabGet_tabSet_same]
  · next h => exact tabGet_tabSet_other d t v h

/-- Where the entries of a written table come from. -/
theorem mem_tabSet {d : α} {t : List (Nat × α)} {k : Nat} {v : α} {p : Nat × α} (h : p ∈ tabSet d t k v) :
    p.1 = k ∨ p ∈ t := by
  unfold tabSet at h
  split at h
  · exact .inr (mem_tabErase h).1
  · rcases mem_tabInsert.1 h with rfl | h
    · exact .inl rfl
    · exact .inr (mem_tabErase h).1

/-- A write keeps the canonical form. -/
theorem tabSet_canon {d : α} {t : List (Nat × α)} (k : Nat) (v : α) (h : tabCanon d t) :
    tabCanon d (tabSet d t k v) := by
  unfold tabSet
  split
  · exact ⟨tabErase_sorted k h.1, fun p hp => h.2 p (mem_tabErase hp).1⟩
  · next hv =>
    refine ⟨tabInsert_sorted v (tabErase_sorted k h.1) fun p hp => (mem_tabErase hp).2, fun p hp => ?_⟩
    rcases mem_tabInsert.1 hp with rfl | hp
    · exact hv
    · exact h.2 p (mem_tabErase hp).1

omit [DecidableEq α] in
/-- An index below every listed one reads as the default. -/
theorem tabGet_of_forall_ne {d : α} {t : List (Nat × α)} {k : Nat} (h : ∀ p ∈ t, p.1 ≠ k) : tabGet d t k = d := by
  induction t with
  | nil => rfl
  | cons q t ih =>
    obtain ⟨j, v⟩ := q
    have hj : j ≠ k := h (j, v) List.mem_cons_self
    simp [tabGet, hj, ih fun p hp => h p (List.mem_cons_of_mem _ hp)]

omit [DecidableEq α] in
/-- Two canonical tables that read the same everywhere are the same table. -/
theorem tab_ext {d : α} {t u : List (Nat × α)} (ht : tabCanon d t) (hu : tabCanon d u)
    (h : ∀ k, tabGet d t k = tabGet d u k) : t = u := by
  induction t generalizing u with
  | nil =>
    cases u with
    | nil => rfl
    | cons q u =>
      obtain ⟨j, w⟩ := q
      have := h j
      simp [tabGet] at this
      exact absurd this.symm (hu.2 (j, w) List.mem_cons_self)
  | cons p t ih =>
    obtain ⟨i, v⟩ := p
    have ht' := List.pairwise_cons.1 ht.1
    cases u with
    | nil =>
      have := h i
      simp [tabGet] at this
      exact absurd this (ht.2 (i, v) List.mem_cons_self)
    | cons q u =>
      obtain ⟨j, w⟩ := q
      have hu' := List.pairwise_cons.1 hu.1
      have hv := ht.2 (i, v) List.mem_cons_self
      have hw := hu.2 (j, w) List.mem_cons_self
      have hij : i = j := by
        rcases lt_trichotomy i j with hlt | heq | hgt
        · have hi := h i
          have : tabGet d ((j, w) :: u) i = d := tabGet_of_forall_ne fun p hp => by
            rcases List.mem_cons.1 hp with rfl | hp
            · exact hlt.ne'
            · exact (lt_trans hlt (hu'.1 p hp)).ne'
          rw [this] at hi
          simp [tabGet] at hi
          exact absurd hi hv
        · exact heq
        · have hj := h j
          have : tabGet d ((i, v) :: t) j = d := tabGet_of_forall_ne fun p hp => by
            rcases List.mem_cons.1 hp with rfl | hp
            · exact hgt.ne'
            · exact (lt_trans hgt (ht'.1 p hp)).ne'
          rw [this] at hj
          simp [tabGet] at hj
          exact absurd hj.symm hw
      subst hij
      have hvw : v = w := by simpa [tabGet] using h i
      subst hvw
      have : t = u := ih ⟨ht'.2, fun p hp => ht.2 p (List.mem_cons_of_mem _ hp)⟩
        ⟨hu'.2, fun p hp => hu.2 p (List.mem_cons_of_mem _ hp)⟩ fun k => by
          by_cases hk : i = k
          · rw [tabGet_of_forall_ne fun p hp => hk ▸ (ht'.1 p hp).ne',
              tabGet_of_forall_ne fun p hp => hk ▸ (hu'.1 p hp).ne']
          · have := h k
            simpa [tabGet, hk] using this
      rw [this]

end Sys2Proof.Machine
end

