-- ==== Sys2Proof/Laws/Dictionary.lean ====
section
/-! SUPPORT. Laws of the dictionary: what StringOf returns (`41_lzw.md` R147, R162 items 3 and 5), and that Register keeps
the strings already there (R154, R155). -/

namespace Sys2Proof.Machine

/-- The tail built so far is only carried along. -/
theorem walkString_append (z : Lzw) (n c : Nat) (tail : List Byte) :
    walkString z n c tail = walkString z n c [] ++ tail := by
  induction n generalizing c tail with
  | zero => rfl
  | succ n ih =>
    unfold walkString
    split
    · rw [ih _ (z.suffixOf c :: tail), ih _ [z.suffixOf c], List.append_assoc]
      rfl
    · rfl

theorem walkString_ne_nil (z : Lzw) (n c : Nat) (tail : List Byte) : walkString z n c tail ≠ [] := by
  induction n generalizing c tail with
  | zero => simp [walkString]
  | succ n ih =>
    unfold walkString
    split
    · exact ih _ _
    · simp

/-- A string is never empty (`41_lzw.md` R147). -/
theorem stringOf_ne_nil (z : Lzw) (c : Nat) : stringOf z c ≠ [] := walkString_ne_nil z c c []

theorem firstByte_append {s : List Byte} (t : List Byte) (h : s ≠ []) : firstByte (s ++ t) = firstByte s := by
  cases s with
  | nil => exact absurd rfl h
  | cons b s => rfl

/-- A string of the dictionary walks to the same bytes under any bound of at least its code. -/
theorem walkString_enough {z : Lzw} (hd : z.dictOk) (n k c : Nat) (hc : z.knows c) (hn : c ≤ n) (hk : c ≤ k) :
    walkString z n c [] = walkString z k c [] := by
  induction n generalizing k c with
  | zero =>
    obtain rfl : c = 0 := by omega
    have h0 : ¬z.newcodes ≤ 0 := by simp [Lzw.newcodes]
    cases k with
    | zero => rfl
    | succ k => simp [walkString, h0]
  | succ n ih =>
    cases k with
    | zero =>
      obtain rfl : c = 0 := by omega
      have h0 : ¬z.newcodes ≤ 0 := by simp [Lzw.newcodes]
      simp [walkString, h0]
    | succ k =>
      unfold walkString
      split
      · next hge =>
        have hlt : c < z.slot := by
          rcases hc with h | h
          · simp only [Lzw.clearCode, Lzw.newcodes] at h hge; omega
          · exact h.2
        obtain ⟨h1, h2⟩ := hd c hge hlt
        rw [walkString_append z n, walkString_append z k, ih k (z.prefixOf c) ?_ (by omega) (by omega)]
        rcases h2 with h2 | h2
        · exact .inl h2
        · exact .inr ⟨h2, by omega⟩
      · rfl

/-- The string of a root code is its one byte (`41_lzw.md` R147, R150). -/
theorem stringOf_root {z : Lzw} {c : Nat} (h : c < z.clearCode) : stringOf z c = [BitVec.ofNat 8 c] := by
  have hlt : ¬z.newcodes ≤ c := by simp only [Lzw.clearCode, Lzw.newcodes] at *; omega
  unfold stringOf
  cases c with
  | zero => rfl
  | succ c => simp [walkString, hlt]

/-- The string of a registered code is its prefix's string and its suffix (`41_lzw.md` R147). -/
theorem stringOf_entry {z : Lzw} (hd : z.dictOk) {c : Nat} (h1 : z.newcodes ≤ c) (h2 : c < z.slot) :
    stringOf z c = stringOf z (z.prefixOf c) ++ [z.suffixOf c] := by
  obtain ⟨hp, hk⟩ := hd c h1 h2
  cases c with
  | zero => simp [Lzw.newcodes] at h1
  | succ c =>
    show walkString z (c + 1) (c + 1) [] = _
    unfold walkString
    rw [if_pos h1, walkString_append]
    congr 1
    exact walkString_enough hd _ _ _ (hk.imp id fun h => ⟨h, by omega⟩) (by omega) (le_refl _)

/-- A string has at most `c - newcodes + 2` bytes for a registered code and 1 for a root code (R162 item 5). -/
theorem stringOf_length {z : Lzw} (hd : z.dictOk) {c : Nat} (hc : z.knows c) :
    (stringOf z c).length + z.newcodes ≤ max c z.newcodes + 2 ∧ (c < z.clearCode → (stringOf z c).length = 1) := by
  induction c using Nat.strong_induction_on with
  | _ c ih =>
    by_cases hr : c < z.clearCode
    · rw [stringOf_root hr]
      exact ⟨by simp; omega, fun _ => rfl⟩
    · refine ⟨?_, fun h => absurd h hr⟩
      have hc' : z.newcodes ≤ c ∧ c < z.slot := hc.resolve_left hr
      obtain ⟨hp, hk⟩ := hd c hc'.1 hc'.2
      rw [stringOf_entry hd hc'.1 hc'.2, List.length_append]
      have hkn : z.knows (z.prefixOf c) := hk.imp id fun h => ⟨h, by omega⟩
      obtain ⟨i1, i2⟩ := ih _ hp hkn
      rcases hk with h | h
      · have := i2 h
        simp
        omega
      · simp
        omega

/-- Two decoders with the same dictionary have the same strings. -/
theorem walkString_congr {z z' : Lzw} (hn : z'.newcodes = z.newcodes)
    (hp : ∀ k, z.newcodes ≤ k → k < z.slot → z'.prefixOf k = z.prefixOf k ∧ z'.suffixOf k = z.suffixOf k)
    (hd : z.dictOk) (n c : Nat) (hc : z.knows c) (tail : List Byte) :
    walkString z' n c tail = walkString z n c tail := by
  induction n generalizing c tail with
  | zero => rfl
  | succ n ih =>
    unfold walkString
    rw [hn]
    split
    · next hge =>
      have hlt : c < z.slot := by
        rcases hc with h | h
        · simp only [Lzw.clearCode, Lzw.newcodes] at h hge; omega
        · exact h.2
      obtain ⟨h1, h2⟩ := hd c hge hlt
      obtain ⟨e1, e2⟩ := hp c hge hlt
      rw [e1, e2]
      exact ih _ (h2.imp id fun h => ⟨h, by omega⟩) _
    · rfl

theorem stringOf_congr {z z' : Lzw} (hn : z'.newcodes = z.newcodes)
    (hp : ∀ k, z.newcodes ≤ k → k < z.slot → z'.prefixOf k = z.prefixOf k ∧ z'.suffixOf k = z.suffixOf k)
    (hd : z.dictOk) {c : Nat} (hc : z.knows c) : stringOf z' c = stringOf z c :=
  walkString_congr hn hp hd c c hc []

/-! ### Register -/

theorem widen_frame (mb : Nat) (z : Lzw) :
    widen mb z = { z with cursize := (widen mb z).cursize, topSlot := (widen mb z).topSlot } := by
  unfold widen
  split <;> rfl

/-- Register changes nothing but the dictionary, SLOT, CURSIZE and TOPSLOT (`41_lzw.md` R154, R155). -/
theorem register_frame (mb : Nat) (x : Byte) (z : Lzw) :
    register mb x z = { z with
      slot := (register mb x z).slot, cursize := (register mb x z).cursize, topSlot := (register mb x z).topSlot
      prefixTab := (register mb x z).prefixTab, suffixTab := (register mb x z).suffixTab } := by
  unfold register
  split
  · rw [widen_frame]
  · rfl

section
variable (mb : Nat) (x : Byte) (z : Lzw)

@[simp] theorem register_m : (register mb x z).m = z.m := by rw [register_frame]
@[simp] theorem register_st : (register mb x z).st = z.st := by rw [register_frame]
@[simp] theorem register_endReason : (register mb x z).endReason = z.endReason := by rw [register_frame]
@[simp] theorem register_prevValid : (register mb x z).prevValid = z.prevValid := by rw [register_frame]
@[simp] theorem register_prevCode : (register mb x z).prevCode = z.prevCode := by rw [register_frame]
@[simp] theorem register_first : (register mb x z).first = z.first := by rw [register_frame]
@[simp] theorem register_acc : (register mb x z).acc = z.acc := by rw [register_frame]
@[simp] theorem register_nbits : (register mb x z).nbits = z.nbits := by rw [register_frame]
@[simp] theorem register_brem : (register mb x z).brem = z.brem := by rw [register_frame]
@[simp] theorem register_stack : (register mb x z).stack = z.stack := by rw [register_frame]
@[simp] theorem register_newcodes : (register mb x z).newcodes = z.newcodes := by simp [Lzw.newcodes]
@[simp] theorem register_clearCode : (register mb x z).clearCode = z.clearCode := by simp [Lzw.clearCode]
@[simp] theorem register_codeSize : (register mb x z).codeSize = z.codeSize := by simp [Lzw.codeSize]

end

/-- A full dictionary is left as it is (`41_lzw.md` R156). -/
theorem register_full {mb : Nat} {x : Byte} {z : Lzw} (h : z.topSlot ≤ z.slot) : register mb x z = z := by
  simp [register, Nat.not_lt.2 h]

theorem register_slot {mb : Nat} {x : Byte} {z : Lzw} (h : z.slot < z.topSlot) :
    (register mb x z).slot = z.slot + 1 := by
  simp only [register, h, if_true]
  rw [widen_frame]

theorem register_prefixOf {mb : Nat} {x : Byte} {z : Lzw} (h : z.slot < z.topSlot) (k : Nat) :
    (register mb x z).prefixOf k = if k = z.slot then z.prevCode else z.prefixOf k := by
  simp only [register, h, if_true, Lzw.prefixOf]
  rw [widen_frame]
  exact tabGet_tabSet ..

theorem register_suffixOf {mb : Nat} {x : Byte} {z : Lzw} (h : z.slot < z.topSlot) (k : Nat) :
    (register mb x z).suffixOf k = if k = z.slot then x else z.suffixOf k := by
  simp only [register, h, if_true, Lzw.suffixOf]
  rw [widen_frame]
  exact tabGet_tabSet ..

/-- Widening after a registration (`41_lzw.md` R155). -/
theorem register_widens {mb : Nat} {x : Byte} {z : Lzw} (h : z.slot < z.topSlot) :
    ((z.slot + 1 = z.topSlot ∧ z.cursize < mb) →
        (register mb x z).cursize = z.cursize + 1 ∧ (register mb x z).topSlot = 2 * z.topSlot)
      ∧ (¬(z.slot + 1 = z.topSlot ∧ z.cursize < mb) →
        (register mb x z).cursize = z.cursize ∧ (register mb x z).topSlot = z.topSlot) := by
  simp only [register, h, if_true, widen]
  constructor
  · intro hw
    rw [if_pos ⟨by omega, hw.2⟩]
    exact ⟨rfl, rfl⟩
  · intro hw
    rw [if_neg fun hh => hw ⟨by omega, hh.2⟩]
    exact ⟨rfl, rfl⟩

/-- The strings already in the dictionary stay. -/
theorem stringOf_register {mb : Nat} {x : Byte} {z : Lzw} (hd : z.dictOk) {c : Nat} (hc : z.knows c) :
    stringOf (register mb x z) c = stringOf z c := by
  by_cases h : z.slot < z.topSlot
  · refine stringOf_congr (register_newcodes ..) (fun k _ hk => ?_) hd hc
    rw [register_prefixOf h, register_suffixOf h, if_neg (by omega), if_neg (by omega)]
    exact ⟨rfl, rfl⟩
  · rw [register_full (by omega)]

/-- Register keeps the order of the prefixes, when the previous code is a string of the dictionary. -/
theorem dictOk_register {mb : Nat} {x : Byte} {z : Lzw} (hd : z.dictOk) (hp : z.knows z.prevCode)
    (hs : z.newcodes ≤ z.slot) : (register mb x z).dictOk := by
  by_cases h : z.slot < z.topSlot
  · intro k h1 h2
    rw [register_newcodes] at h1
    rw [register_slot h] at h2
    rw [register_prefixOf h, register_newcodes, register_clearCode]
    split
    · next hk =>
      subst hk
      rcases hp with hp | hp
      · exact ⟨by simp only [Lzw.clearCode, Lzw.newcodes] at *; omega, .inl hp⟩
      · exact ⟨hp.2, .inr hp.1⟩
    · exact hd k h1 (by omega)
  · rwa [register_full (by omega)]

/-- The new entry's string is the previous code's string and the new suffix (`41_lzw.md` R154). -/
theorem stringOf_registered {mb : Nat} {x : Byte} {z : Lzw} (hd : z.dictOk) (hp : z.knows z.prevCode)
    (hs : z.newcodes ≤ z.slot) (h : z.slot < z.topSlot) :
    stringOf (register mb x z) z.slot = stringOf z z.prevCode ++ [x] := by
  rw [stringOf_entry (dictOk_register hd hp hs) (by simpa using hs) (by rw [register_slot h]; omega),
    register_prefixOf h, register_suffixOf h, if_pos rfl, if_pos rfl, stringOf_register hd hp]

end Sys2Proof.Machine
end

