-- ==== Sys2Proof/Laws/Codes.lean ====
section
/-! SUPPORT. Laws of the code classes: the decoder's invariant (`41_lzw.md` R162) is established by LzwInit and LzwUninit
and kept by each code of the class that the decoder state selects for it. -/

namespace Sys2Proof.Machine

theorem LzwSt.coding_iff (x : LzwSt) : x.coding = true ↔ x ≠ .uninitialized ∧ x ≠ .ended := by
  cases x <;> simp [LzwSt.coding]

/-! ### Initialisation -/

theorem dictOk_of_slot {z : Lzw} (h : z.slot ≤ z.newcodes) : z.dictOk := fun _ h1 h2 => absurd h1 (by omega)

theorem pow_min_le {m : Nat} (h : m ≤ 8) : 2 ^ m ≤ 256 := Nat.pow_le_pow_right (n := 2) (by omega) (show m ≤ 8 from h)

theorem pow_min_ge {m : Nat} (h : 2 ≤ m) : 4 ≤ 2 ^ m := Nat.pow_le_pow_right (n := 2) (by omega) (show 2 ≤ m from h)

/-- LzwInit establishes the invariant (`41_lzw.md` R141, R162). -/
theorem lzwInit_ok {mb m : Nat} (z : Lzw) (hmb : 10 ≤ mb) (hm : legalMinCode m = true) : (lzwInit m z).Ok mb := by
  simp only [legalMinCode, Bool.and_eq_true, decide_eq_true_eq] at hm
  have h1 := pow_min_le hm.2
  have h2 := pow_min_ge hm.1
  have h3 : 2 ^ (m + 1) = 2 * 2 ^ m := by ring
  have h4 : 0 < 2 ^ mb := Nat.two_pow_pos _
  refine ⟨?_, ?_, fun _ => ?_, fun _ => rfl⟩
  · constructor <;> simp [lzwInit] <;> omega
  · simp [lzwInit]
  · constructor <;> simp [lzwInit, Lzw.newcodes, Lzw.codeSize, Lzw.dictOk] <;> omega

/-- LzwUninit establishes the invariant (`41_lzw.md` R141). -/
theorem lzwUninit_ok {mb : Nat} (z : Lzw) : (lzwUninit z).Ok mb := by
  refine ⟨?_, by simp [lzwUninit], by simp [lzwUninit, LzwSt.coding], by simp [lzwUninit]⟩
  constructor <;> simp [lzwUninit]

/-- Ending the decoder keeps the invariant (`41_lzw.md` R161). -/
theorem lzwStop_ok {mb : Nat} {z : Lzw} {why : LzwEnd} (h : z.Fits) (hw : why ≠ .notEnded) (hs : z.stack = []) :
    (lzwStop why z).Ok mb := by
  refine ⟨?_, by simp [lzwStop, hw], by simp [lzwStop, LzwSt.coding], fun _ => hs⟩
  obtain ⟨a, b, c, d, e, f, g, i, j⟩ := h
  exact ⟨a, b, c, d, e, f, g, i, j⟩

/-- So does rejecting a minimum code size (`42_compositor.md` R189). -/
theorem lzwReject_ok {mb : Nat} {z : Lzw} (h : z.Fits) : (lzwReject z).Ok mb := by
  refine ⟨?_, by simp [lzwReject, lzwStop], by simp [lzwReject, lzwStop, LzwSt.coding], fun _ => rfl⟩
  obtain ⟨a, b, c, d, e, f, g, i, -⟩ := h
  exact ⟨a, b, c, d, e, f, g, i, by simp [lzwReject]⟩

/-! ### Reading a code -/

/-- Code-reader work keeps the invariant, as far as NBITS allows. -/
theorem Lzw.ReadOn.fits {z z' : Lzw} (h : z.ReadOn z') (hn : z'.nbits < 2 ^ 5) (hf : z.Fits) : z'.Fits := by
  obtain ⟨a, b, c, d, e, f, g, i, j⟩ := hf
  exact ⟨h.m ▸ a, h.cursize ▸ b, h.topSlot ▸ c, h.slot ▸ d, h.prevCode ▸ e, h.acc f, hn, h.brem i, h.stack ▸ j⟩

theorem Lzw.ReadOn.newcodes {z z' : Lzw} (h : z.ReadOn z') : z'.newcodes = z.newcodes := by
  simp only [Lzw.newcodes, h.m]

theorem Lzw.ReadOn.clearCode {z z' : Lzw} (h : z.ReadOn z') : z'.clearCode = z.clearCode := by
  simp only [Lzw.clearCode, h.m]

theorem Lzw.ReadOn.dict {z z' : Lzw} (h : z.ReadOn z') (k : Nat) :
    z'.prefixOf k = z.prefixOf k ∧ z'.suffixOf k = z.suffixOf k := by
  simp only [Lzw.prefixOf, Lzw.suffixOf, h.prefixTab, h.suffixTab, and_self]

theorem Lzw.ReadOn.coding {mb : Nat} {z z' : Lzw} (h : z.ReadOn z') (hn : z'.nbits < 8) (hc : z.Coding mb) :
    z'.Coding mb := by
  have en := h.newcodes
  have ec := h.clearCode
  have ed : z'.dictOk := by
    intro k h1 h2
    rw [en] at h1
    rw [h.slot] at h2
    rw [(h.dict k).1, en, ec]
    exact hc.dict k h1 h2
  refine ⟨h.m ▸ hc.mLow, h.m ▸ hc.mHigh, fun hp => ?_, ?_, ?_, ?_, ?_, ?_, ed, fun hp => ?_, ?_, hn, ?_⟩
  · rw [h.slot, en]; exact hc.noPrev (h.prevValid ▸ hp)
  · rw [h.slot, en]; exact hc.slotLow
  · rw [h.slot, h.topSlot]; exact hc.slotHigh
  · rw [h.topSlot, h.cursize]; exact hc.top
  · simp only [Lzw.codeSize, h.m, h.cursize]; exact hc.codeSize
  · rw [h.cursize]; exact hc.curHigh
  · obtain ⟨hk, hf⟩ := hc.prev (h.prevValid ▸ hp)
    refine ⟨?_, ?_⟩
    · simp only [Lzw.knows, ec, en, h.prevCode, h.slot]; exact hk
    · rw [h.first, h.prevCode, hf, stringOf_congr en (fun k _ _ => h.dict k) hc.dict hk]
  · rw [h.stack]; exact hc.stack
  · rw [h.endReason]; exact hc.noEnd

/-! ### The code classes -/

section
variable {mb : Nat} {z : Lzw} (hmb : 10 ≤ mb ∧ mb ≤ 12) (h : z.Ok mb) (hc : z.st.coding = true)
include hmb h hc

/-- CLEAR keeps the invariant (`41_lzw.md` R148). -/
theorem clearDict_ok (hs : z.stack = []) : (clearDict z).Ok mb := by
  have hk := h.coding hc
  have h1 := pow_min_le hk.mHigh
  have h2 := pow_min_ge hk.mLow
  have h3 : 2 ^ (z.m + 1) = 2 * 2 ^ z.m := by ring
  have hm := hk.mHigh
  obtain ⟨a, b, c, d, e, f, g, i, j⟩ := h.fits
  refine ⟨⟨a, ?_, ?_, ?_, by simp [clearDict], f, g, i, j⟩, by simp [clearDict, hk.noEnd], fun _ => ?_, fun _ => hs⟩
  · simp [clearDict, Lzw.codeSize]; omega
  · simp [clearDict, Lzw.codeSize]; omega
  · simp [clearDict, Lzw.newcodes]; omega
  · refine ⟨hk.mLow, hk.mHigh, fun _ => rfl, le_refl _, ?_, rfl, le_refl _, ?_, dictOk_of_slot (le_refl _),
      by simp [clearDict], hk.stack, hk.bits, hk.noEnd⟩
    · simp [clearDict, Lzw.newcodes, Lzw.codeSize]; omega
    · simp [clearDict, Lzw.codeSize]; omega

omit hmb h hc in
theorem acceptString_ok_aux {c : Nat} {str : List Byte} {y : Lzw} (hmb : mb ≤ 12) (hf : y.Fits) (hk : y.Coding mb)
    (hkn : y.knows c) (hstr : str = stringOf y c)
    (hlen : str.length < 2 ^ mb) (hs : y.stack = []) : (acceptString c str y).Ok mb := by
  have hp : 2 ^ mb ≤ 2 ^ 12 := Nat.pow_le_pow_right (by omega) hmb
  have ht : y.slot ≤ 2 ^ mb := hk.slotHigh.trans (hk.top ▸ Nat.pow_le_pow_right (by omega) hk.curHigh)
  have hclear := pow_min_le hk.mHigh
  have hlc : c < 2 ^ 12 := by
    rcases hkn with h | h
    · simp only [Lzw.clearCode] at h; omega
    · omega
  obtain ⟨a, b, c', d, e, f, g, i, j⟩ := hf
  refine ⟨⟨a, b, c', d, hlc, f, g, i, ?_⟩, by simp [acceptString, hk.noEnd], fun _ => ?_, by simp [acceptString]⟩
  · simp [acceptString, hs]; omega
  · refine ⟨hk.mLow, hk.mHigh, by simp [acceptString], hk.slotLow, hk.slotHigh, hk.top, hk.codeSize, hk.curHigh,
      hk.dict, fun _ => ⟨hkn, ?_⟩, ?_, hk.bits, hk.noEnd⟩
    · show firstByte str = firstByte (stringOf (acceptString c str y) c)
      rw [hstr]
      congr 1
      exact (stringOf_congr (z := y) (z' := acceptString c (stringOf y c) y) rfl (fun _ _ _ => ⟨rfl, rfl⟩) hk.dict
        hkn).symm
    · simp [acceptString, hs]; omega

/-- Register keeps the bounds of the invariant (`41_lzw.md` R154, R155). -/
theorem register_coding (x : Byte) (hv : z.prevValid = true) :
    (register mb x z).Fits ∧ (register mb x z).Coding mb := by
  have hk := h.coding hc
  obtain ⟨hpk, hpf⟩ := hk.prev hv
  by_cases hlt : z.slot < z.topSlot
  · have hs := register_slot (mb := mb) (x := x) hlt
    obtain ⟨w1, w2⟩ := register_widens (mb := mb) (x := x) hlt
    have hd := dictOk_register (mb := mb) (x := x) hk.dict hpk hk.slotLow
    have hp : 2 ^ z.cursize ≤ 2 ^ mb := Nat.pow_le_pow_right (by omega) hk.curHigh
    have hp' : 2 ^ mb ≤ 2 ^ 12 := Nat.pow_le_pow_right (by omega) hmb.2
    have htop := hk.top
    have hsl := hk.slotLow
    have hcs := hk.codeSize
    have hch := hk.curHigh
    obtain ⟨a, b, c, d, e, f, g, i, j⟩ := h.fits
    have key : (register mb x z).topSlot = 2 ^ (register mb x z).cursize ∧ z.cursize ≤ (register mb x z).cursize
        ∧ (register mb x z).cursize ≤ mb ∧ z.slot + 1 ≤ (register mb x z).topSlot
        ∧ (register mb x z).topSlot ≤ 2 ^ mb := by
      by_cases hw : z.slot + 1 = z.topSlot ∧ z.cursize < mb
      · obtain ⟨q1, q2⟩ := w1 hw
        have hq : 2 ^ (z.cursize + 1) = 2 * 2 ^ z.cursize := by ring
        have hq' : 2 ^ (z.cursize + 1) ≤ 2 ^ mb := Nat.pow_le_pow_right (by omega) hw.2
        rw [q1, q2]
        omega
      · obtain ⟨q1, q2⟩ := w2 hw
        rw [q1, q2]
        omega
    obtain ⟨k1, k2, k3, k4, k5⟩ := key
    constructor
    · exact ⟨by simpa using a, by omega, by omega, by omega, by simpa using e, by simpa using f, by simpa using g,
        by simpa using i, by simpa using j⟩
    · refine ⟨by simpa using hk.mLow, by simpa using hk.mHigh, by simp [hv], by simp; omega, by omega, k1,
        by simp; omega, k3, hd, fun _ => ⟨?_, ?_⟩, by simpa using hk.stack, by simpa using hk.bits,
        by simpa using hk.noEnd⟩
      · simp only [Lzw.knows, register_clearCode, register_newcodes, register_prevCode, hs]
        exact hpk.imp id fun h => ⟨h.1, by omega⟩
      · rw [register_prevCode, register_first, stringOf_register hk.dict hpk]
        exact hpf
  · rw [register_full (by omega)]
    exact ⟨h.fits, hk⟩

/-- ROOT keeps the invariant (`41_lzw.md` R150). -/
theorem root_ok {c : Nat} (hs : z.stack = []) (hlt : c < z.clearCode) :
    (acceptString c [BitVec.ofNat 8 c] z).Ok mb := by
  have hk := h.coding hc
  refine acceptString_ok_aux hmb.2 h.fits hk (.inl hlt) (stringOf_root hlt).symm ?_ hs
  show 1 < 2 ^ mb
  exact Nat.one_lt_two_pow (by omega)

/-- KNOWN keeps the invariant (`41_lzw.md` R151). -/
theorem known_ok {c : Nat} (hs : z.stack = []) (hv : z.prevValid = true) (hlt : c < z.slot) (h1 : c ≠ z.clearCode)
    (h2 : c ≠ z.clearCode + 1) (x : Byte) : (acceptString c (stringOf z c) (register mb x z)).Ok mb := by
  have hk := h.coding hc
  obtain ⟨r1, r2⟩ := register_coding hmb h hc x hv
  have hkn : z.knows c := by
    simp only [Lzw.knows, Lzw.clearCode, Lzw.newcodes] at *; omega
  refine acceptString_ok_aux hmb.2 r1 r2 ?_ (stringOf_register hk.dict hkn).symm ?_
    (by simpa using hs)
  · simp only [Lzw.knows, register_clearCode, register_newcodes]
    refine hkn.imp id fun hh => ⟨hh.1, ?_⟩
    by_cases hl : z.slot < z.topSlot
    · rw [register_slot hl]; omega
    · rw [register_full (by omega)]; exact hh.2
  · have ht : z.slot ≤ 2 ^ mb := hk.slotHigh.trans (hk.top ▸ Nat.pow_le_pow_right (by omega) hk.curHigh)
    have := (stringOf_length hk.dict hkn).1
    have h4 := pow_min_ge hk.mLow
    have hsl := hk.slotLow
    have : z.newcodes = 2 ^ z.m + 2 := rfl
    omega

/-- KWKWK keeps the invariant (`41_lzw.md` R152). -/
theorem kwkwk_ok (hs : z.stack = []) (hv : z.prevValid = true) (hlt : z.slot < 2 ^ z.cursize) :
    (acceptString z.slot (stringOf z z.prevCode ++ [z.first])
      (register mb (firstByte (stringOf z z.prevCode ++ [z.first])) z)).Ok mb := by
  have hk := h.coding hc
  obtain ⟨hpk, hpf⟩ := hk.prev hv
  have hfirst : firstByte (stringOf z z.prevCode ++ [z.first]) = z.first := by
    rw [firstByte_append _ (stringOf_ne_nil z _), hpf]
  rw [hfirst]
  obtain ⟨r1, r2⟩ := register_coding hmb h hc z.first hv
  have hl : z.slot < z.topSlot := hk.top ▸ hlt
  refine acceptString_ok_aux hmb.2 r1 r2 ?_
    (stringOf_registered hk.dict hpk hk.slotLow hl).symm ?_ (by simpa using hs)
  · simp only [Lzw.knows, register_clearCode, register_newcodes, register_slot hl]
    exact .inr ⟨hk.slotLow, by omega⟩
  · have ht : z.slot ≤ 2 ^ mb := hk.slotHigh.trans (hk.top ▸ Nat.pow_le_pow_right (by omega) hk.curHigh)
    have hl' := (stringOf_length hk.dict hpk).1
    have h4 := pow_min_ge hk.mLow
    have hsl := hk.slotLow
    have : z.newcodes = 2 ^ z.m + 2 := rfl
    have hpl : z.prevCode < z.slot := by
      rcases hpk with h | h
      · simp only [Lzw.clearCode] at h; omega
      · exact h.2
    rw [List.length_append, List.length_singleton]
    omega

end

end Sys2Proof.Machine
end

