-- ==== Sys2Proof/Laws/Memory.lean ====
section
/-! SUPPORT. Laws of local memory: read after write, the canonical form kept by every operation, the closed form of the
range check. -/

namespace Sys2Proof.Machine

@[simp] theorem Memory.get_set_same (m : Memory) (a : Nat) (v : Byte) : (m.set a v).get a = v :=
  tabGet_tabSet_same memDefault m a v

theorem Memory.get_set_other (m : Memory) {a b : Nat} (v : Byte) (h : b ≠ a) : (m.set a v).get b = m.get b :=
  tabGet_tabSet_other memDefault m v h

theorem Memory.get_set (m : Memory) (a b : Nat) (v : Byte) :
    (m.set a v).get b = if b = a then v else m.get b :=
  tabGet_tabSet memDefault m a b v

theorem Memory.set_wf {m : Memory} (a : Nat) (v : Byte) (h : m.wf) : (m.set a v).wf := tabSet_canon a v h

theorem Memory.mem_set {m : Memory} {a : Nat} {v : Byte} {p : Host.Cell} (h : p ∈ m.set a v) : p.1 = a ∨ p ∈ m :=
  mem_tabSet h

/-- Canonical memories that read the same everywhere are equal data. -/
theorem Memory.ext_get {m n : Memory} (hm : m.wf) (hn : n.wf) (h : ∀ a, m.get a = n.get a) : m = n :=
  tab_ext hm hn h

/-- What a run of bytes written from `a` on leaves at an address. -/
theorem Memory.get_setBytes (m : Memory) (a : Nat) (bs : List Byte) (x : Nat) :
    (m.setBytes a bs).get x = if a ≤ x ∧ x < a + bs.length then bs.getD (x - a) 0 else m.get x := by
  induction bs generalizing m a with
  | nil => simp [Memory.setBytes]
  | cons b bs ih =>
    rw [Memory.setBytes, ih, Memory.get_set]
    by_cases hx : x = a
    · subst hx
      simp
    · by_cases h1 : a + 1 ≤ x ∧ x < a + 1 + bs.length
      · have h2 : a ≤ x ∧ x < a + (b :: bs).length := by simp; omega
        rw [if_pos h1, if_pos h2]
        obtain ⟨k, rfl⟩ : ∃ k, x = a + 1 + k := ⟨x - (a + 1), by omega⟩
        have e1 : a + 1 + k - (a + 1) = k := by omega
        have e2 : a + 1 + k - a = k + 1 := by omega
        rw [e1, e2]
        rfl
      · have h2 : ¬(a ≤ x ∧ x < a + (b :: bs).length) := by simp; omega
        rw [if_neg h1, if_neg h2, if_neg hx]

theorem Memory.get_setBytes_outside (m : Memory) {a : Nat} {bs : List Byte} {x : Nat}
    (h : ¬(a ≤ x ∧ x < a + bs.length)) : (m.setBytes a bs).get x = m.get x := by
  rw [Memory.get_setBytes, if_neg h]

theorem Memory.setBytes_wf {m : Memory} (a : Nat) (bs : List Byte) (h : m.wf) : (m.setBytes a bs).wf := by
  induction bs generalizing m a with
  | nil => exact h
  | cons b bs ih => exact ih (a + 1) (Memory.set_wf a b h)

theorem Memory.mem_setBytes {m : Memory} {a : Nat} {bs : List Byte} {p : Host.Cell} (h : p ∈ m.setBytes a bs) :
    (a ≤ p.1 ∧ p.1 < a + bs.length) ∨ p ∈ m := by
  induction bs generalizing m a with
  | nil => exact .inr h
  | cons b bs ih =>
    rcases ih h with h | h
    · left; simp; omega
    · rcases Memory.mem_set h with h | h
      · left; simp; omega
      · exact .inr h

/-- A fold of single-byte writes at addresses outside a set leaves every address of that set alone. -/
theorem Memory.get_foldl_of_forall_ne {β : Type} (f : Memory → β → Memory) (x : Nat) (l : List β) (m : Memory)
    (h : ∀ p ∈ l, ∀ m, (f m p).get x = m.get x) : (l.foldl f m).get x = m.get x := by
  induction l generalizing m with
  | nil => rfl
  | cons p l ih =>
    rw [List.foldl_cons, ih _ fun q hq => h q (List.mem_cons_of_mem _ hq), h p List.mem_cons_self]

/-- A fold of operations that each keep a property keeps it. -/
theorem Memory.foldl_keeps {β : Type} (P : Memory → Prop) (f : Memory → β → Memory) (l : List β) (m : Memory)
    (hf : ∀ p ∈ l, ∀ m, P m → P (f m p)) (hm : P m) : P (l.foldl f m) := by
  induction l generalizing m with
  | nil => exact hm
  | cons p l ih =>
    exact ih _ (fun q hq => hf q (List.mem_cons_of_mem _ hq)) (hf p List.mem_cons_self m hm)

/-- The closed form of the range check is the check of every address (`20_memory.md` R64). -/
theorem rangeWritable_iff (c : Config) (lo hi : Nat) :
    rangeWritable c lo hi = true ↔ ∀ a, lo ≤ a → a < hi → writable c a = true := by
  have e : palBase c = 2 * fbn c := rfl
  cases hb : c.hasBackup <;>
    simp only [rangeWritable, writable, hb, e, Bool.or_eq_true, Bool.and_eq_true, decide_eq_true_eq, if_true, if_false,
      Bool.false_eq_true, false_and, or_false, true_and]
  · constructor
    · intro h a h1 h2
      omega
    · intro h
      by_cases hlt : hi ≤ lo
      · exact .inl hlt
      · have hl := h lo (le_refl _) (by omega)
        have hh := h (hi - 1) (by omega) (by omega)
        by_cases hc : lo < fbn c ∧ fbn c < hi
        · have := h (fbn c) (by omega) (by omega)
          omega
        · omega
  · constructor
    · intro h a h1 h2
      omega
    · intro h
      by_cases hlt : hi ≤ lo
      · exact .inl hlt
      · have hh := h (hi - 1) (by omega) (by omega)
        omega

theorem readable_of_writable {c : Config} {a : Nat} (h : writable c a = true) : readable c a = true := by
  simp [readable, h]

/-! ### The map (`20_memory.md` R64) -/

theorem readable_iff (c : Config) (a : Nat) :
    readable c a = true ↔ a < fbn c ∨ (c.hasBackup = true ∧ fbn c ≤ a ∧ a < 2 * fbn c)
      ∨ (palBase c ≤ a ∧ a < memSize c) := by
  simp only [readable, Bool.or_eq_true, Bool.and_eq_true, decide_eq_true_eq, writable]
  simp only [memSize, palBase]
  constructor
  · rintro (((h | ⟨⟨h, h'⟩, h''⟩) | ⟨h, h'⟩) | ⟨h, h'⟩)
    · exact .inl h
    · exact .inr (.inl ⟨h, h', h''⟩)
    · exact .inr (.inr (by omega))
    · exact .inr (.inr (by omega))
  · rintro (h | h | h)
    · exact .inl (.inl (.inl h))
    · exact .inl (.inl (.inr ⟨⟨h.1, h.2.1⟩, h.2.2⟩))
    · by_cases hq : a < 2 * fbn c + 768
      · exact .inl (.inr (by omega))
      · exact .inr (by omega)

theorem writable_iff (c : Config) (a : Nat) :
    writable c a = true ↔ a < fbn c ∨ (c.hasBackup = true ∧ fbn c ≤ a ∧ a < 2 * fbn c)
      ∨ (palBase c ≤ a ∧ a < palBase c + 768) := by
  simp only [Bool.or_eq_true, Bool.and_eq_true, decide_eq_true_eq, writable]
  tauto

end Sys2Proof.Machine
end

