-- ==== Sys2Proof/Laws/State.lean ====
section
/-! SUPPORT. What each field of the state is after an update of `Machine/Ops.lean`: raising a fault, reporting, emitting,
leaving the fault state; and what the dispatcher's part of a command does. -/

namespace Sys2Proof.Machine

/-! ### raiseFault (`60_exceptions.md` R242) -/

section
variable (c : CmdCode) (s : State)

@[simp] theorem raiseFault_cfg : (raiseFault c s).cfg = s.cfg := rfl
@[simp] theorem raiseFault_stream : (raiseFault c s).stream = s.stream := rfl
@[simp] theorem raiseFault_program : (raiseFault c s).program = s.program := rfl
@[simp] theorem raiseFault_hostReads : (raiseFault c s).hostReads = s.hostReads := rfl
@[simp] theorem raiseFault_arg0 : (raiseFault c s).arg0 = s.arg0 := rfl
@[simp] theorem raiseFault_arg1 : (raiseFault c s).arg1 = s.arg1 := rfl
@[simp] theorem raiseFault_arg2 : (raiseFault c s).arg2 = s.arg2 := rfl
@[simp] theorem raiseFault_result : (raiseFault c s).result = s.result := rfl
@[simp] theorem raiseFault_fault : (raiseFault c s).fault = true := rfl
@[simp] theorem raiseFault_key : (raiseFault c s).key = s.key := rfl
@[simp] theorem raiseFault_code : (raiseFault c s).code = c := rfl
@[simp] theorem raiseFault_diag : (raiseFault c s).diag = s.diag := rfl
@[simp] theorem raiseFault_frame : (raiseFault c s).frame = s.frame := rfl
@[simp] theorem raiseFault_interlace : (raiseFault c s).interlace = s.interlace := rfl
@[simp] theorem raiseFault_gce : (raiseFault c s).gce = s.gce := rfl
@[simp] theorem raiseFault_delay : (raiseFault c s).delay = s.delay := rfl
@[simp] theorem raiseFault_bg : (raiseFault c s).bg = s.bg := rfl
@[simp] theorem raiseFault_prevDisp : (raiseFault c s).prevDisp = s.prevDisp := rfl
@[simp] theorem raiseFault_prevFill : (raiseFault c s).prevFill = s.prevFill := rfl
@[simp] theorem raiseFault_dirty : (raiseFault c s).dirty = s.dirty := rfl
@[simp] theorem raiseFault_frameNo : (raiseFault c s).frameNo = s.frameNo := rfl
@[simp] theorem raiseFault_cycleNo : (raiseFault c s).cycleNo = s.cycleNo := rfl
@[simp] theorem raiseFault_totalFrames : (raiseFault c s).totalFrames = s.totalFrames := rfl
@[simp] theorem raiseFault_lzw : (raiseFault c s).lzw = s.lzw := rfl
@[simp] theorem raiseFault_mem : (raiseFault c s).mem = s.mem := rfl
@[simp] theorem raiseFault_ev : (raiseFault c s).ev = s.ev := rfl

end

/-! ### reportUnless (`60_exceptions.md` R244) -/

section
variable (ok : Bool) (s : State)

@[simp] theorem reportUnless_cfg : (reportUnless ok s).cfg = s.cfg := by cases ok <;> rfl
@[simp] theorem reportUnless_stream : (reportUnless ok s).stream = s.stream := by cases ok <;> rfl
@[simp] theorem reportUnless_program : (reportUnless ok s).program = s.program := by cases ok <;> rfl
@[simp] theorem reportUnless_hostReads : (reportUnless ok s).hostReads = s.hostReads := by cases ok <;> rfl
@[simp] theorem reportUnless_arg0 : (reportUnless ok s).arg0 = s.arg0 := by cases ok <;> rfl
@[simp] theorem reportUnless_arg1 : (reportUnless ok s).arg1 = s.arg1 := by cases ok <;> rfl
@[simp] theorem reportUnless_arg2 : (reportUnless ok s).arg2 = s.arg2 := by cases ok <;> rfl
@[simp] theorem reportUnless_result : (reportUnless ok s).result = s.result := by cases ok <;> rfl
@[simp] theorem reportUnless_fault : (reportUnless ok s).fault = s.fault := by cases ok <;> rfl
@[simp] theorem reportUnless_key : (reportUnless ok s).key = s.key := by cases ok <;> rfl
@[simp] theorem reportUnless_code : (reportUnless ok s).code = if ok then s.code else .streamReadFailure := by cases ok <;> rfl
@[simp] theorem reportUnless_diag : (reportUnless ok s).diag = { s.diag with readFailure := s.diag.readFailure || !ok } := by cases ok <;> simp [reportUnless, reportReadFailure]
@[simp] theorem reportUnless_frame : (reportUnless ok s).frame = s.frame := by cases ok <;> rfl
@[simp] theorem reportUnless_interlace : (reportUnless ok s).interlace = s.interlace := by cases ok <;> rfl
@[simp] theorem reportUnless_gce : (reportUnless ok s).gce = s.gce := by cases ok <;> rfl
@[simp] theorem reportUnless_delay : (reportUnless ok s).delay = s.delay := by cases ok <;> rfl
@[simp] theorem reportUnless_bg : (reportUnless ok s).bg = s.bg := by cases ok <;> rfl
@[simp] theorem reportUnless_prevDisp : (reportUnless ok s).prevDisp = s.prevDisp := by cases ok <;> rfl
@[simp] theorem reportUnless_prevFill : (reportUnless ok s).prevFill = s.prevFill := by cases ok <;> rfl
@[simp] theorem reportUnless_dirty : (reportUnless ok s).dirty = s.dirty := by cases ok <;> rfl
@[simp] theorem reportUnless_frameNo : (reportUnless ok s).frameNo = s.frameNo := by cases ok <;> rfl
@[simp] theorem reportUnless_cycleNo : (reportUnless ok s).cycleNo = s.cycleNo := by cases ok <;> rfl
@[simp] theorem reportUnless_totalFrames : (reportUnless ok s).totalFrames = s.totalFrames := by cases ok <;> rfl
@[simp] theorem reportUnless_lzw : (reportUnless ok s).lzw = s.lzw := by cases ok <;> rfl
@[simp] theorem reportUnless_mem : (reportUnless ok s).mem = s.mem := by cases ok <;> rfl
@[simp] theorem reportUnless_ev : (reportUnless ok s).ev = s.ev := by cases ok <;> rfl

end

/-! ### emit (`10_state.md` R45) -/

section
variable (es : List Event) (s : State)

@[simp] theorem emit_cfg : (emit es s).cfg = s.cfg := rfl
@[simp] theorem emit_stream : (emit es s).stream = s.stream := rfl
@[simp] theorem emit_program : (emit es s).program = s.program := rfl
@[simp] theorem emit_hostReads : (emit es s).hostReads = s.hostReads := rfl
@[simp] theorem emit_arg0 : (emit es s).arg0 = s.arg0 := rfl
@[simp] theorem emit_arg1 : (emit es s).arg1 = s.arg1 := rfl
@[simp] theorem emit_arg2 : (emit es s).arg2 = s.arg2 := rfl
@[simp] theorem emit_result : (emit es s).result = s.result := rfl
@[simp] theorem emit_fault : (emit es s).fault = s.fault := rfl
@[simp] theorem emit_key : (emit es s).key = s.key := rfl
@[simp] theorem emit_code : (emit es s).code = s.code := rfl
@[simp] theorem emit_diag : (emit es s).diag = s.diag := rfl
@[simp] theorem emit_frame : (emit es s).frame = s.frame := rfl
@[simp] theorem emit_interlace : (emit es s).interlace = s.interlace := rfl
@[simp] theorem emit_gce : (emit es s).gce = s.gce := rfl
@[simp] theorem emit_delay : (emit es s).delay = s.delay := rfl
@[simp] theorem emit_bg : (emit es s).bg = s.bg := rfl
@[simp] theorem emit_prevDisp : (emit es s).prevDisp = s.prevDisp := rfl
@[simp] theorem emit_prevFill : (emit es s).prevFill = s.prevFill := rfl
@[simp] theorem emit_dirty : (emit es s).dirty = s.dirty := rfl
@[simp] theorem emit_frameNo : (emit es s).frameNo = s.frameNo := rfl
@[simp] theorem emit_cycleNo : (emit es s).cycleNo = s.cycleNo := rfl
@[simp] theorem emit_totalFrames : (emit es s).totalFrames = s.totalFrames := rfl
@[simp] theorem emit_lzw : (emit es s).lzw = s.lzw := rfl
@[simp] theorem emit_mem : (emit es s).mem = s.mem := rfl
@[simp] theorem emit_ev : (emit es s).ev = s.ev ++ es := rfl

end

theorem reportUnless_true (s : State) : reportUnless true s = s := rfl

theorem reportUnless_false (s : State) : reportUnless false s = reportReadFailure s := rfl

/-! ### The dispatcher (`30_encoding.md` R92, `60_exceptions.md` R243) -/

theorem command_of_fault {s : State} (rule : State → Result) (h : s.fault = true) :
    command s rule = .next { s with code := .faulted } := by
  simp [command, h]

theorem command_of_noFault {s : State} (rule : State → Result) (h : s.fault = false) :
    command s rule = rule { s with code := .success } := by
  simp [command, h]

/-- Everything the dispatcher can do with a command. -/
theorem command_cases (s : State) (rule : State → Result) :
    (s.fault = true ∧ command s rule = .next { s with code := .faulted })
      ∨ (s.fault = false ∧ command s rule = rule { s with code := .success }) := by
  by_cases h : s.fault = true
  · exact .inl ⟨h, command_of_fault rule h⟩
  · exact .inr ⟨by simpa using h, command_of_noFault rule (by simpa using h)⟩

end Sys2Proof.Machine
end

