-- ==== Sys2Proof/Laws/Decoder.lean ====
section
/-! SUPPORT. Laws of the decode loop (`41_lzw.md` R144, R145, R157 to R162): what a call of the decoder can change, when
it returns, that its recursion bounds are never reached, that it keeps the decoder's invariant, and that a long call is
two short ones. -/

namespace Sys2Proof.Machine

/-! ### What decoder work can change -/

/-- `t` is `s` after decoder work that stores only to addresses of `w`. -/
structure DecodeOn (w : Nat → Prop) (s t : State) : Prop where
  frame   : t = { s with
    lzw := t.lzw, stream := t.stream, mem := t.mem, diag := t.diag, code := t.code, fault := t.fault }
  stream  : s.stream.Ahead t.stream
  diag    : t.diag = { s.diag with outputClipped := t.diag.outputClipped, noEndCode := t.diag.noEndCode }
  clipped : s.diag.outputClipped = true → t.diag.outputClipped = true
  noEnd   : s.diag.noEndCode = true → t.diag.noEndCode = true
  mem     : ∀ a, ¬w a → t.mem.get a = s.mem.get a
  memWf   : s.mem.wf → t.mem.wf
  memIn   : ∀ p ∈ t.mem, w p.1 ∨ p ∈ s.mem
  fault   : (t.fault = s.fault ∧ t.code = s.code) ∨ (t.fault = true ∧ t.code = .lzwCorruptStream)

namespace DecodeOn

theorem refl (w : Nat → Prop) (s : State) : DecodeOn w s s :=
  ⟨rfl, .refl _, rfl, id, id, fun _ _ => rfl, id, fun _ h => .inr h, .inl ⟨rfl, rfl⟩⟩

theorem trans {w : Nat → Prop} {s t u : State} (h : DecodeOn w s t) (k : DecodeOn w t u) : DecodeOn w s u where
  frame := by rw [k.frame, h.frame]
  stream := h.stream.trans k.stream
  diag := by rw [k.diag, h.diag]
  clipped := fun x => k.clipped (h.clipped x)
  noEnd := fun x => k.noEnd (h.noEnd x)
  mem := fun a ha => (k.mem a ha).trans (h.mem a ha)
  memWf := fun x => k.memWf (h.memWf x)
  memIn := fun p hp => (k.memIn p hp).elim .inl (h.memIn p)
  fault := by
    rcases k.fault with ⟨a, b⟩ | hk
    · rw [a, b]; exact h.fault
    · exact .inr hk

theorem mono {w w' : Nat → Prop} {s t : State} (h : DecodeOn w s t) (hw : ∀ a, w a → w' a) : DecodeOn w' s t :=
  { h with
    mem := fun a ha => h.mem a fun hh => ha (hw a hh)
    memIn := fun p hp => (h.memIn p hp).imp (hw p.1) id }

/-- Decoder work on the LZW registers and the stream alone. -/
theorem ofLzw (w : Nat → Prop) (s : State) (z : Lzw) {t : Stream} (h : s.stream.Ahead t) :
    DecodeOn w s { s with lzw := z, stream := t } :=
  ⟨rfl, h, rfl, id, id, fun _ _ => rfl, id, fun _ h => .inr h, .inl ⟨rfl, rfl⟩⟩

section
variable {w : Nat → Prop} {s t : State} (h : DecodeOn w s t)
include h

theorem cfg : t.cfg = s.cfg := by rw [h.frame]
theorem dirty : t.dirty = s.dirty := by rw [h.frame]
theorem rect : t.frame = s.frame := by rw [h.frame]
theorem gce : t.gce = s.gce := by rw [h.frame]
theorem key : t.key = s.key := by rw [h.frame]
theorem prevDisp : t.prevDisp = s.prevDisp := by rw [h.frame]

end

end DecodeOn

/-! ### Reading one code -/

theorem readCode_on (w : Nat → Prop) (s : State) : DecodeOn w s (readCode s).2 :=
  .ofLzw w s _ (getCode_spec s.lzw s.stream).2.1

/-- The class a code decodes to is the one its state selects (`30_encoding.md` R88). -/
theorem decodeCode_selected (x : CodeCtx) (c : Nat) (h : c < 2 ^ x.cursize) : (decodeCode x c).selected x = true := by
  unfold decodeCode
  split
  · next h1 => simp [Instr.selected]; omega
  split
  · next h1 => simp [Instr.selected]; omega
  split
  · next hp =>
    split
    · simp [Instr.selected, *]
    split
    · next hc => subst hc; simp [Instr.selected, *]
    · simp [Instr.selected, *]; omega
  · next hp =>
    simp only [Bool.not_eq_true] at hp
    split
    · simp [Instr.selected, *]
    · simp [Instr.selected, *]; omega

/-- Everything the classification of a code can answer, with the condition of its class (`30_encoding.md` R88). -/
theorem decodeCode_cases (x : CodeCtx) (c : Nat) :
    (decodeCode x c = .lzwClear ∧ c = x.clearCode) ∨ (decodeCode x c = .lzwEnd ∧ c = x.endCode)
      ∨ (decodeCode x c = .lzwRoot c ∧ x.prev = false ∧ c < x.clearCode)
      ∨ (decodeCode x c = .lzwKnown c ∧ x.prev = true ∧ c < x.slot ∧ c ≠ x.clearCode ∧ c ≠ x.endCode)
      ∨ (decodeCode x c = .lzwKwkwk ∧ x.prev = true ∧ c = x.slot ∧ c ≠ x.clearCode ∧ c ≠ x.endCode)
      ∨ (decodeCode x c = .lzwInvalid c) := by
  unfold decodeCode
  by_cases h1 : c = x.clearCode
  · simp [h1]
  by_cases h2 : c = x.endCode
  · rw [if_neg h1, if_pos h2]; simp [h2]
  rw [if_neg h1, if_neg h2]
  cases hp : x.prev
  · by_cases h3 : c < x.clearCode <;> simp [h1, h2, h3]
  · by_cases h3 : c < x.slot
    · simp [h1, h2, h3]
    · by_cases h4 : c = x.slot
      · subst h4; simp [h1, h2]
      · simp [h1, h2, h3, h4]

/-- The invariant in the state a code leaves behind it. -/
theorem readCode_ok {s : State} (hmb : 10 ≤ s.cfg.lzwMaxBits ∧ s.cfg.lzwMaxBits ≤ 12)
    (h : s.lzw.Ok s.cfg.lzwMaxBits) (hc : s.lzw.st.coding = true) :
    (∀ c, (readCode s).1 = .got c → (readCode s).2.lzw.Ok s.cfg.lzwMaxBits)
      ∧ (readCode s).2.lzw.Fits ∧ (readCode s).2.lzw.endReason = .notEnded := by
  obtain ⟨p1, -, p3, p4⟩ := getCode_spec s.lzw s.stream
  have hk := h.coding hc
  have hcs : 0 < s.lzw.cursize := by have := hk.codeSize; simp only [Lzw.codeSize] at this; omega
  have hch := hk.curHigh
  have hb : (readCode s).2.lzw.nbits < 2 ^ 5 := by
    show (getCode s.lzw s.stream).2.1.nbits < 2 ^ 5
    cases hg : (getCode s.lzw s.stream).1 with
    | got c => have := (p3 c hg).2.2 hk.bits hcs; omega
    | chain => have := p4 (.inl hg); omega
    | fail => have := p4 (.inr hg); omega
  have hf := p1.fits hb h.fits
  refine ⟨fun c hg => ⟨hf, ?_, fun _ => p1.coding ((p3 c hg).2.2 hk.bits hcs) hk, fun he => ?_⟩, hf, ?_⟩
  · show (getCode s.lzw s.stream).2.1.endReason = .notEnded ↔ (getCode s.lzw s.stream).2.1.st ≠ .ended
    rw [p1.endReason, p1.st]; exact h.reason
  · have he' : (getCode s.lzw s.stream).2.1.st ≠ .decoding := he
    show (getCode s.lzw s.stream).2.1.stack = []
    rw [p1.st] at he'
    rw [p1.stack]; exact h.empty he'
  · show (getCode s.lzw s.stream).2.1.endReason = .notEnded
    rw [p1.endReason]; exact hk.noEnd

/-! ### Reading codes until a string or an end -/

/-- What an outcome says of the decoder's state (`41_lzw.md` R144, R161), of NO_END_CODE, and of CODE and FAULT. -/
def outcomeSays (o : LzwOutcome) (s t : State) : Prop :=
  match o with
  | .ok => t.lzw.st ≠ .ended ∧ t.diag.noEndCode = s.diag.noEndCode ∧ t.fault = s.fault ∧ t.code = s.code
  | .ended => t = s ∧ s.lzw.st = .ended
  | .eoi =>
    t.lzw.st = .ended ∧ t.lzw.endReason = .endCode ∧ t.diag.noEndCode = s.diag.noEndCode ∧ t.fault = s.fault
      ∧ t.code = s.code
  | .chain =>
    t.lzw.st = .ended ∧ t.lzw.endReason = .chainEnd ∧ t.diag.noEndCode = true ∧ t.fault = s.fault ∧ t.code = s.code
  | .fail =>
    t.lzw.st = .ended ∧ t.lzw.endReason = .readFailure ∧ t.diag.noEndCode = s.diag.noEndCode ∧ t.fault = s.fault
      ∧ t.code = s.code
  | .corrupt =>
    t.lzw.st = .ended ∧ t.lzw.endReason = .corrupt ∧ t.diag.noEndCode = s.diag.noEndCode ∧ t.fault = true
      ∧ t.code = .lzwCorruptStream
  | .stuck => False

theorem outcomeSays_ended {o : LzwOutcome} {s t : State} (h : outcomeSays o s t) (ho : o ≠ .ok) :
    t.lzw.st = .ended := by
  cases o with
  | ok => exact absurd rfl ho
  | ended => rw [h.1]; exact h.2
  | eoi => exact h.1
  | chain => exact h.1
  | fail => exact h.1
  | corrupt => exact h.1
  | stuck => exact h.elim

/-- A CLEAR code takes bits, whatever the state: a width of 0 bits gives the code 0, which is no CLEAR code. -/
theorem clear_takes_bits {s : State} {c : Nat} (hg : (readCode s).1 = .got c)
    (hc : c = (readCode s).2.lzw.codeCtx.clearCode) :
    bitsLeft (readCode s).2.lzw (readCode s).2.stream + 1 ≤ bitsLeft s.lzw s.stream := by
  obtain ⟨-, -, p3, -⟩ := getCode_spec s.lzw s.stream
  obtain ⟨q1, q2, -⟩ := p3 c hg
  have : 0 < c := by rw [hc]; exact Nat.two_pow_pos _
  have hz : 0 < s.lzw.cursize := by
    rcases Nat.eq_zero_or_pos s.lzw.cursize with h | h
    · rw [h] at q1; simp at q1; omega
    · exact h
  show bitsLeft (getCode s.lzw s.stream).2.1 (getCode s.lzw s.stream).2.2 + 1 ≤ _
  omega

/-- The shape of `readCodes`, by the class of the code. -/
theorem readCodes_eq (n : Nat) (s : State) :
    (∃ s1, readCode s = (.chain, s1) ∧ readCodes n s = (.chain, chainEnded s1))
      ∨ (∃ s1, readCode s = (.fail, s1) ∧ readCodes n s = (.fail, readFailed s1))
      ∨ ∃ c s1, readCode s = (.got c, s1) ∧
        ((c = s1.lzw.codeCtx.clearCode ∧
            readCodes n s = match n with | 0 => (.stuck, s1) | n' + 1 => readCodes n' (codeClear s1))
          ∨ (c = s1.lzw.codeCtx.endCode ∧ readCodes n s = (.eoi, codeEnd s1))
          ∨ (s1.lzw.prevValid = false ∧ c < s1.lzw.clearCode ∧ readCodes n s = (.ok, codeRoot c s1))
          ∨ (s1.lzw.prevValid = true ∧ c < s1.lzw.slot ∧ c ≠ s1.lzw.clearCode ∧ c ≠ s1.lzw.clearCode + 1
              ∧ readCodes n s = (.ok, codeKnown c s1))
          ∨ (s1.lzw.prevValid = true ∧ c = s1.lzw.slot ∧ readCodes n s = (.ok, codeKwkwk s1))
          ∨ (readCodes n s = (.corrupt, codeInvalid s1))) := by
  rcases hr : readCode s with ⟨f, s1⟩
  cases f with
  | chain => exact .inl ⟨s1, rfl, by unfold readCodes; rw [hr]⟩
  | fail => exact .inr (.inl ⟨s1, rfl, by unfold readCodes; rw [hr]⟩)
  | got c =>
    refine .inr (.inr ⟨c, s1, rfl, ?_⟩)
    rcases decodeCode_cases s1.lzw.codeCtx c with ⟨e, h⟩ | ⟨e, h⟩ | ⟨e, h⟩ | ⟨e, h⟩ | ⟨e, h⟩ | e
    · refine .inl ⟨h, ?_⟩
      cases n <;> (conv_lhs => unfold readCodes) <;> (rw [hr]; dsimp only; rw [e])
    · exact .inr (.inl ⟨h, by unfold readCodes; rw [hr]; dsimp only; rw [e]⟩)
    · exact .inr (.inr (.inl ⟨h.1, h.2, by unfold readCodes; rw [hr]; dsimp only; rw [e]⟩))
    · exact .inr (.inr (.inr (.inl ⟨h.1, h.2.1, h.2.2.1, h.2.2.2, by unfold readCodes; rw [hr]; dsimp only; rw [e]⟩)))
    · exact .inr (.inr (.inr (.inr (.inl ⟨h.1, h.2.1, by unfold readCodes; rw [hr]; dsimp only; rw [e]⟩))))
    · exact .inr (.inr (.inr (.inr (.inr (by unfold readCodes; rw [hr]; dsimp only; rw [e])))))

theorem chainEnded_on (w : Nat → Prop) (s : State) : DecodeOn w s (chainEnded s) :=
  ⟨rfl, .refl _, rfl, id, fun _ => rfl, fun _ _ => rfl, id, fun _ h => .inr h, .inl ⟨rfl, rfl⟩⟩

theorem codeInvalid_on (w : Nat → Prop) (s : State) : DecodeOn w s (codeInvalid s) :=
  ⟨rfl, .refl _, rfl, id, id, fun _ _ => rfl, id, fun _ h => .inr h, .inr ⟨rfl, rfl⟩⟩

theorem acceptString_stack {c : Nat} {str : List Byte} {z : Lzw} (h : str ≠ []) : (acceptString c str z).stack ≠ [] := by
  simp [acceptString, h]

/-- Everything reading codes can do, given a bound of at least the bits left. -/
theorem readCodes_spec (w : Nat → Prop) (n : Nat) (s : State) (hn : bitsLeft s.lzw s.stream ≤ n) :
    DecodeOn w s (readCodes n s).2 ∧ outcomeSays (readCodes n s).1 s (readCodes n s).2
      ∧ (readCodes n s).2.diag.outputClipped = s.diag.outputClipped
      ∧ (readCodes n s).2.mem = s.mem
      ∧ (readCodes n s).1 ≠ .ended
      ∧ ((readCodes n s).1 = .ok → (readCodes n s).2.lzw.stack ≠ [] ∧ (readCodes n s).2.lzw.st = .decoding) := by
  induction n using Nat.strong_induction_on generalizing s with
  | _ n ih =>
    have hro := readCode_on w s
    have hst : ∀ s1, (readCode s).2 = s1 → s1.diag = s.diag ∧ s1.mem = s.mem ∧ s1.fault = s.fault ∧ s1.code = s.code := by
      rintro _ rfl
      exact ⟨rfl, rfl, rfl, rfl⟩
    rcases readCodes_eq n s with ⟨s1, hr, e⟩ | ⟨s1, hr, e⟩ | ⟨c, s1, hr, h⟩
    all_goals
      have hs1 : (readCode s).2 = s1 := by rw [hr]
      rw [hs1] at hro
      obtain ⟨d1, d2, d3, d4⟩ := hst s1 hs1
    · rw [e]
      exact ⟨hro.trans (chainEnded_on ..), ⟨rfl, rfl, rfl, d3, d4⟩, by show s1.diag.outputClipped = _; rw [d1],
        d2, by simp, by simp⟩
    · rw [e]
      exact ⟨hro.trans (.ofLzw w s1 _ (.refl _)), ⟨rfl, rfl, by show s1.diag.noEndCode = _; rw [d1], d3, d4⟩,
        by show s1.diag.outputClipped = _; rw [d1], d2, by simp, by simp⟩
    rcases h with ⟨hc, e⟩ | ⟨-, e⟩ | ⟨-, -, e⟩ | ⟨-, -, -, -, e⟩ | ⟨-, -, e⟩ | e
    · have hb := clear_takes_bits (s := s) (c := c) (by rw [hr]) (by rw [hs1]; exact hc)
      rw [hs1] at hb
      cases n with
      | zero => omega
      | succ n =>
        dsimp only at e
        rw [e]
        have hb' : bitsLeft (codeClear s1).lzw (codeClear s1).stream = bitsLeft s1.lzw s1.stream := rfl
        obtain ⟨i1, i2, i3, i4, i5, i6⟩ := ih n (by omega) (codeClear s1) (by omega)
        refine ⟨(hro.trans (.ofLzw w s1 _ (.refl _))).trans i1, ?_, i3.trans ?_, i4.trans d2, i5, i6⟩
        · have q1 : (codeClear s1).diag.noEndCode = s.diag.noEndCode := by show s1.diag.noEndCode = _; rw [d1]
          have q2 : (codeClear s1).fault = s.fault := d3
          have q3 : (codeClear s1).code = s.code := d4
          revert i2 i5
          cases (readCodes n (codeClear s1)).1 <;> simp only [outcomeSays, q1, q2, q3] <;> simp
        · show s1.diag.outputClipped = _
          rw [d1]
    · rw [e]
      exact ⟨hro.trans (.ofLzw w s1 _ (.refl _)), ⟨rfl, rfl, by show s1.diag.noEndCode = _; rw [d1], d3, d4⟩,
        by show s1.diag.outputClipped = _; rw [d1], d2, by simp, by simp⟩
    · rw [e]
      exact ⟨hro.trans (.ofLzw w s1 _ (.refl _)),
        ⟨by simp [codeRoot, acceptString], by show s1.diag.noEndCode = _; rw [d1], d3, d4⟩,
        by show s1.diag.outputClipped = _; rw [d1], d2, by simp,
        fun _ => ⟨acceptString_stack (by simp), rfl⟩⟩
    · rw [e]
      exact ⟨hro.trans (.ofLzw w s1 _ (.refl _)),
        ⟨by simp [codeKnown, acceptString], by show s1.diag.noEndCode = _; rw [d1], d3, d4⟩,
        by show s1.diag.outputClipped = _; rw [d1], d2, by simp,
        fun _ => ⟨acceptString_stack (stringOf_ne_nil _ _), rfl⟩⟩
    · rw [e]
      exact ⟨hro.trans (.ofLzw w s1 _ (.refl _)),
        ⟨by simp [codeKwkwk, acceptString], by show s1.diag.noEndCode = _; rw [d1], d3, d4⟩,
        by show s1.diag.outputClipped = _; rw [d1], d2, by simp,
        fun _ => ⟨acceptString_stack (by simp), rfl⟩⟩
    · rw [e]
      exact ⟨hro.trans (codeInvalid_on ..), ⟨rfl, rfl, by show s1.diag.noEndCode = _; rw [d1], rfl, rfl⟩,
        by show s1.diag.outputClipped = _; rw [d1], d2, by simp, by simp⟩

/-- Reading codes keeps the decoder's invariant (`41_lzw.md` R162). -/
theorem readCodes_ok {s : State} (n : Nat) (hmb : 10 ≤ s.cfg.lzwMaxBits ∧ s.cfg.lzwMaxBits ≤ 12)
    (h : s.lzw.Ok s.cfg.lzwMaxBits) (hc : s.lzw.st.coding = true) (hs : s.lzw.stack = []) :
    (readCodes n s).2.lzw.Ok s.cfg.lzwMaxBits := by
  induction n using Nat.strong_induction_on generalizing s with
  | _ n ih =>
    obtain ⟨k1, k2, k3⟩ := readCode_ok hmb h hc
    obtain ⟨p1, -, p3, -⟩ := getCode_spec s.lzw s.stream
    rcases readCodes_eq n s with ⟨s1, hr, e⟩ | ⟨s1, hr, e⟩ | ⟨c, s1, hr, hcl⟩
    all_goals
      have hs1 : (readCode s).2 = s1 := by rw [hr]
      rw [hs1] at k1 k2 k3
    · rw [e]; exact lzwStop_ok k2 (by simp) (hs1 ▸ p1.stack.trans hs)
    · rw [e]; exact lzwStop_ok k2 (by simp) (hs1 ▸ p1.stack.trans hs)
    have hok := k1 c (by rw [hr])
    have hz : (getCode s.lzw s.stream).2.1 = s1.lzw := by rw [← hs1]; rfl
    have hcfg : s1.cfg = s.cfg := by rw [← hs1]; rfl
    have hg : (getCode s.lzw s.stream).1 = .got c := by
      show (readCode s).1 = _
      rw [hr]
    rw [hz] at p1
    have hc1 : s1.lzw.st.coding = true := by rw [p1.st]; exact hc
    have hs1' : s1.lzw.stack = [] := by rw [p1.stack]; exact hs
    have hw : c < 2 ^ s1.lzw.cursize := by rw [p1.cursize]; exact (p3 c hg).1
    rcases hcl with ⟨-, e⟩ | ⟨-, e⟩ | ⟨hv, hl, e⟩ | ⟨hv, hl, h1, h2, e⟩ | ⟨hv, hl, e⟩ | e
    · have hcd := clearDict_ok hmb hok hc1 hs1'
      cases n with
      | zero => dsimp only at e; rw [e]; exact hok
      | succ n =>
        dsimp only at e
        rw [e]
        have := ih n (by omega) (s := codeClear s1) (by rw [show (codeClear s1).cfg = s.cfg from hcfg]; exact hmb)
          (by rw [show (codeClear s1).cfg = s.cfg from hcfg]; exact hcd) rfl hs1'
        rwa [show (codeClear s1).cfg = s.cfg from hcfg] at this
    · rw [e]; exact lzwStop_ok hok.fits (by simp) hs1'
    · rw [e]; exact root_ok hmb hok hc1 hs1' hl
    · rw [e, ← hcfg]; rw [← hcfg] at hok hmb; exact known_ok hmb hok hc1 hs1' hv hl h1 h2 _
    · rw [e, ← hcfg]; rw [← hcfg] at hok hmb
      exact kwkwk_ok hmb hok hc1 hs1' hv (hl ▸ hw)
    · rw [e]; exact lzwStop_ok hok.fits (by simp) hs1'

/-! ### The loop over the bytes -/

/-- Everything a refill can do. -/
theorem refill_spec (w : Nat → Prop) (s : State) :
    DecodeOn w s (refill s).2
      ∧ (s.lzw.st ≠ .ended → outcomeSays (refill s).1 s (refill s).2)
      ∧ (refill s).2.diag.outputClipped = s.diag.outputClipped
      ∧ (refill s).2.mem = s.mem
      ∧ (refill s).1 ≠ .ended
      ∧ ((refill s).1 = .ok → (refill s).2.lzw.stack ≠ []) := by
  unfold refill
  split
  · next b rest h => exact ⟨.refl .., fun hs => ⟨hs, rfl, rfl, rfl⟩, rfl, rfl, by simp, fun _ => by simp [h]⟩
  · next h =>
    obtain ⟨a, b, c, d, e, f⟩ := readCodes_spec w _ s (le_refl _)
    exact ⟨a, fun _ => b, c, d, e, fun ho => (f ho).1⟩

theorem refill_ok {s : State} (hmb : 10 ≤ s.cfg.lzwMaxBits ∧ s.cfg.lzwMaxBits ≤ 12)
    (h : s.lzw.Ok s.cfg.lzwMaxBits) (hc : s.lzw.st.coding = true) :
    (refill s).2.lzw.Ok s.cfg.lzwMaxBits ∧ ((refill s).1 = .ok → (refill s).2.lzw.st.coding = true) := by
  unfold refill
  split
  · exact ⟨h, fun _ => hc⟩
  · next he =>
    refine ⟨readCodes_ok _ hmb h hc he, fun ho => ?_⟩
    rw [((readCodes_spec (fun _ => True) _ s (le_refl _)).2.2.2.2.2 ho).2]
    rfl

/-- Putting one byte out stores to one address, and only below the end bound (`41_lzw.md` R145). -/
theorem popByte_on {w : Nat → Prop} {lim out : Nat} (b : Byte) (rest : List Byte) (s : State) (h : out < lim → w out) :
    DecodeOn w s (popByte lim out b rest s) := by
  unfold popByte putByte
  split
  · next hlt =>
    exact ⟨rfl, .refl _, rfl, id, id, fun a ha => Memory.get_set_other _ _ fun e => ha (e ▸ h hlt), Memory.set_wf _ _,
      fun p hp => (Memory.mem_set hp).imp (fun e => by rw [e]; exact h hlt) id, .inl ⟨rfl, rfl⟩⟩
  · exact ⟨rfl, .refl _, rfl, fun _ => rfl, id, fun _ _ => rfl, id, fun _ h => .inr h, .inl ⟨rfl, rfl⟩⟩

theorem popByte_ok {mb : Nat} {s : State} {b : Byte} {rest : List Byte} (lim out : Nat) (h : s.lzw.Ok mb)
    (hs : s.lzw.stack = b :: rest) : (popByte lim out b rest s).lzw.Ok mb := by
  have hl : (popByte lim out b rest s).lzw = { s.lzw with stack := rest } := by
    unfold popByte putByte; split <;> rfl
  rw [hl]
  have hlen : rest.length < s.lzw.stack.length := by rw [hs]; simp
  obtain ⟨a, b', c, d, e, f, g, i, j⟩ := h.fits
  refine ⟨⟨a, b', c, d, e, f, g, i, hlen.trans j⟩, h.reason, fun hc => ?_, fun he => ?_⟩
  · obtain ⟨q1, q2, q3, q4, q5, q6, q7, q8, q9, q10, q11, q12, q13⟩ := h.coding hc
    refine ⟨q1, q2, q3, q4, q5, q6, q7, q8, q9, fun hv => ⟨(q10 hv).1, ?_⟩, hlen.trans q11, q12, q13⟩
    show s.lzw.first = firstByte (stringOf { s.lzw with stack := rest } s.lzw.prevCode)
    rw [(q10 hv).2]
    congr 1
    exact (stringOf_congr (z := s.lzw) (z' := { s.lzw with stack := rest }) rfl (fun _ _ _ => ⟨rfl, rfl⟩) q9
      (q10 hv).1).symm
  · have := h.empty he
    rw [hs] at this
    cases this

/-- The loop by its first byte. -/
theorem decodeLoop_succ (lim n out k : Nat) (s : State) :
    ((refill s).1 ≠ .ok ∧ decodeLoop lim (n + 1) out k s = { outcome := (refill s).1, count := k, state := (refill s).2 })
      ∨ ((refill s).1 = .ok ∧ ∃ b rest, (refill s).2.lzw.stack = b :: rest
          ∧ decodeLoop lim (n + 1) out k s = decodeLoop lim n (out + 1) (k + 1) (popByte lim out b rest (refill s).2)) := by
  have hsp := (refill_spec (fun _ => True) s).2.2.2.2.2
  rcases hr : refill s with ⟨o, s1⟩
  rw [hr] at hsp
  cases o with
  | ok =>
    refine .inr ⟨rfl, ?_⟩
    have hne : s1.lzw.stack ≠ [] := hsp rfl
    cases hs : s1.lzw.stack with
    | nil => exact absurd hs hne
    | cons b rest => exact ⟨b, rest, rfl, by simp only [decodeLoop, hr, hs]⟩
  | _ => exact .inl ⟨by simp, by simp only [decodeLoop, hr]⟩

/-- Everything the decode loop can do (`41_lzw.md` R144, R145): it produces at most `n` bytes, all of them exactly when
its outcome is OK; it stores only below the end bound, at the addresses of the bytes it produced; and its recursion bounds
are never reached. -/
theorem decodeLoop_spec (lim n out k : Nat) (s : State) (hs : s.lzw.st ≠ .ended) :
    DecodeOn (fun a => out ≤ a ∧ a < min lim (out + ((decodeLoop lim n out k s).count - k))) s
        (decodeLoop lim n out k s).state
      ∧ outcomeSays (decodeLoop lim n out k s).outcome s (decodeLoop lim n out k s).state
      ∧ (decodeLoop lim n out k s).outcome ≠ .ended
      ∧ k ≤ (decodeLoop lim n out k s).count
      ∧ (if (decodeLoop lim n out k s).outcome = .ok then (decodeLoop lim n out k s).count = k + n
          else (decodeLoop lim n out k s).count < k + n) := by
  induction n generalizing out k s with
  | zero => exact ⟨.refl .., ⟨hs, rfl, rfl, rfl⟩, by simp [decodeLoop], by simp [decodeLoop], by simp [decodeLoop]⟩
  | succ n ih =>
    obtain ⟨-, r2, r3, r4, r5, r6⟩ := refill_spec (fun _ => True) s
    rcases decodeLoop_succ lim n out k s with ⟨ho, e⟩ | ⟨ho, b, rest, hst, e⟩
    · rw [e]
      exact ⟨(refill_spec _ s).1, r2 hs, r5, le_refl _, by simp only [ho, if_false]; omega⟩
    · rw [e]
      have hso := r2 hs
      rw [ho] at hso
      have hl : (popByte lim out b rest (refill s).2).lzw = { (refill s).2.lzw with stack := rest } := by
        unfold popByte putByte; split <;> rfl
      have hpd : (popByte lim out b rest (refill s).2).diag.noEndCode = (refill s).2.diag.noEndCode
          ∧ (popByte lim out b rest (refill s).2).fault = (refill s).2.fault
          ∧ (popByte lim out b rest (refill s).2).code = (refill s).2.code := by
        unfold popByte putByte; split <;> exact ⟨rfl, rfl, rfl⟩
      obtain ⟨i1, i2, i3, i4, i5⟩ := ih (out + 1) (k + 1) (popByte lim out b rest (refill s).2)
        (by rw [hl]; exact hso.1)
      have hp := popByte_on (w := fun a => out ≤ a ∧ a < min lim
        (out + ((decodeLoop lim n (out + 1) (k + 1) (popByte lim out b rest (refill s).2)).count - k)))
        (lim := lim) (out := out) b rest (refill s).2 (by omega)
      refine ⟨((refill_spec _ s).1.trans hp).trans (i1.mono fun a => by omega), ?_, i3, by omega, ?_⟩
      · have q1 := hpd.1.trans hso.2.1
        have q2 := hpd.2.1.trans hso.2.2.1
        have q3 := hpd.2.2.trans hso.2.2.2
        revert i2 i3
        cases (decodeLoop lim n (out + 1) (k + 1) (popByte lim out b rest (refill s).2)).outcome <;>
          simp only [outcomeSays, q1, q2, q3] <;> simp
      · split at i5 <;> simp_all <;> omega

/-- The decode loop keeps the decoder's invariant. -/
theorem decodeLoop_ok {s : State} (lim n out k : Nat) (hmb : 10 ≤ s.cfg.lzwMaxBits ∧ s.cfg.lzwMaxBits ≤ 12)
    (h : s.lzw.Ok s.cfg.lzwMaxBits) (hc : s.lzw.st.coding = true) :
    (decodeLoop lim n out k s).state.lzw.Ok s.cfg.lzwMaxBits := by
  induction n generalizing out k s with
  | zero => exact h
  | succ n ih =>
    obtain ⟨k1, k2⟩ := refill_ok hmb h hc
    rcases decodeLoop_succ lim n out k s with ⟨ho, e⟩ | ⟨ho, b, rest, hst, e⟩
    · rw [e]; exact k1
    · rw [e]
      have hcfg : (popByte lim out b rest (refill s).2).cfg = s.cfg := by
        rw [← (refill_spec (fun _ => True) s).1.cfg]
        unfold popByte putByte; split <;> rfl
      have hl : (popByte lim out b rest (refill s).2).lzw = { (refill s).2.lzw with stack := rest } := by
        unfold popByte putByte; split <;> rfl
      have := ih (s := popByte lim out b rest (refill s).2) (out + 1) (k + 1) (by rw [hcfg]; exact hmb)
        (by rw [hcfg]; exact popByte_ok lim out k1 hst) (by rw [hl]; exact k2 ho)
      rwa [hcfg] at this

/-- A long loop is two short ones (`41_lzw.md` R157). -/
theorem decodeLoop_add (lim n1 n2 out k : Nat) (s : State) :
    decodeLoop lim (n1 + n2) out k s =
      if (decodeLoop lim n1 out k s).outcome = .ok then
        decodeLoop lim n2 (out + n1) (decodeLoop lim n1 out k s).count (decodeLoop lim n1 out k s).state
      else decodeLoop lim n1 out k s := by
  induction n1 generalizing out k s with
  | zero => simp [decodeLoop]
  | succ n ih =>
    rw [show n + 1 + n2 = n + n2 + 1 by omega]
    rcases decodeLoop_succ lim (n + n2) out k s with ⟨ho, e⟩ | ⟨ho, b, rest, hst, e⟩ <;>
      rcases decodeLoop_succ lim n out k s with ⟨ho', e'⟩ | ⟨ho', b', rest', hst', e'⟩
    · rw [e, e']; simp [ho]
    · exact absurd ho' ho
    · exact absurd ho ho'
    · rw [hst] at hst'
      obtain ⟨rfl, rfl⟩ := List.cons.inj hst'
      rw [e, e', ih, show out + 1 + n = out + (n + 1) by omega]

/-! ### LzwDecode -/

/-- Everything `LzwDecode(dst, len, end)` can do (`41_lzw.md` R144, R145, R158). -/
theorem lzwDecode_spec (dst len lim : Nat) (s : State) :
    DecodeOn (fun a => dst ≤ a ∧ a < min lim (dst + (lzwDecode dst len lim s).count)) s (lzwDecode dst len lim s).state
      ∧ outcomeSays (lzwDecode dst len lim s).outcome s (lzwDecode dst len lim s).state
      ∧ (lzwDecode dst len lim s).count ≤ len
      ∧ ((lzwDecode dst len lim s).outcome = .ok → (lzwDecode dst len lim s).count = len)
      ∧ (s.lzw.st ≠ .ended → (lzwDecode dst len lim s).outcome ≠ .ok → (lzwDecode dst len lim s).count < len)
      ∧ ((lzwDecode dst len lim s).outcome = .ended → (lzwDecode dst len lim s).count = 0) := by
  unfold lzwDecode
  split
  · next h => exact ⟨.refl .., ⟨rfl, h⟩, Nat.zero_le _, by simp, fun hn => absurd h hn, fun _ => rfl⟩
  · next h =>
    obtain ⟨a, b, c, d, e⟩ := decodeLoop_spec lim len dst 0 s h
    refine ⟨by simpa using a, b, ?_, fun ho => ?_, fun _ ho => ?_, fun ho => absurd ho c⟩
    · split at e <;> omega
    · rw [if_pos ho] at e; omega
    · rw [if_neg ho] at e; omega

/-- OUTPUT_CLIPPED after the loop: it was set, or a byte produced had its address at or above the end bound (`41_lzw.md`
R145). -/
theorem decodeLoop_clipped (lim n out k : Nat) (s : State) (hs : s.lzw.st ≠ .ended) :
    (decodeLoop lim n out k s).state.diag.outputClipped = (s.diag.outputClipped
      || decide (k < (decodeLoop lim n out k s).count ∧ lim < out + ((decodeLoop lim n out k s).count - k))) := by
  induction n generalizing out k s with
  | zero => simp [decodeLoop]
  | succ n ih =>
    obtain ⟨-, r2, r3, -⟩ := refill_spec (fun _ => True) s
    rcases decodeLoop_succ lim n out k s with ⟨ho, e⟩ | ⟨ho, b, rest, hst, e⟩
    · rw [e, r3]; simp
    · have hso := r2 hs
      rw [ho] at hso
      have hpop : (popByte lim out b rest (refill s).2).lzw.st = (refill s).2.lzw.st
          ∧ (popByte lim out b rest (refill s).2).diag.outputClipped
            = (s.diag.outputClipped || decide (lim ≤ out)) := by
        unfold popByte putByte
        split
        · next h => exact ⟨rfl, r3.trans (by simp [h])⟩
        · next h => exact ⟨rfl, by simp; omega⟩
      have hne : (popByte lim out b rest (refill s).2).lzw.st ≠ .ended := by rw [hpop.1]; exact hso.1
      have hk := (decodeLoop_spec lim n (out + 1) (k + 1) _ hne).2.2.2.1
      rw [e, ih _ _ _ hne, hpop.2, Bool.or_assoc, ← Bool.decide_or]
      congr 1
      rw [decide_eq_decide]
      omega

theorem lzwDecode_clipped (dst len lim : Nat) (s : State) :
    (lzwDecode dst len lim s).state.diag.outputClipped = (s.diag.outputClipped
      || decide (0 < (lzwDecode dst len lim s).count ∧ lim < dst + (lzwDecode dst len lim s).count)) := by
  unfold lzwDecode
  split
  · simp
  · next h => exact decodeLoop_clipped lim len dst 0 s h

/-- A decoder that was initialised stays so. -/
theorem decodeLoop_init (lim n out k : Nat) (s : State) (h : s.lzw.st ≠ .uninitialized) :
    (decodeLoop lim n out k s).state.lzw.st ≠ .uninitialized := by
  induction n generalizing out k s with
  | zero => exact h
  | succ n ih =>
    have hr : (refill s).2.lzw.st ≠ .uninitialized := by
      unfold refill
      split
      · exact h
      · obtain ⟨-, b, -, -, -, f⟩ := readCodes_spec (fun _ => True) _ s (le_refl _)
        by_cases ho : (readCodes (bitsLeft s.lzw s.stream) s).1 = .ok
        · rw [(f ho).2]; simp
        · rw [outcomeSays_ended b ho]; simp
    rcases decodeLoop_succ lim n out k s with ⟨-, e⟩ | ⟨-, b, rest, -, e⟩
    · rw [e]; exact hr
    · rw [e]
      refine ih _ _ _ ?_
      have hl : (popByte lim out b rest (refill s).2).lzw = { (refill s).2.lzw with stack := rest } := by
        unfold popByte putByte; split <;> rfl
      rw [hl]
      exact hr

theorem lzwDecode_init (dst len lim : Nat) (s : State) (h : s.lzw.st ≠ .uninitialized) :
    (lzwDecode dst len lim s).state.lzw.st ≠ .uninitialized := by
  unfold lzwDecode
  split
  · exact h
  · exact decodeLoop_init lim len dst 0 s h

/-- `LzwDecode` keeps the decoder's invariant (`41_lzw.md` R162). -/
theorem lzwDecode_ok {s : State} (dst len lim : Nat) (hmb : 10 ≤ s.cfg.lzwMaxBits ∧ s.cfg.lzwMaxBits ≤ 12)
    (h : s.lzw.Ok s.cfg.lzwMaxBits) (hu : s.lzw.st ≠ .uninitialized) :
    (lzwDecode dst len lim s).state.lzw.Ok s.cfg.lzwMaxBits := by
  unfold lzwDecode
  split
  · exact h
  · next he => exact decodeLoop_ok lim len dst 0 hmb h ((LzwSt.coding_iff _).2 ⟨hu, he⟩)

/-! ### LZW_DECODE -/

/-- How LZW_DECODE ends (`41_lzw.md` R143). -/
theorem execLzwDecode_cases (s : State) (hf : s.fault = false) :
    (s.lzw.st = .uninitialized ∧ execLzwDecode s = .next (raiseFault .badSequence { s with code := .success }))
      ∨ (s.lzw.st ≠ .uninitialized ∧ rangeWritable s.cfg (arg0Nat s) (min (arg2Nat s) (arg0Nat s + arg1Nat s)) = false
        ∧ execLzwDecode s = .next (raiseFault .badArgument { s with code := .success }))
      ∨ (s.lzw.st ≠ .uninitialized ∧ rangeWritable s.cfg (arg0Nat s) (min (arg2Nat s) (arg0Nat s + arg1Nat s)) = true
        ∧ ∃ d, d = lzwDecode (arg0Nat s) (arg1Nat s) (arg2Nat s) { s with code := .success }
          ∧ execLzwDecode s = .next (
            match d.outcome with
            | .corrupt => raiseFault .lzwCorruptStream { d.state with result := BitVec.ofNat 32 d.count }
            | .fail => reportReadFailure { d.state with result := BitVec.ofNat 32 d.count }
            | .ok | .ended | .eoi | .chain | .stuck => { d.state with result := BitVec.ofNat 32 d.count })) := by
  unfold execLzwDecode
  rw [command_of_noFault _ hf]
  dsimp only [arg0Nat, arg1Nat, arg2Nat]
  by_cases h1 : s.lzw.st = .uninitialized
  · exact .inl ⟨h1, by rw [if_pos h1]⟩
  · rw [if_neg h1]
    by_cases h2 : rangeWritable s.cfg s.arg0.toNat (min s.arg2.toNat (s.arg0.toNat + s.arg1.toNat)) = true
    · refine .inr (.inr ⟨h1, h2, _, rfl, ?_⟩)
      refine (if_pos h2).trans ?_
      have hs := (lzwDecode_spec s.arg0.toNat s.arg1.toNat s.arg2.toNat { s with code := .success }).2.1
      revert hs
      simp only [finishDecode]
      cases (lzwDecode s.arg0.toNat s.arg1.toNat s.arg2.toNat { s with code := .success }).outcome <;>
        intro hs <;> first | rfl | exact hs.elim
    · exact .inr (.inl ⟨h1, by simpa using h2, if_neg h2⟩)

/-- Everything LZW_DECODE can change. -/
theorem execLzwDecode_on {s t : State} (hf : s.fault = false) (h : execLzwDecode s = .next t) :
    t = { s with lzw := t.lzw, stream := t.stream, mem := t.mem, diag := t.diag, code := t.code, fault := t.fault, result := t.result }
    ∧ s.stream.Ahead t.stream
    ∧ t.diag = { s.diag with outputClipped := t.diag.outputClipped, noEndCode := t.diag.noEndCode, readFailure := t.diag.readFailure }
    ∧ (s.diag.outputClipped = true → t.diag.outputClipped = true) ∧ (s.diag.noEndCode = true → t.diag.noEndCode = true)
    ∧ (t.diag.readFailure = true ↔ s.diag.readFailure = true ∨ t.code = .streamReadFailure)
    ∧ (t.code ∈ [CmdCode.badCommand, .badArgument, .badSequence, .faulted] → t.result = s.result)
    ∧ (∀ a, writable s.cfg a = false → t.mem.get a = s.mem.get a)
    ∧ (MemOk s.cfg s.mem → MemOk s.cfg t.mem)
    ∧ (t.code ∈ [CmdCode.success, .streamReadFailure] ∧ t.fault = s.fault ∨ t.code ∈ [CmdCode.lzwCorruptStream, .badCommand, .badArgument, .badSequence] ∧ t.fault = true) := by
  rcases execLzwDecode_cases s hf with ⟨-, e⟩ | ⟨-, -, e⟩ | ⟨-, hw, d, ed, e⟩
  · rw [e] at h; cases h
    exact ⟨rfl, .refl _, rfl, id, id, by simp, fun _ => rfl, fun _ _ => rfl, id, by simp⟩
  · rw [e] at h; cases h
    exact ⟨rfl, .refl _, rfl, id, id, by simp, fun _ => rfl, fun _ _ => rfl, id, by simp⟩
  · obtain ⟨d1, d2, d3, -, -, -⟩ := lzwDecode_spec (arg0Nat s) (arg1Nat s) (arg2Nat s) { s with code := .success }
    rw [← ed] at d1 d2 d3
    have hwr : ∀ a, writable s.cfg a = false → d.state.mem.get a = s.mem.get a := by
      intro a ha
      refine d1.mem a fun hh => ?_
      have := (rangeWritable_iff _ _ _).1 hw a hh.1 (by omega)
      rw [ha] at this; cases this
    have hmok : MemOk s.cfg s.mem → MemOk s.cfg d.state.mem := by
      intro hm
      refine ⟨d1.memWf hm.1, fun p hp => ?_⟩
      rcases d1.memIn p hp with hh | hh
      · exact readable_of_writable ((rangeWritable_iff _ _ _).1 hw p.1 hh.1 (by omega))
      · exact hm.2 p hh
    have hfr := d1.frame
    rw [e] at h
    have hrf : d.state.diag.readFailure = s.diag.readFailure := by rw [d1.diag]
    revert h d2
    cases d.outcome <;> simp only [Host.Outcome.next.injEq, outcomeSays]
    all_goals
      intro h d2
      rw [← h]
    · exact ⟨by rw [hfr], d1.stream, by rw [d1.diag], d1.clipped, d1.noEnd, by simp [d2, hrf], by simp [d2], hwr, hmok, by simp [d2]⟩
    · exact ⟨by rw [hfr], d1.stream, by rw [d1.diag], d1.clipped, d1.noEnd, by simp [d2], by simp [d2], hwr, hmok, by simp [d2]⟩
    · exact ⟨by rw [hfr], d1.stream, by rw [d1.diag], d1.clipped, d1.noEnd, by simp [d2, hrf], by simp [d2], hwr, hmok, by simp [d2]⟩
    · exact ⟨by rw [hfr], d1.stream, by rw [d1.diag], d1.clipped, d1.noEnd, by simp [d2, hrf], by simp [d2], hwr, hmok, by simp [d2]⟩
    · exact ⟨by rw [hfr]; try rfl, d1.stream, by rw [d1.diag]; try rfl, d1.clipped, d1.noEnd, by simp [reportReadFailure], by simp [reportReadFailure], hwr, hmok, by simp [reportReadFailure, d2]⟩
    · exact ⟨by rw [hfr]; try rfl, d1.stream, by rw [d1.diag]; try rfl, d1.clipped, d1.noEnd, by simp [hrf], by simp, hwr, hmok, by simp⟩
    · exact d2.elim

end Sys2Proof.Machine
end

