-- ==== Sys2Proof/Laws/Compositor.lean ====
section
/-! SUPPORT. Laws of the compositor (`42_compositor.md`): rectangles and the two buffer operations (R185), the row order
(R197), the row placement (R198), the rows (R199, R200), the steps before them (R190 to R196). -/

namespace Sys2Proof.Machine

/-! ### Rectangles -/

theorem mem_rectPixels {r : Rect} {p : Nat × Nat} :
    p ∈ rectPixels r ↔ (r.x.toNat ≤ p.1 ∧ p.1 < r.x.toNat + r.w.toNat) ∧ (r.y.toNat ≤ p.2 ∧ p.2 < r.y.toNat + r.h.toNat) := by
  obtain ⟨x, y⟩ := p
  simp only [rectPixels, List.mem_flatMap, List.mem_range, List.mem_map, Prod.mk.injEq]
  constructor
  · rintro ⟨dy, hy, dx, hx, rfl, rfl⟩
    omega
  · rintro ⟨h1, h2⟩
    exact ⟨y - r.y.toNat, by omega, x - r.x.toNat, by omega, by omega, by omega⟩

/-- The clipped rectangle keeps the corner (`42_compositor.md` R185). -/
theorem clip_xy (c : Config) (r : Rect) : (clip c r).x = r.x ∧ (clip c r).y = r.y := by
  unfold clip
  dsimp only
  generalize (if r.x.toNat < c.maxW then min r.w.toNat (c.maxW - r.x.toNat) else 0) = cw
  generalize (if r.y.toNat < c.maxH then min r.h.toNat (c.maxH - r.y.toNat) else 0) = ch
  split <;> exact ⟨rfl, rfl⟩

/-- The sizes of the clipped rectangle (`42_compositor.md` R185). -/
theorem clip_wh (c : Config) (r : Rect) :
    ((clip c r).w.toNat = min r.w.toNat (c.maxW - r.x.toNat) ∧ (clip c r).h.toNat = min r.h.toNat (c.maxH - r.y.toNat)
        ∧ 0 < (clip c r).w.toNat ∧ 0 < (clip c r).h.toNat)
      ∨ ((clip c r).w.toNat = 0 ∧ (clip c r).h.toNat = 0
        ∧ (min r.w.toNat (c.maxW - r.x.toNat) = 0 ∨ min r.h.toNat (c.maxH - r.y.toNat) = 0)) := by
  have hw := r.w.isLt
  have hh := r.h.isLt
  have e : (if r.x.toNat < c.maxW then min r.w.toNat (c.maxW - r.x.toNat) else 0) = min r.w.toNat (c.maxW - r.x.toNat) := by
    split <;> omega
  have e' : (if r.y.toNat < c.maxH then min r.h.toNat (c.maxH - r.y.toNat) else 0) = min r.h.toNat (c.maxH - r.y.toNat) := by
    split <;> omega
  unfold clip
  rw [e, e']
  dsimp only
  split
  · next h => exact .inr ⟨rfl, rfl, h⟩
  · next h =>
    left
    simp only [BitVec.toNat_ofNat]
    rw [Nat.mod_eq_of_lt (by omega), Nat.mod_eq_of_lt (by omega)]
    omega

/-- A clipped rectangle is inside the canvas or empty. -/
theorem clip_inCanvas (c : Config) (r : Rect) : (clip c r).inCanvas c := by
  obtain ⟨hx, hy⟩ := clip_xy c r
  rcases clip_wh c r with ⟨h1, h2, h3, h4⟩ | ⟨h1, h2, -⟩
  · right
    rw [hx, hy, h1, h2]
    omega
  · exact .inl ⟨BitVec.eq_of_toNat_eq h1, BitVec.eq_of_toNat_eq h2⟩

/-- The pixels of a clipped rectangle are the pixels of the rectangle that the canvas has. -/
theorem mem_rectPixels_clip {c : Config} {r : Rect} {p : Nat × Nat} :
    p ∈ rectPixels (clip c r) ↔ p ∈ rectPixels r ∧ p.1 < c.maxW ∧ p.2 < c.maxH := by
  obtain ⟨hx, hy⟩ := clip_xy c r
  rw [mem_rectPixels, mem_rectPixels, hx, hy]
  rcases clip_wh c r with ⟨h1, h2, h3, h4⟩ | ⟨h1, h2, h3⟩
  · rw [h1, h2]; omega
  · rw [h1, h2]; omega

theorem canvas_inCanvas {c : Config} (h : legalConfig c = true) : (canvas c).inCanvas c := by
  simp only [legalConfig, Bool.and_eq_true, decide_eq_true_eq] at h
  right
  simp only [canvas, BitVec.toNat_ofNat]
  rw [Nat.mod_eq_of_lt (by omega), Nat.mod_eq_of_lt (by omega)]
  simp

theorem mem_rectPixels_canvas {c : Config} (h : legalConfig c = true) {p : Nat × Nat} :
    p ∈ rectPixels (canvas c) ↔ p.1 < c.maxW ∧ p.2 < c.maxH := by
  simp only [legalConfig, Bool.and_eq_true, decide_eq_true_eq] at h
  rw [mem_rectPixels]
  simp only [canvas, BitVec.toNat_ofNat]
  rw [Nat.mod_eq_of_lt (by omega), Nat.mod_eq_of_lt (by omega)]
  simp

/-- Every pixel of the canvas has its byte in a buffer of FBN bytes (`20_memory.md` R62). -/
theorem pixelAddr_lt {c : Config} {x y : Nat} (hx : x < c.maxW) (hy : y < c.maxH) : pixelAddr c x y < fbn c := by
  have : (y + 1) * c.maxW ≤ c.maxH * c.maxW := Nat.mul_le_mul_right _ hy
  have e : c.maxW * c.maxH = c.maxH * c.maxW := Nat.mul_comm _ _
  have e' : (y + 1) * c.maxW = y * c.maxW + c.maxW := Nat.succ_mul _ _
  simp only [pixelAddr, fbn]
  omega

/-- Every byte of a buffer is one pixel's. -/
theorem exists_pixel {c : Config} {a : Nat} (h : a < fbn c) :
    ∃ x y, x < c.maxW ∧ y < c.maxH ∧ pixelAddr c x y = a := by
  have h0 : 0 < c.maxW := by
    rcases Nat.eq_zero_or_pos c.maxW with e | e
    · simp [fbn, e] at h
    · exact e
  refine ⟨a % c.maxW, a / c.maxW, Nat.mod_lt _ h0, ?_, ?_⟩
  · rw [Nat.div_lt_iff_lt_mul h0, Nat.mul_comm]
    exact h
  · simp only [pixelAddr]
    exact Nat.div_add_mod' a c.maxW

/-- Different pixels have different bytes. -/
theorem pixelAddr_inj {c : Config} {x y x' y' : Nat} (hx : x < c.maxW) (hx' : x' < c.maxW)
    (h : pixelAddr c x y = pixelAddr c x' y') : x = x' ∧ y = y' := by
  simp only [pixelAddr] at h
  have h0 : 0 < c.maxW := by omega
  have d1 : (y * c.maxW + x) / c.maxW = y := by
    rw [Nat.add_comm, Nat.add_mul_div_right _ _ h0, Nat.div_eq_of_lt hx, Nat.zero_add]
  have d2 : (y' * c.maxW + x') / c.maxW = y' := by
    rw [Nat.add_comm, Nat.add_mul_div_right _ _ h0, Nat.div_eq_of_lt hx', Nat.zero_add]
  have hy : y = y' := by rw [← d1, ← d2, h]
  subst hy
  omega

theorem inCanvas_pixel {c : Config} {r : Rect} (h : r.inCanvas c) {p : Nat × Nat} (hp : p ∈ rectPixels r) :
    p.1 < c.maxW ∧ p.2 < c.maxH := by
  rw [mem_rectPixels] at hp
  rcases h with ⟨h1, h2⟩ | h
  · rw [h1, h2] at hp; simp at hp; omega
  · omega

/-! ### FillRect and CopyRect -/

theorem get_foldl_set {β : Type} (addr : β → Nat) (v : Byte) (l : List β) (m : Memory) (a : Nat) :
    (l.foldl (fun m p => m.set (addr p) v) m).get a = if a ∈ l.map addr then v else m.get a := by
  induction l generalizing m with
  | nil => simp
  | cons p l ih =>
    rw [List.foldl_cons, ih, Memory.get_set]
    by_cases h : a ∈ l.map addr
    · simp [h]
    · by_cases h2 : a = addr p <;> simp [h, h2]

/-- FillRect writes its byte at every pixel of the rectangle and nowhere else (`42_compositor.md` R185). -/
theorem get_fillRect (c : Config) (v : Byte) (r : Rect) (m : Memory) (a : Nat) :
    (fillRect c v r m).get a = if a ∈ (rectPixels r).map (fun p => pixelAddr c p.1 p.2) then v else m.get a :=
  get_foldl_set _ v _ m a

/-- CopyRect copies every pixel of the rectangle from one buffer to the same pixel of the other, and changes nothing else,
where the two do not overlap (`42_compositor.md` R185). -/
theorem get_copyRect (c : Config) {src dst : Nat} {r : Rect} (m : Memory)
    (hd : ∀ p ∈ rectPixels r, ∀ q ∈ rectPixels r, src + pixelAddr c p.1 p.2 ≠ dst + pixelAddr c q.1 q.2) (a : Nat) :
    (copyRect c src dst r m).get a =
      if a ∈ (rectPixels r).map (fun p => dst + pixelAddr c p.1 p.2) then m.get (src + (a - dst)) else m.get a := by
  unfold copyRect
  revert hd
  generalize rectPixels r = l
  intro hd
  induction l generalizing m with
  | nil => simp
  | cons p l ih =>
    have hd' : ∀ p ∈ l, ∀ q ∈ l, src + pixelAddr c p.1 p.2 ≠ dst + pixelAddr c q.1 q.2 :=
      fun p hp q hq => hd p (List.mem_cons_of_mem _ hp) q (List.mem_cons_of_mem _ hq)
    rw [List.foldl_cons, ih _ hd']
    by_cases h : a ∈ l.map (fun p => dst + pixelAddr c p.1 p.2)
    · rw [if_pos h, if_pos (by simp only [List.map_cons, List.mem_cons]; exact .inr h)]
      obtain ⟨q, hq, rfl⟩ := List.mem_map.1 h
      rw [Nat.add_sub_cancel_left]
      exact Memory.get_set_other _ _ (hd q (List.mem_cons_of_mem _ hq) p List.mem_cons_self)
    · rw [if_neg h, Memory.get_set]
      by_cases h2 : a = dst + pixelAddr c p.1 p.2
      · rw [if_pos h2, if_pos (by simp [h2]), h2, Nat.add_sub_cancel_left]
      · rw [if_neg h2, if_neg (by simpa [h2] using h)]

/-- A buffer operation keeps the canonical form and adds only bytes of its buffer. -/
theorem foldl_set_memOk {β : Type} {c : Config} (f : Memory → β → Memory) (addr : β → Nat) (l : List β) {m : Memory}
    (hf : ∀ p (m : Memory), ∃ v, f m p = m.set (addr p) v) (hr : ∀ p ∈ l, readable c (addr p) = true) (h : MemOk c m) :
    MemOk c (l.foldl f m) := by
  refine Memory.foldl_keeps (MemOk c) f l m (fun p hp m hm => ?_) h
  obtain ⟨v, e⟩ := hf p m
  rw [e]
  refine ⟨Memory.set_wf _ _ hm.1, fun q hq => ?_⟩
  rcases Memory.mem_set hq with e | hq
  · rw [e]; exact hr p hp
  · exact hm.2 q hq

theorem readable_fb {c : Config} {a : Nat} (h : a < fbn c) : readable c a = true :=
  readable_of_writable (by simp [writable, h])

theorem readable_bk {c : Config} {a : Nat} (hb : c.hasBackup = true) (h : a < fbn c) : readable c (fbn c + a) = true :=
  readable_of_writable (by
    simp only [writable, hb, palBase, Bool.true_and, Bool.or_eq_true, Bool.and_eq_true, decide_eq_true_eq]
    omega)

theorem fillRect_memOk {c : Config} {v : Byte} {r : Rect} {m : Memory} (hr : r.inCanvas c) (h : MemOk c m) :
    MemOk c (fillRect c v r m) :=
  foldl_set_memOk _ (fun p => pixelAddr c p.1 p.2) _ (fun _ _ => ⟨_, rfl⟩)
    (fun _ hp => readable_fb (pixelAddr_lt (inCanvas_pixel hr hp).1 (inCanvas_pixel hr hp).2)) h

theorem copyRect_memOk {c : Config} {src dst : Nat} {r : Rect} {m : Memory}
    (hr : ∀ p ∈ rectPixels r, readable c (dst + pixelAddr c p.1 p.2) = true) (h : MemOk c m) :
    MemOk c (copyRect c src dst r m) :=
  foldl_set_memOk _ (fun p => dst + pixelAddr c p.1 p.2) _ (fun _ _ => ⟨_, rfl⟩) hr h

/-! ### Row order and row placement -/

theorem mem_passRows {h start step r : Nat} (hs : 0 < step) :
    r ∈ passRows h start step ↔ r < h ∧ start ≤ r ∧ (r - start) % step = 0 := by
  simp only [passRows, List.mem_map, List.mem_range]
  constructor
  · rintro ⟨k, hk, rfl⟩
    rw [Nat.lt_div_iff_mul_lt hs] at hk
    rw [Nat.mul_comm] at hk
    refine ⟨?_, by omega, ?_⟩
    · generalize step * k = q at *; omega
    · rw [Nat.add_sub_cancel_left, Nat.mul_mod_right]
  · rintro ⟨h1, h2, h3⟩
    refine ⟨(r - start) / step, ?_, ?_⟩
    · rw [Nat.lt_div_iff_mul_lt hs, Nat.div_mul_cancel (Nat.dvd_of_mod_eq_zero h3)]
      omega
    · rw [Nat.mul_div_cancel' (Nat.dvd_of_mod_eq_zero h3)]
      omega

theorem passRows_nodup {h start step : Nat} (hs : 0 < step) : (passRows h start step).Nodup := by
  refine List.Nodup.map (fun a b e => ?_) List.nodup_range
  have : step * a = step * b := by omega
  exact Nat.eq_of_mul_eq_mul_left hs this

theorem mem_rowOrder {h r : Nat} {i : Bool} : r ∈ rowOrder h i ↔ r < h := by
  unfold rowOrder
  split
  · simp only [List.mem_append, mem_passRows (by omega : 0 < 8), mem_passRows (by omega : 0 < 4),
      mem_passRows (by omega : 0 < 2)]
    omega
  · simp

/-- The row order lists every row once (`42_compositor.md` R197). -/
theorem rowOrder_nodup (h : Nat) (i : Bool) : (rowOrder h i).Nodup := by
  unfold rowOrder
  split
  · simp only [List.nodup_append, passRows_nodup (by omega : 0 < 8), passRows_nodup (by omega : 0 < 4),
      passRows_nodup (by omega : 0 < 2), List.mem_append, mem_passRows (by omega : 0 < 8),
      mem_passRows (by omega : 0 < 4), mem_passRows (by omega : 0 < 2), true_and]
    refine ⟨⟨?_, ?_⟩, ?_⟩ <;> (intro a ha b hb; omega)
  · exact List.nodup_range

/-- The bytes the decoder can store for row `r` are the pixels of the clipped rectangle in that row
(`42_compositor.md` R198). -/
theorem rowDst_written {s : State} {r a : Nat} (hr : r < s.frame.h.toNat) :
    (rowDst s r ≤ a ∧ a < min (rowEnd s r) (rowDst s r + s.frame.w.toNat)) ↔
      ∃ p ∈ rectPixels (clip s.cfg s.frame), p.2 = s.frame.y.toNat + r ∧ pixelAddr s.cfg p.1 p.2 = a := by
  constructor
  · rintro ⟨h1, h2⟩
    unfold rowEnd at h2
    split at h2
    · next hy =>
      simp only [rowDst] at h1 h2
      refine ⟨(a - (s.frame.y.toNat + r) * s.cfg.maxW, s.frame.y.toNat + r), ?_, rfl, ?_⟩
      · rw [mem_rectPixels_clip, mem_rectPixels]
        dsimp only
        generalize (s.frame.y.toNat + r) * s.cfg.maxW = q at *
        omega
      · simp only [pixelAddr]
        generalize (s.frame.y.toNat + r) * s.cfg.maxW = q at *
        omega
    · omega
  · rintro ⟨⟨x, y⟩, hp, hy, rfl⟩
    dsimp only at hy
    subst hy
    rw [mem_rectPixels_clip, mem_rectPixels] at hp
    dsimp only at hp
    simp only [rowDst, rowEnd, pixelAddr, hp.2.2, if_true]
    generalize (s.frame.y.toNat + r) * s.cfg.maxW = q at *
    omega

/-! ### DecodeRows -/

theorem DecodeOn.rowDst {w : Nat → Prop} {s t : State} (h : DecodeOn w s t) (q : Nat) : rowDst t q = rowDst s q := by
  unfold Machine.rowDst
  rw [h.rect, h.cfg]

theorem DecodeOn.rowEnd {w : Nat → Prop} {s t : State} (h : DecodeOn w s t) (q : Nat) : rowEnd t q = rowEnd s q := by
  unfold Machine.rowEnd
  rw [h.rowDst, h.rect, h.cfg]

/-- Everything DecodeRows can do (`42_compositor.md` R199, R200). -/
theorem decodeRows_spec (w : Nat → Prop) (rs : List Nat) (total : Nat) (rf : Bool) (s : State)
    (hw : ∀ r ∈ rs, ∀ a, rowDst s r ≤ a ∧ a < min (rowEnd s r) (rowDst s r + s.frame.w.toNat) → w a) :
    DecodeOn w s (decodeRows rs total rf s).state
      ∧ total ≤ (decodeRows rs total rf s).total
      ∧ (decodeRows rs total rf s).total ≤ total + rs.length * s.frame.w.toNat
      ∧ (rf = true → (decodeRows rs total rf s).rf = true)
      ∧ (((decodeRows rs total rf s).outcome = .ok ∧ (decodeRows rs total rf s).state.fault = s.fault
            ∧ (decodeRows rs total rf s).state.code = s.code)
          ∨ ((decodeRows rs total rf s).outcome = .corrupt ∧ (decodeRows rs total rf s).state.fault = true
            ∧ (decodeRows rs total rf s).state.code = .lzwCorruptStream
            ∧ (decodeRows rs total rf s).state.lzw.st = .ended
            ∧ (decodeRows rs total rf s).state.lzw.endReason = .corrupt)) := by
  induction rs generalizing total rf s with
  | nil => exact ⟨.refl .., le_refl _, by simp [decodeRows], id, .inl ⟨rfl, rfl, rfl⟩⟩
  | cons r rs ih =>
    obtain ⟨d1, d2, d3, -, -, -⟩ := lzwDecode_spec (rowDst s r) s.frame.w.toNat (rowEnd s r) s
    have d1' := d1.mono fun a ha => hw r List.mem_cons_self a (by omega)
    have hlen : (r :: rs).length * s.frame.w.toNat = rs.length * s.frame.w.toNat + s.frame.w.toNat := by
      rw [List.length_cons, Nat.succ_mul]
    have hrow : ∀ q, rowDst (lzwDecode (rowDst s r) s.frame.w.toNat (rowEnd s r) s).state q = rowDst s q
        ∧ rowEnd (lzwDecode (rowDst s r) s.frame.w.toNat (rowEnd s r) s).state q = rowEnd s q := by
      exact fun q => ⟨d1.rowDst q, d1.rowEnd q⟩
    have go : ∀ rf', (rf = true → rf' = true) →
        (lzwDecode (rowDst s r) s.frame.w.toNat (rowEnd s r) s).state.fault = s.fault →
        (lzwDecode (rowDst s r) s.frame.w.toNat (rowEnd s r) s).state.code = s.code →
        ∀ R, R = decodeRows rs
          (total + (lzwDecode (rowDst s r) s.frame.w.toNat (rowEnd s r) s).count) rf'
          (lzwDecode (rowDst s r) s.frame.w.toNat (rowEnd s r) s).state →
        DecodeOn w s R.state ∧ total ≤ R.total ∧ R.total ≤ total + (r :: rs).length * s.frame.w.toNat
          ∧ (rf = true → R.rf = true)
          ∧ ((R.outcome = .ok ∧ R.state.fault = s.fault ∧ R.state.code = s.code)
            ∨ (R.outcome = .corrupt ∧ R.state.fault = true ∧ R.state.code = .lzwCorruptStream
              ∧ R.state.lzw.st = .ended ∧ R.state.lzw.endReason = .corrupt)) := by
      intro rf' hrf hf hc R e
      have := ih (total + (lzwDecode (rowDst s r) s.frame.w.toNat (rowEnd s r) s).count) rf'
        (lzwDecode (rowDst s r) s.frame.w.toNat (rowEnd s r) s).state (by
          intro q hq a ha
          rw [(hrow q).1, (hrow q).2, d1.rect] at ha
          exact hw q (List.mem_cons_of_mem _ hq) a ha)
      obtain ⟨i1, i2, i3, i4, i5⟩ := this
      rw [d1.rect] at i3
      rw [hf, hc] at i5
      rw [e]
      exact ⟨d1'.trans i1, by omega, by omega, fun h => i4 (hrf h), i5⟩
    rcases ho : (lzwDecode (rowDst s r) s.frame.w.toNat (rowEnd s r) s).outcome <;> rw [ho] at d2
    · exact go rf id d2.2.2.1 d2.2.2.2 _ (by simp only [decodeRows, ho])
    · exact go rf id (by rw [d2.1]) (by rw [d2.1]) _ (by simp only [decodeRows, ho])
    · exact go rf id d2.2.2.2.1 d2.2.2.2.2 _ (by simp only [decodeRows, ho])
    · exact go rf id d2.2.2.2.1 d2.2.2.2.2 _ (by simp only [decodeRows, ho])
    · exact go true (fun _ => rfl) d2.2.2.2.1 d2.2.2.2.2 _ (by simp only [decodeRows, ho])
    · have e : decodeRows (r :: rs) total rf s =
          { outcome := .corrupt
            total := total + (lzwDecode (rowDst s r) s.frame.w.toNat (rowEnd s r) s).count, rf := rf
            state := (lzwDecode (rowDst s r) s.frame.w.toNat (rowEnd s r) s).state } := by
        simp only [decodeRows, ho]
      rw [e]
      exact ⟨d1', Nat.le_add_right _ _, by dsimp only; omega, id, .inr ⟨rfl, d2.2.2.2.1, d2.2.2.2.2, d2.1, d2.2.1⟩⟩
    · exact d2.elim

/-- The rows keep the decoder's invariant. -/
theorem decodeRows_ok {s : State} (rs : List Nat) (total : Nat) (rf : Bool)
    (hmb : 10 ≤ s.cfg.lzwMaxBits ∧ s.cfg.lzwMaxBits ≤ 12) (h : s.lzw.Ok s.cfg.lzwMaxBits)
    (hu : s.lzw.st ≠ .uninitialized) : (decodeRows rs total rf s).state.lzw.Ok s.cfg.lzwMaxBits := by
  induction rs generalizing total rf s with
  | nil => exact h
  | cons r rs ih =>
    have hok := lzwDecode_ok (rowDst s r) s.frame.w.toNat (rowEnd s r) hmb h hu
    have hin := lzwDecode_init (rowDst s r) s.frame.w.toNat (rowEnd s r) s hu
    have hcfg := (lzwDecode_spec (rowDst s r) s.frame.w.toNat (rowEnd s r) s).1.cfg
    have go : ∀ total' rf', (decodeRows rs total' rf'
        (lzwDecode (rowDst s r) s.frame.w.toNat (rowEnd s r) s).state).state.lzw.Ok s.cfg.lzwMaxBits := by
      intro total' rf'
      have := ih total' rf' (s := (lzwDecode (rowDst s r) s.frame.w.toNat (rowEnd s r) s).state)
        (by rw [hcfg]; exact hmb) (by rw [hcfg]; exact hok) hin
      rwa [hcfg] at this
    simp only [decodeRows]
    split
    · exact hok
    · exact hok
    · exact go _ _
    all_goals exact go _ _

/-! ### The steps before the rows -/

theorem applyDisposal_frame (s : State) : applyDisposal s = { s with mem := (applyDisposal s).mem } := by
  unfold applyDisposal
  split
  · rfl
  · rfl
  · rfl
  · split <;> rfl

theorem saveBackup_frame (s : State) : saveBackup s = { s with mem := (saveBackup s).mem } := by
  unfold saveBackup
  split <;> rfl

/-- The steps before the rows set DIRTY, PREV_DISP and PREV_FILL, log at most the clear-screen request, and change memory;
nothing else (`42_compositor.md` R186, R190 to R196). -/
theorem prepareFrame_frame (s : State) :
    prepareFrame s = { s with
      mem := (prepareFrame s).mem
      dirty := clip s.cfg s.frame, prevDisp := s.gce.disp, prevFill := fillValue s
      ev := s.ev ++ if asksClear s then [.clearScreen] else [] } := by
  have a1 : ∀ e : State, saveBackup (bookkeep (applyDisposal e)) = { e with
      mem := (saveBackup (bookkeep (applyDisposal e))).mem
      dirty := clip e.cfg e.frame, prevDisp := e.gce.disp, prevFill := fillValue e } := by
    intro e
    rw [saveBackup_frame]
    dsimp only
    generalize (saveBackup (bookkeep (applyDisposal e))).mem = M
    simp only [bookkeep]
    rw [applyDisposal_frame]
    rfl
  have key : ∀ (m : Memory) (d : Rect) (v : List Event),
      saveBackup (bookkeep (applyDisposal { s with mem := m, dirty := d, ev := v })) = prepareFrame s →
      v = s.ev ++ (if asksClear s then [.clearScreen] else []) →
      prepareFrame s = { s with
        mem := (prepareFrame s).mem
        dirty := clip s.cfg s.frame, prevDisp := s.gce.disp, prevFill := fillValue s
        ev := s.ev ++ if asksClear s then [.clearScreen] else [] } := by
    intro m d v he hv
    have := a1 { s with mem := m, dirty := d, ev := v }
    rw [he] at this
    rw [← hv]
    exact this
  by_cases hk : s.key = true
  · have ha : asksClear s = false := by simp [asksClear, hk]
    have ha' : asksClear (keyFill s) = false := by simp [asksClear, keyFill, hk]
    refine key (keyFill s).mem (keyFill s).dirty s.ev ?_ (by simp [ha])
    unfold prepareFrame
    rw [if_pos hk]
    dsimp only
    rw [if_neg (by simp [ha'])]
    rfl
  · by_cases ha : asksClear s = true
    · refine key s.mem s.dirty (s.ev ++ [.clearScreen]) ?_ (by simp [ha])
      unfold prepareFrame
      rw [if_neg hk]
      dsimp only
      rw [if_pos ha]
      rfl
    · refine key s.mem s.dirty s.ev ?_ (by simp [ha])
      unfold prepareFrame
      rw [if_neg hk]
      dsimp only
      rw [if_neg ha]

/-- The steps before the rows store only to FB and, with a backup, to BK (`42_compositor.md` R213). -/
theorem prepareFrame_memOk {s : State} (hc : legalConfig s.cfg = true) (hd : s.dirty.inCanvas s.cfg)
    (h : MemOk s.cfg s.mem) : MemOk s.cfg (prepareFrame s).mem := by
  have key : ∀ s' : State, s'.cfg = s.cfg → s'.dirty.inCanvas s.cfg → MemOk s.cfg s'.mem →
      MemOk s.cfg (saveBackup (bookkeep (applyDisposal s'))).mem := by
    intro s' h1 h2 h3
    have ha : MemOk s.cfg (applyDisposal s').mem := by
      unfold applyDisposal
      split
      · exact h3
      · exact h3
      · rw [← h1]; rw [← h1] at h2 h3; exact fillRect_memOk h2 h3
      · split
        · rw [← h1]; rw [← h1] at h2 h3
          exact copyRect_memOk (fun p hp => by
            rw [Nat.zero_add]
            exact readable_fb (pixelAddr_lt (inCanvas_pixel h2 hp).1 (inCanvas_pixel h2 hp).2)) h3
        · exact h3
    have hcfg : (bookkeep (applyDisposal s')).cfg = s.cfg := by
      show (applyDisposal s').cfg = _
      rw [applyDisposal_frame]
      exact h1
    unfold saveBackup
    split
    · next hb =>
      rw [← hcfg]
      rw [← hcfg] at ha
      refine copyRect_memOk (fun p hp => ?_) ha
      have hdc : (bookkeep (applyDisposal s')).dirty = clip (bookkeep (applyDisposal s')).cfg (applyDisposal s').frame := rfl
      rw [hdc] at hp
      have := inCanvas_pixel (clip_inCanvas _ _) hp
      exact readable_bk hb.2 (pixelAddr_lt this.1 this.2)
    · exact ha
  unfold prepareFrame
  dsimp only
  refine key _ ?_ ?_ ?_
  · split <;> split <;> rfl
  · split <;> split <;> first | exact hd | exact canvas_inCanvas hc
  · split <;> split <;> first | exact h | exact fillRect_memOk (canvas_inCanvas hc) h

end Sys2Proof.Machine
end

