-- ==== Sys2Proof/Laws/DecoderBounds.lean ====
section
/-! SUPPORT. The bytes a call of the decoder produces do not depend on where they are put (`41_lzw.md` R157), so the rows of
a frame consume the stream like one call (`42_compositor.md` R199). -/

namespace Sys2Proof.Machine

/-- Two states with the same decoder and stream, under one configuration. -/
structure SameDecoder (s s' : State) : Prop where
  cfg    : s'.cfg = s.cfg
  lzw    : s'.lzw = s.lzw
  stream : s'.stream = s.stream

theorem readCode_same {s s' : State} (h : SameDecoder s s') :
    (readCode s').1 = (readCode s).1 ∧ SameDecoder (readCode s).2 (readCode s').2 := by
  simp only [readCode, h.lzw, h.stream]
  exact ⟨trivial, h.cfg, rfl, rfl⟩

theorem readCodes_same (n : Nat) {s s' : State} (h : SameDecoder s s') :
    (readCodes n s').1 = (readCodes n s).1 ∧ SameDecoder (readCodes n s).2 (readCodes n s').2 := by
  induction n using Nat.strong_induction_on generalizing s s' with
  | _ n ih =>
    obtain ⟨h1, h2⟩ := readCode_same h
    rcases hr : readCode s with ⟨f, t⟩
    rcases hr' : readCode s' with ⟨f', t'⟩
    rw [hr, hr'] at h1 h2
    dsimp only at h1 h2
    subst h1
    unfold readCodes
    rw [hr, hr']
    cases f' with
    | chain => exact ⟨rfl, h2.cfg, by simp only [chainEnded, h2.lzw], h2.stream⟩
    | fail => exact ⟨rfl, h2.cfg, by simp only [readFailed, h2.lzw], h2.stream⟩
    | got c =>
      dsimp only
      rw [h2.lzw]
      rcases decodeCode_cases t.lzw.codeCtx c with ⟨e, -⟩ | ⟨e, -⟩ | ⟨e, -⟩ | ⟨e, -⟩ | ⟨e, -⟩ | e <;> rw [e]
      · cases n with
        | zero => exact ⟨rfl, h2⟩
        | succ n => exact ih n (by omega) ⟨h2.cfg, by simp only [codeClear, h2.lzw], h2.stream⟩
      · exact ⟨rfl, h2.cfg, by simp only [codeEnd, h2.lzw], h2.stream⟩
      · exact ⟨rfl, h2.cfg, by simp only [codeRoot, h2.lzw], h2.stream⟩
      · exact ⟨rfl, h2.cfg, by simp only [codeKnown, h2.lzw, h2.cfg], h2.stream⟩
      · exact ⟨rfl, h2.cfg, by simp only [codeKwkwk, h2.lzw, h2.cfg], h2.stream⟩
      · exact ⟨rfl, h2.cfg, by simp only [codeInvalid, raiseFault, h2.lzw], h2.stream⟩

theorem refill_same {s s' : State} (h : SameDecoder s s') :
    (refill s').1 = (refill s).1 ∧ SameDecoder (refill s).2 (refill s').2 := by
  unfold refill
  rw [h.lzw, h.stream]
  split
  · exact ⟨rfl, h⟩
  · exact readCodes_same _ h

theorem popByte_same {s s' : State} (h : SameDecoder s s') (lim lim' out out' : Nat) (b : Byte) (rest : List Byte) :
    SameDecoder (popByte lim out b rest s) (popByte lim' out' b rest s') := by
  simp only [popByte, putByte]
  constructor <;> (split <;> split <;> simp [h.cfg, h.lzw, h.stream])

/-- The end bound and the address affect only which bytes are written, never which bytes are produced (`41_lzw.md`
R157). -/
theorem decodeLoop_same (lim lim' n out out' k : Nat) {s s' : State} (h : SameDecoder s s') (hs : s.lzw.st ≠ .ended) :
    (decodeLoop lim' n out' k s').outcome = (decodeLoop lim n out k s).outcome
      ∧ (decodeLoop lim' n out' k s').count = (decodeLoop lim n out k s).count
      ∧ SameDecoder (decodeLoop lim n out k s).state (decodeLoop lim' n out' k s').state
      ∧ (∀ i, k + i < (decodeLoop lim n out k s).count → out + i < lim → out' + i < lim' →
        (decodeLoop lim' n out' k s').state.mem.get (out' + i) = (decodeLoop lim n out k s).state.mem.get (out + i)) := by
  induction n generalizing out out' k s s' with
  | zero => exact ⟨rfl, rfl, h, fun i hi => by simp [decodeLoop] at hi⟩
  | succ n ih =>
    obtain ⟨r1, r2⟩ := refill_same h
    rcases decodeLoop_succ lim n out k s with ⟨ho, e⟩ | ⟨ho, b, rest, hst, e⟩ <;>
      rcases decodeLoop_succ lim' n out' k s' with ⟨ho', e'⟩ | ⟨ho', b', rest', hst', e'⟩
    · rw [e, e']; exact ⟨r1, rfl, r2, fun i hi => by dsimp only at hi; omega⟩
    · exact absurd (r1 ▸ ho') ho
    · exact absurd (r1.trans ho) ho'
    · rw [r2.lzw, hst] at hst'
      obtain ⟨rfl, rfl⟩ := List.cons.inj hst'
      rw [e, e']
      have hso := (refill_spec (fun _ => True) s).2.1 hs
      rw [ho] at hso
      have hp := popByte_same r2 lim lim' out out' b rest
      have hne : ∀ l o (u : State), u.lzw.st ≠ .ended → (popByte l o b rest u).lzw.st ≠ .ended := by
        intro l o u hu
        unfold popByte putByte
        split <;> exact hu
      have hs1 := hne lim out _ hso.1
      obtain ⟨i1, i2, i3, i4⟩ := ih (out + 1) (out' + 1) (k + 1) hp hs1
      refine ⟨i1, i2, i3, fun i hi hl hl' => ?_⟩
      cases i with
      | zero =>
        have d := (decodeLoop_spec lim n (out + 1) (k + 1) _ hs1).1.mem out (by omega)
        have d' := (decodeLoop_spec lim' n (out' + 1) (k + 1) _ (by rw [hp.lzw]; exact hs1)).1.mem out' (by omega)
        simp only [Nat.add_zero] at hl hl' ⊢
        rw [d, d']
        simp only [popByte, putByte, hl, hl', if_true, Memory.get_set_same]
      | succ i =>
        have := i4 i (by omega) (by omega) (by omega)
        rwa [show out' + 1 + i = out' + (i + 1) by omega, show out + 1 + i = out + (i + 1) by omega] at this

/-- The count so far is only carried along. -/
theorem decodeLoop_count (lim n out k : Nat) (s : State) :
    decodeLoop lim n out k s = { decodeLoop lim n out 0 s with count := (decodeLoop lim n out 0 s).count + k } := by
  induction n generalizing out k s with
  | zero => simp [decodeLoop]
  | succ n ih =>
    rcases decodeLoop_succ lim n out k s with ⟨ho, e⟩ | ⟨ho, b, rest, hst, e⟩ <;>
      rcases decodeLoop_succ lim n out 0 s with ⟨ho', e'⟩ | ⟨ho', b', rest', hst', e'⟩
    · rw [e, e']; simp
    · exact absurd ho' ho
    · exact absurd ho ho'
    · rw [hst] at hst'
      obtain ⟨rfl, rfl⟩ := List.cons.inj hst'
      rw [e, e', ih (out + 1) (k + 1), ih (out + 1) (0 + 1)]
      simp only [Decoded.mk.injEq, true_and, and_true]
      omega

end Sys2Proof.Machine
end

