-- ==== Sys2Proof/Laws/Delivery.lean ====
section
/-! SUPPORT. Laws of `Stream.delivers`, `Stream.byteAt` and `Stream.after`: what a byte read and a block read answer by what
the stream delivers (`20_memory.md` R63). -/

namespace Sys2Proof.Machine

theorem Stream.readByte_delivers {t : Stream} (h : t.delivers 0) : t.readByte = (some (t.byteAt 0), t.after 1 0) := by
  obtain ⟨h1, h2⟩ := h
  simp only [Nat.add_zero] at h1 h2
  unfold Stream.readByte
  have e : t.data[t.pos]? = some (t.byteAt 0) := by
    simp [Stream.byteAt, List.getElem?_eq_getElem h1]
  rw [e]
  have : t.failing = false := by simp [Stream.failing, h2]
  simp [this, Stream.after]

theorem Stream.readByte_not_delivers {t : Stream} (h : ¬t.delivers 0) : t.readByte = (none, t.after 0 1) := by
  unfold Stream.readByte
  cases e : t.data[t.pos]? with
  | none => simp [Stream.after]
  | some b =>
    have h1 := (List.getElem?_eq_some_iff.1 e).1
    have : t.failing = true := by
      by_contra h2
      apply h
      refine ⟨by simpa using h1, ?_⟩
      simpa [Stream.failing] using h2
    simp [this, Stream.after]

/-- After one delivered byte the next request has the number that followed it. -/
theorem Stream.after_delivers (t : Stream) (i : Nat) : (t.after 1 0).delivers i ↔ t.delivers (i + 1) := by
  simp only [Stream.delivers, Stream.after]
  rw [show t.pos + 1 + i = t.pos + (i + 1) by omega, show t.reads + 1 + 0 + i = t.reads + (i + 1) by omega]

theorem Stream.after_byteAt (t : Stream) (i : Nat) : (t.after 1 0).byteAt i = t.byteAt (i + 1) := by
  simp only [Stream.byteAt, Stream.after]
  rw [show t.pos + 1 + i = t.pos + (i + 1) by omega]

theorem Stream.after_after (t : Stream) (i j : Nat) : (t.after 1 0).after i j = t.after (i + 1) j := by
  simp only [Stream.after, Stream.mk.injEq, true_and, and_true]; omega

/-- A block read delivers the requested bytes or those before the first EOF. -/
theorem Stream.readBlock_delivers (n : Nat) (t : Stream) : ∃ k, k ≤ n ∧ (∀ i, i < k → t.delivers i)
    ∧ (k < n → ¬t.delivers k) ∧ (Stream.readBlock n t).1 = (List.range k).map t.byteAt
    ∧ (Stream.readBlock n t).2 = t.after k (if k < n then 1 else 0) := by
  induction n generalizing t with
  | zero => exact ⟨0, le_refl _, by simp, by simp, rfl, rfl⟩
  | succ n ih =>
    by_cases h : t.delivers 0
    · obtain ⟨k, h1, h2, h3, h4, h5⟩ := ih (t.after 1 0)
      refine ⟨k + 1, by omega, ?_, ?_, ?_, ?_⟩
      · intro i hi
        cases i with
        | zero => exact h
        | succ i => exact (Stream.after_delivers _ _).1 (h2 i (by omega))
      · intro hk; exact fun hh => h3 (by omega) ((Stream.after_delivers _ _).2 hh)
      · rw [Stream.readBlock, Stream.readByte_delivers h]; dsimp only
        rw [h4, List.range_succ_eq_map]
        simp only [List.map_cons, List.map_map]
        congr 1
        apply List.map_congr_left
        intro i _; exact Stream.after_byteAt _ _
      · rw [Stream.readBlock, Stream.readByte_delivers h]; dsimp only
        rw [h5, Stream.after_after]
        simp
    · refine ⟨0, by omega, by simp, fun _ => h, ?_, ?_⟩
      · rw [Stream.readBlock, Stream.readByte_not_delivers h]; rfl
      · rw [Stream.readBlock, Stream.readByte_not_delivers h]; simp

end Sys2Proof.Machine
end

