-- ==== Sys2Proof/Laws/Encoding.lean ====
section
/-! SUPPORT. Laws of the command word (`30_encoding.md` R80): the three fields of a word put together, and a word put
together from its fields. -/

namespace Sys2Proof

theorem getLsbD_commandWord (imm opc : Byte) (j : Nat) :
    (0#16 ++ imm ++ opc : Word).getLsbD j
      = if j < 8 then opc.getLsbD j else if j < 16 then imm.getLsbD (j - 8) else false := by
  have h : (0#16 ++ imm ++ opc : BitVec (16 + 8 + 8)).getLsbD j
      = if j < 8 then opc.getLsbD j else if j < 16 then imm.getLsbD (j - 8) else false := by
    rw [BitVec.getLsbD_append, BitVec.getLsbD_append]
    by_cases h1 : j < 8
    · simp [h1]
    · by_cases h2 : j < 16
      · have : j - 8 < 8 := by omega
        simp [h1, h2, this]
      · have : ¬j - 8 < 8 := by omega
        simp [h1, h2, this]
  exact h

/-- The fields of a word put together from RSV = 0, IMM8 and OPC. -/
theorem commandWord_fields (imm opc : Byte) :
    rsvOf (0#16 ++ imm ++ opc) = 0#16 ∧ immOf (0#16 ++ imm ++ opc) = imm ∧ opcOf (0#16 ++ imm ++ opc) = opc := by
  refine ⟨?_, ?_, ?_⟩ <;> apply BitVec.eq_of_getLsbD_eq <;> intro j hj
  · simp only [rsvOf, BitVec.getLsbD_extractLsb', getLsbD_commandWord]
    rw [if_neg (by omega), if_neg (by omega)]
    simp
  · simp only [immOf, BitVec.getLsbD_extractLsb', getLsbD_commandWord]
    rw [if_neg (by omega), if_pos (by omega), Nat.add_sub_cancel_left]
    simp [hj]
  · simp only [opcOf, BitVec.getLsbD_extractLsb', getLsbD_commandWord]
    rw [if_pos (by omega), Nat.zero_add]
    simp [hj]

/-- A word with RSV = 0 is put together from its IMM8 and OPC. -/
theorem commandWord_of_fields {w : Word} (h : rsvOf w = 0#16) : 0#16 ++ immOf w ++ opcOf w = w := by
  apply BitVec.eq_of_getLsbD_eq
  intro j hj
  rw [getLsbD_commandWord]
  split
  · next h1 => simp [opcOf, h1]
  · split
    · next h1 h2 =>
      have e : 8 + (j - 8) = j := by omega
      simp only [immOf, BitVec.getLsbD_extractLsb', e]
      simp
      omega
    · next h1 h2 =>
      have := congrArg (fun v : Half => v.getLsbD (j - 16)) h
      have e : 16 + (j - 16) = j := by omega
      have hlt : j - 16 < 16 := by omega
      simp only [rsvOf, BitVec.getLsbD_extractLsb', e, hlt, decide_true, Bool.true_and, BitVec.getLsbD_zero] at this
      exact this.symm

/-- The decoder accepts a word exactly when RSV = 0 and OPC is assigned (`30_encoding.md` R92). -/
theorem decodeWord_ok_iff (w : Word) (i : Instr) :
    decodeWord w = .ok i ↔ rsvOf w = 0#16 ∧ instrOfOpc (opcOf w).toNat (immOf w) = some i := by
  unfold decodeWord
  by_cases h : rsvOf w = 0#16
  · rw [if_neg (by simpa using h)]
    simp only [h, true_and]
    cases instrOfOpc (opcOf w).toNat (immOf w) <;> simp
  · rw [if_pos (show rsvOf w ≠ 0 from h)]
    simp [h]

end Sys2Proof
end

