-- ==== Sys2Proof/Laws/Flags.lean ====
section
/-! SUPPORT. Laws of the packed register words: what each bit of a word made of fields is. -/

namespace Sys2Proof.Machine

theorem getLsbD_ofNat_field (v width lo i : Nat) :
    (BitVec.ofNat 32 (v % 2 ^ width * 2 ^ lo)).getLsbD i
      = (decide (i < 32) && decide (lo ≤ i) && decide (i < lo + width) && v.testBit (i - lo)) := by
  rw [BitVec.getLsbD_ofNat, Nat.testBit_mul_two_pow, Nat.testBit_mod_two_pow]
  by_cases h1 : lo ≤ i
  · have e : i < lo + width ↔ i - lo < width := by omega
    simp [h1, e, Bool.and_assoc]
  · simp [h1]

/-- Bit `i` of a packed word is bit `i - lo` of the field that covers it. -/
theorem getLsbD_packWord (fs : List (Nat × Nat × Nat)) (i : Nat) :
    (packWord fs).getLsbD i
      = fs.any fun f => decide (i < 32) && decide (f.2.2 ≤ i) && decide (i < f.2.2 + f.2.1) && f.1.testBit (i - f.2.2) := by
  induction fs with
  | nil => simp [packWord]
  | cons f fs ih =>
    obtain ⟨v, width, lo⟩ := f
    rw [packWord, BitVec.getLsbD_or, getLsbD_ofNat_field, ih, List.any_cons]

/-- The halves of a word put together from two (`10_state.md` R26, R30). -/
theorem halves_append (y x : Half) :
    (y ++ x : Word).extractLsb' 0 16 = x ∧ (y ++ x : Word).extractLsb' 16 16 = y := by
  have h : ∀ j, (y ++ x : Word).getLsbD j = if j < 16 then x.getLsbD j else y.getLsbD (j - 16) :=
    fun j => (BitVec.getLsbD_append (x := y) (y := x) (i := j)).trans (by split <;> simp_all)
  constructor <;> apply BitVec.eq_of_getLsbD_eq <;> intro j hj <;>
    simp only [BitVec.getLsbD_extractLsb', h, hj, decide_true, Bool.true_and, Nat.zero_add, if_true]
  rw [if_neg (by omega), Nat.add_sub_cancel_left]

end Sys2Proof.Machine
end

