-- ==== Sys2Proof/Laws/Reader.lean ====
section
/-! SUPPORT. Laws of the palette (`40_reader.md` R118, R119) and of the stores of the reader commands. -/

namespace Sys2Proof.Machine

/-- A run of bytes stored to addresses that exist keeps memory lawful. -/
theorem setBytes_memOk {c : Config} {m : Memory} {lo : Nat} {bs : List Byte}
    (hr : ∀ a, lo ≤ a → a < lo + bs.length → readable c a = true) (h : MemOk c m) : MemOk c (m.setBytes lo bs) := by
  refine ⟨Memory.setBytes_wf _ _ h.1, fun p hp => ?_⟩
  rcases Memory.mem_setBytes hp with ⟨h1, h2⟩ | hp
  · exact hr _ h1 h2
  · exact h.2 p hp

theorem set_memOk {c : Config} {m : Memory} {a : Nat} {v : Byte} (hr : readable c a = true) (h : MemOk c m) :
    MemOk c (m.set a v) := by
  refine ⟨Memory.set_wf _ _ h.1, fun p hp => ?_⟩
  rcases Memory.mem_set hp with e | hp
  · rw [e]; exact hr
  · exact h.2 p hp

/-! ### The packed palette -/

theorem get_packEntry (c : Config) (m : Memory) (i a : Nat) :
    (packEntry c m i).get a =
      if a = p565Base c + 2 * i then (palPacked c m i).extractLsb' 0 8
      else if a = p565Base c + 2 * i + 1 then (palPacked c m i).extractLsb' 8 8 else m.get a := by
  rw [packEntry, Memory.get_setBytes]
  by_cases h1 : a = p565Base c + 2 * i
  · subst h1; simp
  by_cases h2 : a = p565Base c + 2 * i + 1
  · subst h2; simp
  · rw [if_neg h1, if_neg h2, if_neg]
    simp
    omega

theorem palPacked_congr {c : Config} {m m' : Memory} {i : Nat}
    (h : ∀ a, palBase c + 3 * i ≤ a → a < palBase c + 3 * i + 3 → m'.get a = m.get a) :
    palPacked c m' i = palPacked c m i := by
  simp only [palPacked]
  rw [h _ (by omega) (by omega), h _ (by omega) (by omega), h _ (by omega) (by omega)]

/-- The first `n` entries recomputed, for `n` up to 256. -/
theorem get_packSome (c : Config) (m : Memory) (n : Nat) (hn : n ≤ 256) (a : Nat) :
    ((List.range n).foldl (packEntry c) m).get a =
      if p565Base c ≤ a ∧ a < p565Base c + 2 * n then
        if (a - p565Base c) % 2 = 0 then (palPacked c m ((a - p565Base c) / 2)).extractLsb' 0 8
        else (palPacked c m ((a - p565Base c) / 2)).extractLsb' 8 8
      else m.get a := by
  induction n generalizing a with
  | zero => rw [if_neg (by omega)]; rfl
  | succ n ih =>
    have e : palPacked c ((List.range n).foldl (packEntry c) m) n = palPacked c m n := by
      refine palPacked_congr fun b h1 h2 => ?_
      rw [ih (by omega), if_neg]
      simp only [p565Base]
      omega
    rw [List.range_succ, List.foldl_append]
    show (packEntry c _ n).get a = _
    rw [get_packEntry, e, ih (by omega)]
    by_cases h1 : a = p565Base c + 2 * n
    · subst h1
      rw [if_pos rfl, if_pos (by omega), Nat.add_sub_cancel_left, Nat.mul_mod_right, if_pos rfl,
        Nat.mul_div_cancel_left _ (by omega)]
    by_cases h2 : a = p565Base c + 2 * n + 1
    · subst h2
      rw [if_neg h1, if_pos rfl, if_pos (by omega)]
      have e1 : (p565Base c + 2 * n + 1 - p565Base c) % 2 ≠ 0 := by omega
      have e2 : (p565Base c + 2 * n + 1 - p565Base c) / 2 = n := by omega
      rw [if_neg e1, e2]
    · rw [if_neg h1, if_neg h2]
      by_cases h3 : p565Base c ≤ a ∧ a < p565Base c + 2 * n
      · have h4 : p565Base c ≤ a ∧ a < p565Base c + 2 * (n + 1) := by omega
        rw [if_pos h3, if_pos h4]
      · have h4 : ¬(p565Base c ≤ a ∧ a < p565Base c + 2 * (n + 1)) := by omega
        rw [if_neg h3, if_neg h4]

/-- Recomputing P565 changes P565 and nothing else (`40_reader.md` R118). -/
theorem get_packAll_outside {c : Config} {m : Memory} {a : Nat} (h : ¬(p565Base c ≤ a ∧ a < p565Base c + 512)) :
    (packAll c m).get a = m.get a := by
  rw [packAll, get_packSome c m 256 (le_refl _), if_neg (by omega)]

/-- After recomputing, entry `i` of P565 is the packed colour of entry `i` of PAL (`40_reader.md` R118). -/
theorem p565Entry_packAll {c : Config} {m : Memory} {i : Nat} (hi : i < 256) :
    p565Entry c (packAll c m) i = palPacked c m i := by
  have h1 : (packAll c m).get (p565Base c + 2 * i) = (palPacked c m i).extractLsb' 0 8 := by
    rw [packAll, get_packSome c m 256 (le_refl _), if_pos (by omega), if_pos (by omega)]
    congr 2
    omega
  have h2 : (packAll c m).get (p565Base c + 2 * i + 1) = (palPacked c m i).extractLsb' 8 8 := by
    rw [packAll, get_packSome c m 256 (le_refl _), if_pos (by omega), if_neg (by omega)]
    congr 2
    omega
  rw [p565Entry, h1, h2]
  apply BitVec.eq_of_getLsbD_eq
  intro j hj
  simp only [BitVec.getLsbD_append, BitVec.getLsbD_extractLsb']
  by_cases h8 : j < 8
  · simp [h8]
  · simp [h8]
    have e : 8 + (j - 8) = j := by omega
    rw [e]
    simp
    omega

theorem packAll_memOk {c : Config} {m : Memory} (h : MemOk c m) : MemOk c (packAll c m) := by
  refine Memory.foldl_keeps (MemOk c) _ _ m (fun i hi m hm => ?_) h
  refine setBytes_memOk (fun a h1 h2 => ?_) hm
  rw [List.mem_range] at hi
  simp only [List.length_cons, List.length_nil] at h2
  have h3 : palBase c + 768 ≤ a ∧ a < memSize c := by
    simp only [p565Base, palBase, memSize] at *
    omega
  simp [readable, h3.1, h3.2]

end Sys2Proof.Machine
end

