-- ==== Sys2Proof/Laws/Frame.lean ====
section
/-! SUPPORT. Laws of DECODE_FRAME (`42_compositor.md` R186 to R213): how it ends, and what a completed frame changes. -/

namespace Sys2Proof.Machine

/-- The rows of a frame, from the state after the steps before them. -/
theorem decodeRows_frame_spec (s : State) (rf : Bool) :
    DecodeOn (fun a => ∃ p ∈ rectPixels (clip s.cfg s.frame), pixelAddr s.cfg p.1 p.2 = a) s
        (decodeRows (rowOrder s.frame.h.toNat s.interlace) 0 rf s).state
      ∧ (((decodeRows (rowOrder s.frame.h.toNat s.interlace) 0 rf s).outcome = .ok
            ∧ (decodeRows (rowOrder s.frame.h.toNat s.interlace) 0 rf s).state.fault = s.fault
            ∧ (decodeRows (rowOrder s.frame.h.toNat s.interlace) 0 rf s).state.code = s.code)
          ∨ ((decodeRows (rowOrder s.frame.h.toNat s.interlace) 0 rf s).outcome = .corrupt
            ∧ (decodeRows (rowOrder s.frame.h.toNat s.interlace) 0 rf s).state.fault = true
            ∧ (decodeRows (rowOrder s.frame.h.toNat s.interlace) 0 rf s).state.code = .lzwCorruptStream
            ∧ (decodeRows (rowOrder s.frame.h.toNat s.interlace) 0 rf s).state.lzw.st = .ended
            ∧ (decodeRows (rowOrder s.frame.h.toNat s.interlace) 0 rf s).state.lzw.endReason = .corrupt)) := by
  obtain ⟨h1, -, -, -, h5⟩ := decodeRows_spec (fun a => ∃ p ∈ rectPixels (clip s.cfg s.frame), pixelAddr s.cfg p.1 p.2 = a)
    (rowOrder s.frame.h.toNat s.interlace) 0 rf s (fun r hr a ha => by
      obtain ⟨p, hp, -, e⟩ := (rowDst_written (mem_rowOrder.1 hr)).1 ha
      exact ⟨p, hp, e⟩)
  exact ⟨h1, h5⟩

/-- A frame whose minimum code size is legal completes or is aborted by a corrupt code (`42_compositor.md` R199, R200). -/
theorem composeFrame_cases {m : Nat} (endOff : Nat) (rf : Bool) (s : State) (hm : legalMinCode m = true) :
    ∃ s1 r, s1 = prepareFrame { s with lzw := lzwInit m s.lzw }
      ∧ r = decodeRows (rowOrder s1.frame.h.toNat s1.interlace) 0 rf s1
      ∧ ((r.outcome = .ok ∧ composeFrame m endOff rf s = .next (finishFrame endOff r))
        ∨ (r.outcome = .corrupt ∧ composeFrame m endOff rf s
            = .next (raiseFault .lzwCorruptStream { r.state with result := BitVec.ofNat 32 r.total }))) := by
  refine ⟨_, _, rfl, rfl, ?_⟩
  rcases (decodeRows_frame_spec (prepareFrame { s with lzw := lzwInit m s.lzw }) rf).2 with ⟨h, -, -⟩ | ⟨h, -, -, -, -⟩
  · exact .inl ⟨h, by simp only [composeFrame, hm, if_true, h]⟩
  · exact .inr ⟨h, by simp only [composeFrame, hm, if_true, h]⟩

/-- What a completed frame leaves (`42_compositor.md` R201 to R210). -/
theorem finishFrame_frame (endOff : Nat) (r : Rows) :
    finishFrame endOff r = { r.state with
      stream := (r.state.stream.seek endOff).2
      ev := r.state.ev
        ++ (startEvents r.state.cfg ++ rectEvents { r.state with stream := (r.state.stream.seek endOff).2 } r.state.dirty
          ++ [.presentFrame])
      gce := gceDefaults r.state.gce
      frameNo := r.state.frameNo + 1
      key := false
      result := BitVec.ofNat 32 r.total
      code := if r.rf then .streamReadFailure else r.state.code
      diag := { r.state.diag with readFailure := r.state.diag.readFailure || r.rf } } := by
  cases h : r.rf <;> simp [finishFrame, h, reportUnless, reportReadFailure, emitFrame, emit]

/-- The state in which the frame starts: the minimum code size has been read, the chain located, POS is back at its start
(`42_compositor.md` R187, R188). -/
theorem execDecodeFrame_cases (s : State) (hf : s.fault = false) :
    (s.cfg.hasFramebuffer = false ∧ execDecodeFrame s = .refused .noFramebuffer)
      ∨ (s.cfg.hasFramebuffer = true ∧ s.cycleNo = 0
        ∧ execDecodeFrame s = .next (raiseFault .badSequence { s with code := .success }))
      ∨ (s.cfg.hasFramebuffer = true ∧ s.cycleNo ≠ 0 ∧ (∃ t, s.stream.readByte = (none, t)
        ∧ execDecodeFrame s = .next (reportReadFailure { s with code := .success, stream := t, result := 0 })))
      ∨ (s.cfg.hasFramebuffer = true ∧ s.cycleNo ≠ 0 ∧ (∃ m t, s.stream.readByte = (some m, t)
        ∧ execDecodeFrame s = composeFrame m.toNat t.scanChain.2.pos (!t.scanChain.1)
            { s with code := .success, stream := { t.scanChain.2 with pos := t.pos } })) := by
  unfold execDecodeFrame
  rw [command_of_noFault _ hf]
  dsimp only
  by_cases h1 : s.cfg.hasFramebuffer = true
  · rw [if_pos h1]
    by_cases h2 : s.cycleNo = 0
    · exact .inr (.inl ⟨h1, h2, by rw [if_pos h2]⟩)
    · rw [if_neg h2]
      rcases hr : s.stream.readByte with ⟨o, t⟩
      cases o with
      | none => exact .inr (.inr (.inl ⟨h1, h2, t, rfl, rfl⟩))
      | some m =>
        refine .inr (.inr (.inr ⟨h1, h2, m, t, rfl, ?_⟩))
        have ha := Stream.scanChain_ahead t
        obtain ⟨hb, -, rfl⟩ := Stream.readByte_some hr
        have hlt : s.stream.pos < s.stream.data.length := (List.getElem?_eq_some_iff.1 hb).1
        dsimp only
        rw [Stream.seek_ok (by simp only [Stream.slen, ha.data]; exact hlt)]
  · exact .inl ⟨by simpa using h1, by rw [if_neg h1]⟩

/-! ### What DECODE_FRAME can change -/

/-- `t` is `s` after frame work: the registers that may differ, and how the stream, the event log and DIAG move. -/
structure FrameOn (s t : State) : Prop where
  frame : t = { s with
    stream := t.stream, lzw := t.lzw, mem := t.mem, ev := t.ev, dirty := t.dirty, prevDisp := t.prevDisp
    prevFill := t.prevFill, gce := t.gce, frameNo := t.frameNo, key := t.key, code := t.code, fault := t.fault
    diag := t.diag, result := t.result }
  data    : t.stream.data = s.stream.data
  failAt  : t.stream.failAt = s.stream.failAt
  reads   : s.stream.reads ≤ t.stream.reads
  bound   : s.stream.pos ≤ s.stream.slen → t.stream.pos ≤ s.stream.slen
  ev      : ∃ es, t.ev = s.ev ++ es
  diag    : t.diag = { s.diag with
    outputClipped := t.diag.outputClipped, noEndCode := t.diag.noEndCode, readFailure := t.diag.readFailure }
  clipped : s.diag.outputClipped = true → t.diag.outputClipped = true
  noEnd   : s.diag.noEndCode = true → t.diag.noEndCode = true

theorem FrameOn.trans {s t u : State} (h : FrameOn s t) (k : FrameOn t u) : FrameOn s u where
  frame := by rw [k.frame, h.frame]
  data := k.data.trans h.data
  failAt := k.failAt.trans h.failAt
  reads := h.reads.trans k.reads
  bound := fun hp => by
    have e : t.stream.slen = s.stream.slen := by simp only [Stream.slen, h.data]
    have := k.bound (by rw [e]; exact h.bound hp)
    rwa [e] at this
  ev := by
    obtain ⟨a, ha⟩ := h.ev
    obtain ⟨b, hb⟩ := k.ev
    exact ⟨a ++ b, by rw [hb, ha, List.append_assoc]⟩
  diag := by rw [k.diag, h.diag]
  clipped := fun x => k.clipped (h.clipped x)
  noEnd := fun x => k.noEnd (h.noEnd x)

theorem DecodeOn.frameOn {w : Nat → Prop} {s t : State} (h : DecodeOn w s t) : FrameOn s t where
  frame := by rw [h.frame]
  data := h.stream.data
  failAt := h.stream.failAt
  reads := h.stream.reads
  bound := h.stream.bound
  ev := ⟨[], by rw [h.frame]; simp⟩
  diag := by rw [h.diag]
  clipped := h.clipped
  noEnd := h.noEnd

theorem prepareFrame_on (s : State) : FrameOn s (prepareFrame s) := by
  rw [prepareFrame_frame]
  exact ⟨rfl, rfl, rfl, le_refl _, id, ⟨_, rfl⟩, rfl, id, id⟩

/-- The result of a frame whose minimum code size is legal: the steps before the rows, the rows, then the end of the frame
or the abort. -/
theorem composeFrame_on {m endOff : Nat} {rf : Bool} {s t : State}
    (hm : legalMinCode m = true) (h : composeFrame m endOff rf s = .next t) : FrameOn s t := by
  obtain ⟨s1, r, e1, er, hc⟩ := composeFrame_cases endOff rf s hm
  have h0 : FrameOn s { s with lzw := lzwInit m s.lzw } :=
    ⟨rfl, rfl, rfl, le_refl _, id, ⟨[], by simp⟩, rfl, id, id⟩
  have h1 : FrameOn s s1 := e1 ▸ h0.trans (prepareFrame_on _)
  have h2 : FrameOn s r.state := h1.trans (er ▸ (decodeRows_frame_spec s1 rf).1.frameOn)
  rcases hc with ⟨-, hc⟩ | ⟨-, hc⟩
  · rw [hc] at h
    cases h
    rw [finishFrame_frame]
    refine h2.trans ⟨rfl, by simp, by simp, by simp, fun hp => Stream.seek_bound _ _ hp, ⟨_, rfl⟩, rfl, id, id⟩
  · rw [hc] at h
    cases h
    exact h2.trans ⟨rfl, rfl, rfl, le_refl _, id, ⟨[], by simp [raiseFault]⟩, rfl, id, id⟩

/-- Everything DECODE_FRAME can change. -/
theorem execDecodeFrame_on {s t : State} (hf : s.fault = false) (h : execDecodeFrame s = .next t) : FrameOn s t := by
  rcases execDecodeFrame_cases s hf with ⟨-, e⟩ | ⟨-, -, e⟩ | ⟨-, -, u, hr, e⟩ | ⟨-, -, m, u, hr, e⟩
  · rw [e] at h; cases h
  · rw [e] at h; cases h
    exact ⟨rfl, rfl, rfl, le_refl _, id, ⟨[], by simp [raiseFault]⟩, rfl, id, id⟩
  · rw [e] at h; cases h
    have ha := Stream.readByte_ahead s.stream
    rw [hr] at ha
    exact ⟨rfl, ha.data, ha.failAt, ha.reads, ha.bound, ⟨[], by simp [reportReadFailure]⟩, rfl, id, id⟩
  · have ha := Stream.readByte_ahead s.stream
    rw [hr] at ha
    have hs := Stream.scanChain_ahead u
    have h0 : FrameOn s { s with code := .success, stream := { u.scanChain.2 with pos := u.pos } } :=
      ⟨rfl, hs.data.trans ha.data, hs.failAt.trans ha.failAt, ha.reads.trans hs.reads, ha.bound, ⟨[], by simp⟩, rfl, id, id⟩
    rw [e] at h
    by_cases hm : legalMinCode m.toNat = true
    · exact h0.trans (composeFrame_on hm h)
    · rw [composeFrame, if_neg hm] at h
      cases h
      exact h0.trans ⟨rfl, rfl, rfl, le_refl _, id, ⟨[], by simp [raiseFault]⟩, rfl, id, id⟩

/-! ### What the steps before the rows do to memory -/

theorem mem_addrs_canvas {c : Config} (h : legalConfig c = true) {a : Nat} : a ∈ (canvas c).addrs c ↔ a < fbn c := by
  simp only [Rect.addrs, List.mem_map]
  constructor
  · rintro ⟨p, hp, rfl⟩
    rw [mem_rectPixels_canvas h] at hp
    exact pixelAddr_lt hp.1 hp.2
  · intro ha
    obtain ⟨x, y, hx, hy, e⟩ := exists_pixel ha
    exact ⟨(x, y), (mem_rectPixels_canvas h).2 ⟨hx, hy⟩, e⟩

theorem addrs_lt {c : Config} {r : Rect} (h : r.inCanvas c) {a : Nat} (ha : a ∈ r.addrs c) : a < fbn c := by
  obtain ⟨p, hp, rfl⟩ := List.mem_map.1 ha
  exact pixelAddr_lt (inCanvas_pixel h hp).1 (inCanvas_pixel h hp).2

theorem get_fillRect_addrs (c : Config) (v : Byte) (r : Rect) (m : Memory) (a : Nat) :
    (fillRect c v r m).get a = if a ∈ r.addrs c then v else m.get a := get_fillRect c v r m a

/-- Restore-to-previous: the pixels of the rectangle come from BK (`42_compositor.md` R193). -/
theorem get_restore {c : Config} {r : Rect} (h : r.inCanvas c) (m : Memory) (a : Nat) :
    (copyRect c (fbn c) 0 r m).get a = if a ∈ r.addrs c then m.get (fbn c + a) else m.get a := by
  rw [get_copyRect]
  · simp only [Nat.zero_add, Nat.sub_zero]
    rfl
  · intro p hp q hq
    have := pixelAddr_lt (inCanvas_pixel h hq).1 (inCanvas_pixel h hq).2
    omega

/-- Backup save: the pixels of the rectangle go to BK (`42_compositor.md` R196). -/
theorem get_save {c : Config} {r : Rect} (h : r.inCanvas c) (m : Memory) (a : Nat) :
    (copyRect c 0 (fbn c) r m).get a =
      if fbn c ≤ a ∧ a - fbn c ∈ r.addrs c then m.get (a - fbn c) else m.get a := by
  rw [get_copyRect]
  · have e : a ∈ (rectPixels r).map (fun p => fbn c + pixelAddr c p.1 p.2) ↔ fbn c ≤ a ∧ a - fbn c ∈ r.addrs c := by
      simp only [Rect.addrs, List.mem_map]
      constructor
      · rintro ⟨p, hp, rfl⟩
        exact ⟨by omega, p, hp, by omega⟩
      · rintro ⟨h1, p, hp, e⟩
        exact ⟨p, hp, by omega⟩
    simp only [e, Nat.zero_add]
  · intro p hp q hq
    have := pixelAddr_lt (inCanvas_pixel h hp).1 (inCanvas_pixel h hp).2
    omega

/-- Memory after the steps before the rows, where DIRTY is inside the canvas and a key frame has PREV_DISP = 0
(`42_compositor.md` R190, R192 to R194, R196, R212). -/
theorem get_prepareFrame {s : State} (hc : legalConfig s.cfg = true) (hd : s.dirty.inCanvas s.cfg)
    (hk : s.key = true → s.prevDisp = .none) (a : Nat) :
    (prepareFrame s).mem.get a =
      if a < fbn s.cfg then disposedByte s a
      else if s.gce.disp = .previous ∧ s.cfg.hasBackup = true ∧ a - fbn s.cfg ∈ (clip s.cfg s.frame).addrs s.cfg
      then disposedByte s (a - fbn s.cfg) else s.mem.get a := by
  -- memory after the key fill or the disposal
  have key : ∀ e : State, e.cfg = s.cfg → e.frame = s.frame → e.gce = s.gce →
      (∀ b, (applyDisposal e).mem.get b = if b < fbn s.cfg then disposedByte s b else s.mem.get b) →
      (saveBackup (bookkeep (applyDisposal e))).mem.get a =
        if a < fbn s.cfg then disposedByte s a
        else if s.gce.disp = .previous ∧ s.cfg.hasBackup = true ∧ a - fbn s.cfg ∈ (clip s.cfg s.frame).addrs s.cfg
        then disposedByte s (a - fbn s.cfg) else s.mem.get a := by
    intro e h1 h2 h3 hm
    have c1 : (bookkeep (applyDisposal e)).cfg = s.cfg := by
      show (applyDisposal e).cfg = _
      rw [applyDisposal_frame]; exact h1
    have c2 : (bookkeep (applyDisposal e)).gce = s.gce := by
      show (applyDisposal e).gce = _
      rw [applyDisposal_frame]; exact h3
    have c3 : (bookkeep (applyDisposal e)).dirty = clip s.cfg s.frame := by
      show clip (applyDisposal e).cfg (applyDisposal e).frame = _
      rw [applyDisposal_frame]
      dsimp only
      rw [h1, h2]
    have c4 : ∀ b, (bookkeep (applyDisposal e)).mem.get b = if b < fbn s.cfg then disposedByte s b else s.mem.get b := hm
    unfold saveBackup
    rw [c1, c2, c3]
    split
    · next hb =>
      dsimp only
      rw [get_save (clip_inCanvas _ _), c4, c4]
      by_cases ha : a < fbn s.cfg
      · rw [if_neg (by omega), if_pos ha, if_pos ha]
      · rw [if_neg ha, if_neg ha]
        by_cases hx : a - fbn s.cfg ∈ (clip s.cfg s.frame).addrs s.cfg
        · rw [if_pos ⟨by omega, hx⟩, if_pos (addrs_lt (clip_inCanvas _ _) hx), if_pos ⟨hb.1, hb.2, hx⟩]
        · rw [if_neg fun h => hx h.2, if_neg fun h => hx h.2.2]
    · next hb =>
      rw [c4]
      split
      · rfl
      · rw [if_neg fun h => hb ⟨h.1, h.2.1⟩]
  by_cases h : s.key = true
  · have hpd := hk h
    have ha' : asksClear (keyFill s) = false := by simp [asksClear, keyFill, h]
    have e : prepareFrame s = saveBackup (bookkeep (applyDisposal (keyFill s))) := by
      unfold prepareFrame
      rw [if_pos h]
      dsimp only
      rw [if_neg (by simp [ha'])]
    rw [e]
    refine key (keyFill s) rfl rfl rfl fun b => ?_
    have hap : applyDisposal (keyFill s) = keyFill s := by
      unfold applyDisposal
      simp [keyFill, hpd]
    rw [hap]
    show (fillRect s.cfg (fillValue s) (canvas s.cfg) s.mem).get b = _
    rw [get_fillRect_addrs]
    simp only [mem_addrs_canvas hc, disposedByte, h, if_true]
  · have hap : ∀ e : State, e = { s with ev := e.ev } → ∀ b,
        (applyDisposal e).mem.get b = if b < fbn s.cfg then disposedByte s b else s.mem.get b := by
      intro e he b
      have e1 : e.prevDisp = s.prevDisp := by rw [he]
      have e2 : e.dirty = s.dirty := by rw [he]
      have e3 : e.cfg = s.cfg := by rw [he]
      have e4 : e.mem = s.mem := by rw [he]
      have e5 : e.prevFill = s.prevFill := by rw [he]
      have hout : ¬b < fbn s.cfg → b ∉ s.dirty.addrs s.cfg := fun h1 h2 => h1 (addrs_lt hd h2)
      unfold applyDisposal
      rw [e1]
      simp only [disposedByte, h, if_false, Bool.false_eq_true]
      cases hp : s.prevDisp
      · simp [e4]
      · simp [e4]
      · simp only [e2, e3, e4, e5, get_fillRect_addrs]
        by_cases hb : b < fbn s.cfg
        · simp [hb]
        · simp [hb, hout hb]
      · rw [e3]
        by_cases hbk : s.cfg.hasBackup = true
        · simp only [hbk, if_true, e2, e4, get_restore hd]
          by_cases hb : b < fbn s.cfg
          · simp [hb]
          · simp [hb, hout hb]
        · simp [hbk, e4]
    unfold prepareFrame
    rw [if_neg h]
    dsimp only
    split
    · exact key _ rfl rfl rfl (hap _ rfl)
    · exact key s rfl rfl rfl (hap s rfl)

/-! ### What DECODE_FRAME leaves alone -/

/-- The steps before the rows leave everything above FB, and above BK where there is one (`42_compositor.md` R213). -/
theorem get_prepareFrame_outside {s : State} (hc : legalConfig s.cfg = true) (hd : s.dirty.inCanvas s.cfg) {a : Nat}
    (ha : fbn s.cfg ≤ a) (hb : s.cfg.hasBackup = true → 2 * fbn s.cfg ≤ a) :
    (prepareFrame s).mem.get a = s.mem.get a := by
  have key : ∀ e : State, e.cfg = s.cfg → e.dirty.inCanvas s.cfg → e.mem.get a = s.mem.get a →
      (saveBackup (bookkeep (applyDisposal e))).mem.get a = s.mem.get a := by
    intro e h1 h2 h3
    have out : ∀ r : Rect, r.inCanvas s.cfg → a ∉ r.addrs s.cfg := fun r hr hx => absurd (addrs_lt hr hx) (by omega)
    have h4 : (applyDisposal e).mem.get a = s.mem.get a := by
      unfold applyDisposal
      split
      · exact h3
      · exact h3
      · rw [get_fillRect_addrs, h1, if_neg (out _ h2), h3]
      · split
        · rw [h1, get_restore h2, if_neg (out _ h2), h3]
        · exact h3
    have c1 : (bookkeep (applyDisposal e)).cfg = s.cfg := by
      show (applyDisposal e).cfg = _
      rw [applyDisposal_frame]; exact h1
    unfold saveBackup
    rw [c1]
    split
    · rename_i hh
      have hdi : (bookkeep (applyDisposal e)).dirty.inCanvas s.cfg := by
        rw [← c1]; exact clip_inCanvas _ _
      show (copyRect _ _ _ _ (applyDisposal e).mem).get a = _
      rw [get_save hdi, if_neg, h4]
      rintro ⟨-, hx⟩
      have := addrs_lt hdi hx
      have := hb hh.2
      omega
    · exact h4
  unfold prepareFrame
  dsimp only
  have hk : (keyFill s).mem.get a = s.mem.get a := by
    show (fillRect s.cfg (fillValue s) (canvas s.cfg) s.mem).get a = _
    rw [get_fillRect_addrs, if_neg]
    rw [mem_addrs_canvas hc]; omega
  split <;> split
  · exact key _ rfl (canvas_inCanvas hc) hk
  · exact key _ rfl (canvas_inCanvas hc) hk
  · exact key _ rfl hd rfl
  · exact key _ rfl hd rfl

/-- What DECODE_FRAME keeps: the memory above its buffers, the form of memory, DIRTY inside the canvas, the decoder's
invariant, and PREV_DISP when the frame is still a key frame. -/
theorem execDecodeFrame_keeps {s t : State} (hf : s.fault = false) (h : execDecodeFrame s = .next t)
    (hc : legalConfig s.cfg = true) (hd : s.dirty.inCanvas s.cfg) :
    (∀ a, fbn s.cfg ≤ a → (s.cfg.hasBackup = true → 2 * fbn s.cfg ≤ a) → t.mem.get a = s.mem.get a)
    ∧ (MemOk s.cfg s.mem → MemOk s.cfg t.mem) ∧ t.dirty.inCanvas s.cfg
    ∧ (s.lzw.Ok s.cfg.lzwMaxBits → t.lzw.Ok s.cfg.lzwMaxBits)
    ∧ (t.key = true → t.fault = false → t.prevDisp = s.prevDisp ∧ s.key = true) := by
  have hl := hc
  simp only [legalConfig, Bool.and_eq_true, decide_eq_true_eq] at hl
  rcases execDecodeFrame_cases s hf with ⟨-, e⟩ | ⟨-, -, e⟩ | ⟨-, -, u, hr, e⟩ | ⟨-, -, m, u, hr, e⟩
  · rw [e] at h; cases h
  · rw [e] at h; cases h; exact ⟨fun _ _ _ => rfl, id, hd, id, by simp⟩
  · rw [e] at h; cases h; exact ⟨fun _ _ _ => rfl, id, hd, id, fun h _ => ⟨rfl, h⟩⟩
  · rw [e] at h
    by_cases hm : legalMinCode m.toNat = true
    · obtain ⟨s1, r, e1, er, hcs⟩ := composeFrame_cases u.scanChain.2.pos (!u.scanChain.1) { s with code := .success, stream := { u.scanChain.2 with pos := u.pos } } hm
      obtain ⟨q1, -⟩ := decodeRows_frame_spec s1 (!u.scanChain.1)
      rw [← er] at q1
      have c1 : s1.cfg = s.cfg ∧ s1.dirty = clip s.cfg s.frame ∧ s1.lzw = lzwInit m.toNat s.lzw := by rw [e1, prepareFrame_frame]; exact ⟨rfl, rfl, rfl⟩
      have key : (∀ a, fbn s.cfg ≤ a → (s.cfg.hasBackup = true → 2 * fbn s.cfg ≤ a) → r.state.mem.get a = s.mem.get a)
          ∧ (MemOk s.cfg s.mem → MemOk s.cfg r.state.mem) ∧ r.state.dirty.inCanvas s.cfg ∧ r.state.lzw.Ok s.cfg.lzwMaxBits := by
        refine ⟨fun a h1 h2 => ?_, fun hmo => ⟨?_, ?_⟩, ?_, ?_⟩
        · rw [q1.mem a ?_, e1]
          · exact get_prepareFrame_outside (s := { s with code := .success, stream := _, lzw := _ }) hc hd h1 h2
          · rw [c1.1]
            rintro ⟨p, hp, hx⟩
            have := addrs_lt (clip_inCanvas s.cfg s1.frame) (List.mem_map.2 ⟨p, hp, hx⟩)
            omega
        · exact q1.memWf (by rw [e1]; exact (prepareFrame_memOk (s := { s with code := .success, stream := _, lzw := _ }) hc hd hmo).1)
        · intro p hp
          rcases q1.memIn p hp with hx | hx
          · rw [c1.1] at hx
            obtain ⟨q, hq, hx⟩ := hx
            have := addrs_lt (clip_inCanvas s.cfg s1.frame) (List.mem_map.2 ⟨q, hq, hx⟩)
            simp [readable, writable, this]
          · rw [e1] at hx
            exact (prepareFrame_memOk (s := { s with code := .success, stream := _, lzw := _ }) hc hd hmo).2 p hx
        · rw [q1.dirty, c1.2.1]; exact clip_inCanvas _ _
        · have := decodeRows_ok (s := s1) (rowOrder s1.frame.h.toNat s1.interlace) 0 (!u.scanChain.1) (by rw [c1.1]; omega)
             (by rw [c1.1, c1.2.2]; exact lzwInit_ok _ (by omega) hm) (by rw [c1.2.2]; simp [lzwInit])
          rw [← er, c1.1] at this; exact this
      rcases hcs with ⟨ho, hcs⟩ | ⟨ho, hcs⟩
      · rw [hcs] at h; cases h
        rw [finishFrame_frame]
        exact ⟨key.1, key.2.1, key.2.2.1, fun _ => key.2.2.2, fun h => by cases h⟩
      · rw [hcs] at h; cases h
        exact ⟨key.1, key.2.1, key.2.2.1, fun _ => key.2.2.2, fun _ h => by cases h⟩
    · rw [composeFrame, if_neg hm] at h
      cases h
      exact ⟨fun _ _ _ => rfl, id, hd, fun h => lzwReject_ok h.fits, fun _ h => by cases h⟩

/-- How CODE, FAULT, READ_FAILURE and RESULT stand after DECODE_FRAME. -/
theorem execDecodeFrame_code {s t : State} (hf : s.fault = false) (h : execDecodeFrame s = .next t) :
    (t.diag.readFailure = true ↔ s.diag.readFailure = true ∨ t.code = .streamReadFailure)
    ∧ (t.code ∈ [CmdCode.badCommand, .badArgument, .badSequence, .faulted] → t.result = s.result)
    ∧ (t.code ∈ [CmdCode.success, .streamReadFailure] ∧ t.fault = s.fault ∨ t.code ∈ [CmdCode.lzwCorruptStream, .badCommand, .badArgument, .badSequence] ∧ t.fault = true) := by
  rcases execDecodeFrame_cases s hf with ⟨-, e⟩ | ⟨-, -, e⟩ | ⟨-, -, u, hr, e⟩ | ⟨-, -, m, u, hr, e⟩
  · rw [e] at h; cases h
  · rw [e] at h; cases h
    simp
  · rw [e] at h; cases h
    simp [reportReadFailure]
  · rw [e] at h
    by_cases hm : legalMinCode m.toNat = true
    · obtain ⟨s1, r, e1, er, hc⟩ := composeFrame_cases u.scanChain.2.pos (!u.scanChain.1) { s with code := .success, stream := { u.scanChain.2 with pos := u.pos } } hm
      obtain ⟨q1, q2⟩ := decodeRows_frame_spec s1 (!u.scanChain.1)
      rw [← er] at q1 q2
      have f1 : s1.fault = s.fault ∧ s1.code = .success ∧ s1.diag = s.diag := by
        rw [e1, prepareFrame_frame]; exact ⟨rfl, rfl, rfl⟩
      have hrf : r.state.diag.readFailure = s.diag.readFailure := by rw [q1.diag, f1.2.2]
      rcases hc with ⟨ho, hc⟩ | ⟨ho, hc⟩
      · rw [hc] at h; cases h
        rcases q2 with ⟨-, q2, q3⟩ | ⟨q2, -⟩
        · rw [finishFrame_frame]
          cases hrr : r.rf <;> simp [q2, q3, f1, hrf]
        · rw [ho] at q2; cases q2
      · rw [hc] at h; cases h
        simp [hrf]
    · rw [composeFrame, if_neg hm] at h
      cases h
      simp

end Sys2Proof.Machine
end

