-- ==== Sys2Proof/Laws/Step.lean ====
section
/-! SUPPORT. Laws of the step (`70_reset_and_hazards.md` R281): which access a step makes and what the host port can change. -/

namespace Sys2Proof.Machine

theorem step_cons {s : State} (h : s.lawful) {a rest} (hp : s.program = a :: rest) :
    step s = hostAccess a { s with program := rest } := by
  unfold step
  rw [if_pos h.1, if_pos h.2, hp]

theorem step_cmd {s : State} (h : s.lawful) {w rest} (hp : s.program = .cmd w :: rest) :
    step s = onCmdWrite w { s with program := rest } := by
  rw [step_cons h hp]; rfl

/-- Everything a step that answers a next state can do: idle, a command, an illegal word, a register write, a register
read. -/
theorem step_cases {s t : State} (h : step s = .next t) : s.lawful ∧
    ((s.program = [] ∧ t = s)
      ∨ (∃ w rest i, s.program = .cmd w :: rest ∧ decodeWord w = .ok i ∧ exec i { s with program := rest } = .next t)
      ∨ (∃ w rest e, s.program = .cmd w :: rest ∧ decodeWord w = .error e
          ∧ t = illegalWord (opcOf w) { s with program := rest })
      ∨ (∃ width off v rest, s.program = .write width off v :: rest ∧ t = writeReg off v { s with program := rest })
      ∨ (∃ width off rest, s.program = .read width off :: rest ∧ t = hostRead off { s with program := rest })) := by
  unfold step at h
  split at h
  · rename_i hc
    split at h
    · rename_i hs
      refine ⟨⟨hc, hs⟩, ?_⟩
      split at h
      · rename_i hp; cases h; exact .inl ⟨hp, rfl⟩
      · rename_i a rest hp
        unfold hostAccess at h
        split at h
        · split at h
          · rename_i hl
            split at h
            · rename_i ho
              subst ho
              have hw := hl
              simp [legalAccess] at hw
              subst hw
              unfold onCmdWrite at h
              split at h
              · rename_i i hd
                exact .inr (.inl ⟨_, rest, i, hp, hd, h⟩)
              · rename_i e hd
                cases h
                exact .inr (.inr (.inl ⟨_, rest, e, hp, hd, rfl⟩))
            · cases h
              exact .inr (.inr (.inr (.inl ⟨_, _, _, rest, hp, rfl⟩)))
          · cases h
        · split at h
          · cases h
            exact .inr (.inr (.inr (.inr ⟨_, _, rest, hp, rfl⟩)))
          · cases h
    · cases h
  · cases h

theorem writeReg_eq (off : Nat) (v : Word) (s : State) :
    ∃ a b c, writeReg off v s = { s with arg0 := a, arg1 := b, arg2 := c } := by
  unfold writeReg
  split <;> exact ⟨_, _, _, rfl⟩

theorem illegalWord_eq (o : Byte) (s : State) : ∃ c f, illegalWord o s = { s with code := c, fault := f } := by
  unfold illegalWord
  split <;> exact ⟨_, _, rfl⟩

end Sys2Proof.Machine
end

