-- ==== Sys2Proof/Tests/Slice0.lean ====
section
/-! SUPPORT. The model's own tests. Every expected value is written out from the spec: `95_test_vectors.md` (the vector is
named beside the test) or the rule's own example. The last part shows, for each statement with hypotheses, a state and
operands that meet them. -/

namespace Sys2Proof.Tests

open Sys2Proof.Machine

/-! ### Helpers -/

/-- Power-on with the stream `data`, ideal, and memory of zeros (the conventions of `95_test_vectors.md`). -/
def at0 (c : Config) (data : List Byte) : State := State.powerOn c { resetLaunch with data := data }

/-- The conventions of `95_test_vectors.md` on a canvas of `w` by `h`. -/
def canvasOf (w h : Nat) : Config := { resetConfig with maxW := w, maxH := h }

/-- The same state with these argument registers. -/
def args (a b c : Word) (s : State) : State := { s with arg0 := a, arg1 := b, arg2 := c }

/-- The same state with POS moved. -/
def seekTo (p : Nat) (s : State) : State := { s with stream := { s.stream with pos := p } }

/-- The next state's image under `f`, none where there is no next state. -/
def after {α : Type} (f : State → α) (i : Instr) (s : State) : Option α :=
  match exec i s with
  | .next t => some (f t)
  | .fault _ => none
  | .refused _ => none

/-- The refusal, if there is one. -/
def refusal (i : Instr) (s : State) : Option Refusal :=
  match exec i s with
  | .next _ => none
  | .fault _ => none
  | .refused r => some r

/-- The columns of the reader vectors. -/
structure Columns where
  result : Word
  code   : CmdCode
  pos    : Nat
  diag   : Word
  fault  : Bool
deriving DecidableEq, Repr

/-- The columns of a state. -/
def columns (s : State) : Columns := ⟨s.result, s.code, s.stream.pos, diagWord s.diag, s.fault⟩

/-- The first `n` bytes of memory from `a`. -/
def bytes (a n : Nat) (s : State) : List Byte := (List.range n).map fun i => s.mem.get (a + i)

/-! ### Ill-formed terms, refused by the checks of WellFormed -/

theorem test_illformed_root : (Instr.lzwRoot 256).wellFormed = false ∧ (Instr.lzwRoot 255).wellFormed = true := by decide
theorem test_illformed_known : (Instr.lzwKnown 4096).wellFormed = false ∧ (Instr.lzwKnown 4095).wellFormed = true := by
  decide
theorem test_illformed_invalid :
    (Instr.lzwInvalid 4096).wellFormed = false ∧ (Instr.lzwInvalid 4095).wellFormed = true := by decide
theorem test_not_selected_root :
    (Instr.lzwRoot 4).selected { m := 2, cursize := 3, slot := 6, prev := false } = false
      ∧ (Instr.lzwRoot 1).selected { m := 2, cursize := 3, slot := 6, prev := true } = false := by decide
theorem test_not_selected_known :
    (Instr.lzwKnown 4).selected { m := 2, cursize := 3, slot := 7, prev := true } = false
      ∧ (Instr.lzwKnown 7).selected { m := 2, cursize := 3, slot := 7, prev := true } = false
      ∧ (Instr.lzwKnown 1).selected { m := 2, cursize := 3, slot := 7, prev := false } = false := by decide
theorem test_not_selected_kwkwk :
    Instr.lzwKwkwk.selected { m := 2, cursize := 3, slot := 6, prev := false } = false
      ∧ Instr.lzwKwkwk.selected { m := 2, cursize := 3, slot := 8, prev := true } = false := by decide
theorem test_not_selected_invalid :
    (Instr.lzwInvalid 6).selected { m := 2, cursize := 3, slot := 6, prev := true } = false
      ∧ (Instr.lzwInvalid 3).selected { m := 2, cursize := 3, slot := 6, prev := false } = false
      ∧ (Instr.lzwInvalid 8).selected { m := 2, cursize := 3, slot := 6, prev := false } = false := by decide
theorem test_not_selected_clear_end :
    Instr.lzwClear.selected { m := 8, cursize := 8, slot := 258, prev := false } = false
      ∧ Instr.lzwEnd.selected { m := 8, cursize := 8, slot := 258, prev := false } = false
      ∧ Instr.nop.selected { m := 2, cursize := 3, slot := 6, prev := false } = false := by decide

/-! ### Decoding: words from the table of `30_encoding.md` R81 and the expansions of R94 -/

theorem test_decode_system :
    decodeWord 0x00000000#32 = .ok .nop ∧ decodeWord 0x00000001#32 = .ok .reset
      ∧ decodeWord 0x00000040#32 = .ok .memRd ∧ decodeWord 0x00000041#32 = .ok .memWr := by decide
theorem test_decode_reader :
    decodeWord 0x00000010#32 = .ok .rdByte ∧ decodeWord 0x00000011#32 = .ok .rdWord
      ∧ decodeWord 0x00000012#32 = .ok .rdBlock ∧ decodeWord 0x00000013#32 = .ok .rewind
      ∧ decodeWord 0x00000014#32 = .ok .seek ∧ decodeWord 0x00000015#32 = .ok .tell
      ∧ decodeWord 0x00000016#32 = .ok .scanChain ∧ decodeWord 0x00000017#32 = .ok .palLoad := by decide
theorem test_decode_lzw :
    decodeWord 0x00000220#32 = .ok (.lzwInit 2) ∧ decodeWord 0x00000920#32 = .ok (.lzwInit 9)
      ∧ decodeWord 0x00000021#32 = .ok .lzwDecode := by decide
theorem test_decode_compositor :
    decodeWord 0x00000030#32 = .ok .setScreen ∧ decodeWord 0x00000031#32 = .ok .setFrame
      ∧ decodeWord 0x00000032#32 = .ok .setGce ∧ decodeWord 0x00000033#32 = .ok .cycleStart
      ∧ decodeWord 0x00000034#32 = .ok .decodeFrame := by decide
/-- IMM8 is ignored but for LZW_INIT (R82). -/
theorem test_decode_imm8 : decodeWord 0x0000FF34#32 = .ok .decodeFrame := by decide
/-- V-S1, V-S2. -/
theorem test_decode_illegal :
    decodeWord 0x00000055#32 = .error .unassignedOpcode ∧ decodeWord 0x00010000#32 = .error .reservedBits := by decide
/-- The codes of V-L1: 4/3 1/3 6/3 5/3, and of V-L5 and V-L6. -/
theorem test_decode_codes :
    decodeCode { m := 2, cursize := 3, slot := 6, prev := false } 4 = .lzwClear
      ∧ decodeCode { m := 2, cursize := 3, slot := 6, prev := false } 1 = .lzwRoot 1
      ∧ decodeCode { m := 2, cursize := 3, slot := 6, prev := true } 6 = .lzwKwkwk
      ∧ decodeCode { m := 2, cursize := 3, slot := 7, prev := true } 6 = .lzwKnown 6
      ∧ decodeCode { m := 2, cursize := 3, slot := 7, prev := true } 5 = .lzwEnd
      ∧ decodeCode { m := 2, cursize := 3, slot := 6, prev := true } 7 = .lzwInvalid 7
      ∧ decodeCode { m := 2, cursize := 3, slot := 6, prev := false } 6 = .lzwInvalid 6 := by decide
theorem test_encode :
    encode (.lzwInit 2) = some 0x00000220#32 ∧ encode .decodeFrame = some 0x00000034#32 ∧ encode .lzwClear = none := by
  decide
theorem test_table_word :
    decodeTableWord 32 0x00000034 = some .decodeFrame ∧ decodeTableWord 32 0x00010000 = none := by decide
/-- The first step after reset runs the word placed at CMD. -/
theorem test_first_step :
    (match step (State.reset.withFetchWord 32 0x00000220) with
      | .next t => some (t.lzw.st, t.code, t.program)
      | _ => none) = some (.ready, .success, []) := by decide

/-! ### The reader: V-R1 to V-R21 -/

/-- The stream of V-R1 to V-R13. -/
def streamR : List Byte := [0x47, 0x34, 0x12, 0x03, 0xAA, 0xBB, 0xCC, 0x01, 0xDD, 0x00, 0x7F]

/-- V-R1. -/
theorem test_rdByte : after columns .rdByte (at0 resetConfig streamR) = some ⟨0x47, .success, 1, 0, false⟩ := by decide
/-- V-R8. -/
theorem test_rdByte_end :
    after columns .rdByte (seekTo 11 (at0 resetConfig streamR)) = some ⟨0xFFFFFFFF, .streamReadFailure, 11, 4, false⟩ := by
  decide
/-- V-R2. -/
theorem test_rdWord :
    after columns .rdWord (seekTo 1 (at0 resetConfig streamR)) = some ⟨0x1234, .success, 3, 0, false⟩ := by decide
/-- V-R15. -/
theorem test_rdWord_half :
    after columns .rdWord (at0 resetConfig [0x99]) = some ⟨0xFFFFFFFF, .streamReadFailure, 1, 4, false⟩ := by decide
/-- V-R16, with the frame of the bytes around. -/
theorem test_rdBlock :
    after (fun t => (columns t, bytes 13 4 t)) .rdBlock (args 14 2 0 (at0 resetConfig [0x09, 0x08, 0x07]))
      = some (⟨2, .success, 2, 0, false⟩, [0, 0x09, 0x08, 0]) := by decide
/-- V-R18. -/
theorem test_rdBlock_hole :
    after columns .rdBlock (args 15 2 0 (at0 { resetConfig with hasBackup := false } [0x09, 0x08, 0x07]))
      = some ⟨0, .badArgument, 0, 0, true⟩ := by decide
/-- V-R3. -/
theorem test_rewind :
    after columns .rewind (args 2 0 0 (seekTo 3 (at0 resetConfig streamR))) = some ⟨1, .success, 1, 0, false⟩ := by decide
/-- V-R13. -/
theorem test_rewind_far :
    after columns .rewind (args 12 0 0 (seekTo 11 (at0 resetConfig streamR))) = some ⟨0, .badArgument, 11, 0, true⟩ := by
  decide
/-- V-R11. -/
theorem test_seek :
    after columns .seek (args 11 0 0 (at0 resetConfig streamR)) = some ⟨0xB, .success, 11, 0, false⟩ := by decide
/-- V-R10. -/
theorem test_seek_past :
    after columns .seek (args 12 0 0 (seekTo 11 (at0 resetConfig streamR)))
      = some ⟨0xB, .streamReadFailure, 11, 4, false⟩ := by decide
/-- V-R5. -/
theorem test_tell : after columns .tell (seekTo 3 (at0 resetConfig streamR)) = some ⟨3, .success, 3, 0, false⟩ := by decide
/-- V-R6. -/
theorem test_scanChain :
    after columns .scanChain (seekTo 3 (at0 resetConfig streamR)) = some ⟨0xA, .success, 10, 0, false⟩ := by decide
/-- V-R14. -/
theorem test_scanChain_truncated :
    after columns .scanChain (at0 resetConfig [0x05, 0x01, 0x02, 0x03]) = some ⟨4, .streamReadFailure, 4, 4, false⟩ := by
  decide
/-- V-R21: the first request fails, the second is answered. -/
theorem test_readByte_fails :
    Stream.readByte { data := [0x47, 0x48], pos := 0, reads := 0, failAt := [0] }
        = (none, { data := [0x47, 0x48], pos := 0, reads := 1, failAt := [0] })
      ∧ Stream.readByte { data := [0x47, 0x48], pos := 0, reads := 1, failAt := [0] }
        = (some 0x47, { data := [0x47, 0x48], pos := 1, reads := 2, failAt := [0] }) := by decide
/-- R119 on the two colours of V-R19. -/
theorem test_pack565 : pack565 0xFF 0 0 = 0xF800 ∧ pack565 0x12 0x34 0x56 = 0x11AA ∧ pack565 0 0xFF 0 = 0x07E0 := by decide
/-- V-R20. -/
theorem test_palLoad_zero : after columns .palLoad (at0 resetConfig streamR) = some ⟨0, .badArgument, 0, 0, true⟩ := by
  decide

/-- V-R19: RESULT and CODE, PAL, the four bytes at P565_BASE. -/
theorem test_palLoad :
    after (fun t => (columns t, bytes 32 7 t, bytes 800 5 t)) .palLoad
        (args 2 0 0 (at0 resetConfig [0xFF, 0x00, 0x00, 0x12, 0x34, 0x56]))
      = some (⟨6, .success, 6, 0, false⟩, [0xFF, 0, 0, 0x12, 0x34, 0x56, 0], [0x00, 0xF8, 0xAA, 0x11, 0]) := by decide +kernel

/-! ### The LZW decoder: V-L1 to V-L17 -/

/-- A 16 by 1 canvas after LZW_INIT 2, with the chain `data` (the LZW vectors). -/
def lzw2 (data : List Byte) : State :=
  { at0 (canvasOf 16 1) data with lzw := lzwInit 2 (Lzw.uninit [] []) }

/-- What the end-state column of the LZW vectors names. -/
structure Ends where
  st       : LzwSt
  why      : LzwEnd
  cursize  : Nat
  topSlot  : Nat
  slot     : Nat
  prevCode : Nat
  first    : Byte
  nbits    : Nat
  sp       : Nat
deriving DecidableEq, Repr

/-- The end state of a state. -/
def ends (s : State) : Ends :=
  ⟨s.lzw.st, s.lzw.endReason, s.lzw.cursize, s.lzw.topSlot, s.lzw.slot, s.lzw.prevCode, s.lzw.first, s.lzw.nbits,
    s.lzw.stack.length⟩

/-- The command of the vectors' start. -/
theorem test_lzwInit : after ends (.lzwInit 2) (at0 resetConfig []) =
    some ⟨.ready, .notEnded, 3, 8, 6, 0, 0, 0, 0⟩ := by decide
/-- V-L16. -/
theorem test_lzwInit_nine : after columns (.lzwInit 9) (at0 resetConfig []) = some ⟨0, .badArgument, 0, 0, true⟩ := by
  decide
/-- V-L4, the first call: two of the four bytes are clipped. -/
theorem test_lzwDecode_clips :
    after (fun t => (t.result, t.code, diagWord t.diag, bytes 0 4 t)) .lzwDecode
        (args 0 4 2 (lzw2 [0x03, 0x8C, 0x7C, 0x05, 0x00]))
      = some (4, .success, 2, [1, 2, 0, 0]) := by decide
/-- V-L9: a clear code in the middle resets the width. -/
theorem test_lzwDecode_clear :
    after (fun t => (t.result, t.lzw.cursize, t.lzw.slot, t.lzw.nbits, bytes 0 10 t)) .lzwDecode
        (args 0 16 16 (lzw2 [0x05, 0x8C, 0x25, 0x94, 0x7D, 0x0A, 0x00]))
      = some (10, 4, 9, 3, [1, 1, 1, 2, 2, 1, 3, 3, 3, 3]) := by decide

/-- V-L7 asked for two bytes more: the zero padding is data, then the chain ends without an end code (R159). -/
theorem test_chainEnd :
    (lzwDecode 0 6 16 (lzw2 [0x02, 0x8C, 0x00, 0x00])).count = 4
      ∧ (lzwDecode 0 6 16 (lzw2 [0x02, 0x8C, 0x00, 0x00])).state.lzw.endReason = .chainEnd
      ∧ (lzwDecode 0 6 16 (lzw2 [0x02, 0x8C, 0x00, 0x00])).state.diag.noEndCode = true
      ∧ bytes 0 5 (lzwDecode 0 6 16 (lzw2 [0x02, 0x8C, 0x00, 0x00])).state = [1, 2, 0, 0, 0] := by decide
/-- V-L8: EOF inside a sub-block. -/
theorem test_readFailure :
    (lzwDecode 0 4 16 (lzw2 [0x03, 0x8C])).outcome = .fail
      ∧ ends (lzwDecode 0 4 16 (lzw2 [0x03, 0x8C])).state = ⟨.ended, .readFailure, 3, 8, 6, 1, 1, 2, 0⟩
      ∧ (lzwDecode 0 4 16 (lzw2 [0x03, 0x8C])).state.lzw.acc = 2
      ∧ (lzwDecode 0 4 16 (lzw2 [0x03, 0x8C])).state.lzw.brem = 2 := by decide

/-- The decoder of V-L1 between its codes 1/3 and 6/3: the root 1 has been read and emitted. -/
def afterRoot : State :=
  { lzw2 [] with lzw := { lzwInit 2 (Lzw.uninit [] []) with
      st := .decoding, prevValid := true, prevCode := 1, first := 1 } }

/-- V-L1, its code 4/3. -/
theorem test_code_clear : after ends .lzwClear (lzw2 []) = some ⟨.clear, .notEnded, 3, 8, 6, 0, 0, 0, 0⟩ := by decide
/-- V-L1, its code 1/3. -/
theorem test_code_root :
    after (fun t => (ends t, t.lzw.stack)) (.lzwRoot 1) (lzw2 [])
      = some (⟨.decoding, .notEnded, 3, 8, 6, 1, 1, 0, 1⟩, [1]) := by decide
/-- V-L1, its code 6/3. -/
theorem test_code_kwkwk :
    after (fun t => (ends t, t.lzw.stack, t.lzw.prefixOf 6, t.lzw.suffixOf 6)) .lzwKwkwk afterRoot
      = some (⟨.decoding, .notEnded, 3, 8, 7, 6, 1, 0, 2⟩, [1, 1], 1, 1) := by decide
/-- V-L3, its code 2/3 after 1/3: the entry 6 is the string 1 2. -/
theorem test_code_known :
    after (fun t => (ends t, t.lzw.stack, t.lzw.prefixOf 6, t.lzw.suffixOf 6)) (.lzwKnown 2) afterRoot
      = some (⟨.decoding, .notEnded, 3, 8, 7, 2, 2, 0, 1⟩, [2], 1, 2) := by decide
/-- V-L11, its code 5/3 after 1/3. -/
theorem test_code_end :
    after ends .lzwEnd afterRoot = some ⟨.ended, .endCode, 3, 8, 6, 1, 1, 0, 0⟩ := by decide
/-- V-L5, its code 7/3. -/
theorem test_code_invalid :
    after (fun t => (ends t, t.code, t.fault)) (.lzwInvalid 7) afterRoot
      = some (⟨.ended, .corrupt, 3, 8, 6, 1, 1, 0, 0⟩, .lzwCorruptStream, true) := by decide
/-- A code asked of a decoder that has not been initialised is refused (log 10). -/
theorem test_code_refused : refusal .lzwClear (at0 resetConfig []) = some .codeNotRead := by decide

/-! ### The compositor: V-C1 to V-C14 -/

/-- SET_SCREEN takes ARG0[7:0] alone (R180). -/
theorem test_setScreen : after (·.bg) .setScreen (args 0x1234 0 0 (at0 resetConfig [])) = some 0x34 := by decide
/-- V-C3, SET_FRAME 2, 1, 3, 2, 0 with the words of `30_encoding.md` R94. -/
theorem test_setFrame :
    after (fun t => (t.frame, t.interlace)) .setFrame (args 0x00010002 0x00020003 0xFFFFFFFE (at0 resetConfig []))
      = some ({ x := 2, y := 1, w := 3, h := 2 }, false) := by decide
/-- P3, SET_GCE 1, 0, 3, 10. -/
theorem test_setGce :
    after (fun t => (t.gce, t.delay, diagWord t.diag)) .setGce (args 0x00030001 0xA 0 (at0 resetConfig []))
      = some ({ tValid := true, disp := .none, tIndex := 3 }, 10, 0) := by decide
/-- V-C5. -/
theorem test_setGce_invalid :
    after (fun t => (t.gce.disp, columns t)) .setGce (args 0x00000500 0 0 (at0 resetConfig []))
      = some (.none, ⟨0, .success, 0, 1, false⟩) := by decide
/-- V-C9, the second CYCLE_START. -/
theorem test_cycleStart :
    after (fun t => (t.frameNo, t.cycleNo, t.totalFrames, t.key, t.prevDisp)) .cycleStart
        { at0 resetConfig [] with frameNo := 2, cycleNo := 1, prevDisp := .background }
      = some (0, 2, 2, true, .none) := by decide
/-- V-C9, the third. -/
theorem test_cycleStart_keeps_total :
    after (fun t => (t.cycleNo, t.totalFrames)) .cycleStart { at0 resetConfig [] with cycleNo := 2, totalFrames := 2 }
      = some (3, 2) := by decide

/-- A state after CYCLE_START, with this frame, and this graphic control. -/
def readyFrame (c : Config) (data : List Byte) (r : Rect) (g : Gce) : State :=
  { at0 c data with cycleNo := 1, key := true, frame := r, gce := g }

/-- V-C3. -/
theorem test_decodeFrame :
    after (fun t => (columns t, bytes 0 12 t, t.dirty, t.prevFill, t.ev)) .decodeFrame
        { readyFrame (canvasOf 4 3) [0x02, 0x03, 0x8C, 0x6C, 0x05, 0x00] { x := 2, y := 1, w := 3, h := 2 }
            { tValid := true, disp := .leave, tIndex := 3 } with bg := 2 }
      = some (⟨6, .success, 6, 2, false⟩, [3, 3, 3, 3, 3, 3, 1, 2, 3, 3, 2, 1], { x := 2, y := 1, w := 2, h := 2 }, 3,
          [.startDrawing, .pixel 2 1 0 0 0, .pixel 3 1 0 0 0, .pixel 2 2 0 0 0, .pixel 3 2 0 0 0, .presentFrame]) := by
  decide
/-- V-C11. -/
theorem test_decodeFrame_corrupt :
    after (fun t => (columns t, bytes 0 4 t, t.ev, t.key, t.frameNo)) .decodeFrame
        (readyFrame (canvasOf 2 2) [0x02, 0x02, 0xCC, 0x0B, 0x00] { x := 0, y := 0, w := 2, h := 2 }
          { tValid := false, disp := .none, tIndex := 0 })
      = some (⟨1, .lzwCorruptStream, 4, 0, true⟩, [1, 0, 0, 0], [], true, 0) := by decide
/-- V-C14, from a decoder with two bytes on its stack: the stack is empty in Ended (R158). -/
theorem test_decodeFrame_minCode :
    after (fun t => (columns t, t.lzw.st, t.lzw.endReason, t.lzw.stack)) .decodeFrame
        { readyFrame (canvasOf 2 2) [0x01, 0x01, 0x44, 0x00] { x := 0, y := 0, w := 2, h := 2 }
            { tValid := false, disp := .none, tIndex := 0 } with
          lzw := { lzwInit 2 (Lzw.uninit [] []) with st := .decoding, stack := [1, 2] } }
      = some (⟨0, .lzwCorruptStream, 1, 0, true⟩, .ended, .corrupt, []) := by decide
/-- V-C1, before its second frame's rows: the first frame's rectangle is background again (R192). -/
theorem test_disposal_background :
    bytes 0 4 (prepareFrame { at0 (canvasOf 4 4) [] with
        prevDisp := .background, prevFill := 0, dirty := { x := 0, y := 0, w := 2, h := 1 }
        mem := [(0, 1), (1, 1), (2, 7)] }) = [0, 0, 7, 0] := by decide
/-- V-C6, before its third frame's rows: the second frame's rectangle is restored from BK (R193). -/
theorem test_disposal_previous :
    bytes 0 4 (prepareFrame { at0 (canvasOf 4 1) [] with
        prevDisp := .previous, dirty := { x := 1, y := 0, w := 2, h := 1 }
        mem := [(0, 1), (1, 2), (2, 2), (3, 1), (5, 1), (6, 1)] }) = [1, 1, 1, 1] := by decide
/-- V-C6, before its second frame's rows: BK[1..2] are saved (R196). -/
theorem test_backup_save :
    bytes 0 8 (prepareFrame { at0 (canvasOf 4 1) [] with
        gce := { tValid := false, disp := .previous, tIndex := 0 }, frame := { x := 1, y := 0, w := 2, h := 1 }
        prevDisp := .leave, mem := [(0, 1), (1, 1), (2, 1), (3, 1)] }) = [1, 1, 1, 1, 0, 1, 1, 0] := by decide
/-- E5, P4. -/
theorem test_rowOrder : rowOrder 8 true = [0, 4, 2, 6, 1, 3, 5, 7] ∧ rowOrder 3 true = [0, 2, 1] := by decide
/-- V-C4, the clip to the canvas. -/
theorem test_clip : clip (canvasOf 4 3) { x := 5, y := 0, w := 2, h := 1 } = { x := 5, y := 0, w := 0, h := 0 } := by decide
/-- V-C8: LINE mode with a transparent index. -/
theorem test_lineEvent :
    rectEvents { readyFrame { canvasOf 3 2 with emitMode := .line } [] { x := 0, y := 0, w := 3, h := 2 }
          { tValid := true, disp := .none, tIndex := 1 } with mem := [(1, 1), (2, 2), (3, 2), (4, 1)] }
        { x := 0, y := 0, w := 3, h := 2 }
      = [.line 0 0 [0, 1, 2] 3 (List.replicate 256 0) (some 1), .line 0 1 [2, 1, 0] 3 (List.replicate 256 0) (some 1)] := by
  decide +kernel

/-! ### System commands and the host's accesses: V-S1 to V-S6, V-C12 -/

/-- V-S6. -/
theorem test_nop : exec .nop (at0 (canvasOf 2 2) []) = .next (at0 (canvasOf 2 2) []) := by rfl
/-- V-C12. -/
theorem test_nop_faulted :
    after columns .nop { at0 resetConfig [] with fault := true, code := .badCommand } = some ⟨0, .faulted, 0, 0, true⟩ := by
  decide
/-- V-C12. -/
theorem test_reset :
    after (fun t => (columns t, t.arg0, t.frameNo, t.lzw.st)) .reset
        { args 7 0 0 (seekTo 2 (at0 resetConfig streamR)) with fault := true, code := .badCommand, frameNo := 9 }
      = some (⟨0, .success, 2, 0, false⟩, 7, 0, .uninitialized) := by decide
/-- V-S4, with a byte there. -/
theorem test_memRd :
    after columns .memRd { args 776 0 0 (at0 (canvasOf 2 2) []) with mem := [(776, 0x5A)] }
      = some ⟨0x5A, .success, 0, 0, false⟩ := by decide
/-- V-S3. -/
theorem test_memRd_hole :
    after columns .memRd (args 5 0 0 (at0 { canvasOf 2 2 with hasBackup := false } []))
      = some ⟨0, .badArgument, 0, 0, true⟩ := by decide
/-- MEM_WR takes ARG1[7:0] (R233). -/
theorem test_memWr :
    after (fun t => (t.code, bytes 2 3 t)) .memWr (args 3 0x1AB 0 (at0 (canvasOf 2 2) []))
      = some (.success, [0, 0xAB, 0]) := by decide
/-- V-S5. -/
theorem test_memWr_readOnly :
    after columns .memWr (args 776 0 0 (at0 (canvasOf 2 2) [])) = some ⟨0, .badArgument, 0, 0, true⟩ := by decide

/-- The next state's image under `f`, none where the step answers none. -/
def stepped {α : Type} (f : State → α) (s : State) : Option α :=
  match step s with
  | .next t => some (f t)
  | .fault _ => none
  | .refused _ => none

/-- V-S1. -/
theorem test_step_illegal :
    stepped columns { at0 (canvasOf 2 2) [] with program := [.cmd 0x55] } = some ⟨0, .badCommand, 0, 0, true⟩ := by decide
/-- P1 step 8, its write of ARG0. -/
theorem test_step_write :
    stepped (·.arg0) { at0 (canvasOf 2 2) [] with program := [.write 32 0x04 1] } = some 1 := by decide
/-- A read of STATUS after V-C11 (R24): FAULT, KEY, LZW_ST 4, LZW_END 4, CODE 2. -/
theorem test_step_read_status :
    stepped (·.hostReads) { at0 (canvasOf 2 2) [] with
        program := [.read 32 0x14], fault := true, key := true, code := .lzwCorruptStream
        lzw := { Lzw.uninit [] [] with st := .ended, endReason := .corrupt } }
      = some [0x00020443] := by decide
/-- An access of another width is refused (R41). -/
theorem test_step_width :
    step { at0 (canvasOf 2 2) [] with program := [.write 8 0x04 1] } = .refused .illegalAccess := by rfl

/-! ### Witnesses: states and operands that meet the hypotheses of the statements, clause by clause -/

/-- A state with these accesses still to make. -/
def withAccesses (as : List HostAccess) (s : State) : State := { s with program := as }

/-- A power-on state over the stream of V-R1. -/
def base : State := at0 resetConfig streamR

/-- The same block, faulted. -/
def faulted : State := { base with fault := true, code := .badCommand }

theorem base_lawful : base.lawful ∧ faulted.lawful := ⟨⟨by decide, by decide⟩, by decide, by decide⟩

/-- A state that has not faulted: NopEffect, DescriptorCommands, GraphicControl, CycleStartEffect. -/
theorem witness_not_faulted : base.fault = false := by decide

/-- POS at 0 and at the end of S. -/
theorem witness_TellEffect :
    base.fault = false ∧ base.stream.data.length < 2 ^ 32 ∧ base.stream.pos ≤ base.stream.data.length
      ∧ (seekTo 11 base).stream.pos ≤ base.stream.data.length := by decide

theorem witness_CommandRoundTrip :
    Instr.decodeFrame.isCommand = true ∧ decodeWord 0x0000FF34#32 = .ok .decodeFrame
      ∧ decodeWord 0x0000FF20#32 = .ok (.lzwInit 0xFF) := by decide

/-- Each class at the edge of its range, and the largest code of the width. -/
theorem witness_CodeRoundTrip :
    Instr.lzwClear.selected { m := 2, cursize := 3, slot := 6, prev := false } = true
      ∧ Instr.lzwEnd.selected { m := 2, cursize := 3, slot := 6, prev := false } = true
      ∧ (Instr.lzwRoot 3).selected { m := 2, cursize := 3, slot := 6, prev := false } = true
      ∧ (Instr.lzwKnown 3).selected { m := 2, cursize := 3, slot := 6, prev := true } = true
      ∧ (Instr.lzwKnown 6).selected { m := 2, cursize := 3, slot := 7, prev := true } = true
      ∧ Instr.lzwKwkwk.selected { m := 2, cursize := 3, slot := 7, prev := true } = true
      ∧ (Instr.lzwInvalid 6).selected { m := 2, cursize := 3, slot := 6, prev := false } = true
      ∧ (Instr.lzwInvalid 7).selected { m := 2, cursize := 3, slot := 6, prev := true } = true
      ∧ 7 < 2 ^ (CodeCtx.mk 2 3 6 true).cursize := by decide

theorem witness_StepRunsDecodedCommand :
    (withAccesses [.cmd 0x10] base).lawful ∧ (withAccesses [.cmd 0x10] base).program = .cmd 0x10 :: []
      ∧ decodeWord 0x10 = .ok .rdByte := ⟨⟨by decide, by decide⟩, rfl, by decide⟩

/-- A decoder whose next code is the clear code, the end code, an invalid code, a root code; one whose chain ends and one
whose stream does; and the outcomes ok and chain of reading codes with an empty stack. -/
theorem witness_DecoderRunsDecodedCode :
    readsCode (lzw2 [0x01, 0x04]) = true
      ∧ (readCode (lzw2 [0x01, 0x04])).1 = .got 4
      ∧ decodeCode (readCode (lzw2 [0x01, 0x04])).2.lzw.codeCtx 4 = .lzwClear
      ∧ (readCode (lzw2 [0x01, 0x05])).1 = .got 5
      ∧ decodeCode (readCode (lzw2 [0x01, 0x05])).2.lzw.codeCtx 5 = .lzwEnd
      ∧ (readCode (lzw2 [0x01, 0x06])).1 = .got 6
      ∧ decodeCode (readCode (lzw2 [0x01, 0x06])).2.lzw.codeCtx 6 = .lzwInvalid 6
      ∧ (readCode (lzw2 [0x01, 0x03])).1 = .got 3
      ∧ decodeCode (readCode (lzw2 [0x01, 0x03])).2.lzw.codeCtx 3 = .lzwRoot 3
      ∧ (readCode (lzw2 [0x00])).1 = .chain ∧ (readCode (lzw2 [])).1 = .fail
      ∧ (lzw2 [0x01, 0x03]).lzw.st ≠ .ended ∧ (lzw2 [0x01, 0x03]).lzw.stack = []
      ∧ (readCodes (bitsLeft (lzw2 [0x01, 0x03]).lzw (lzw2 [0x01, 0x03]).stream) (lzw2 [0x01, 0x03])).1 = .ok
      ∧ (readCodes (bitsLeft (lzw2 [0x00]).lzw (lzw2 [0x00]).stream) (lzw2 [0x00])).1 = .chain := by decide

/-- Reserved bits, and the first and last opcode of each unassigned range. -/
theorem witness_IllegalWordFaults :
    (withAccesses [.cmd 0x00010001] base).lawful ∧ base.fault = false
      ∧ (0x00010001#32).extractLsb' 16 16 ≠ 0#16
      ∧ ∀ opc ∈ [0x02, 0x0F, 0x18, 0x1F, 0x22, 0x2F, 0x35, 0x3F, 0x42, 0xFF],
          ((BitVec.ofNat 32 opc).extractLsb' 0 8).toNat ∈ List.range' 0x02 14 ++ List.range' 0x18 8
            ++ List.range' 0x22 14 ++ List.range' 0x35 11 ++ List.range' 0x42 190 :=
  ⟨⟨by decide, by decide⟩, by decide, by decide, by decide⟩

/-- A faulted block given a NOP; RESET and MEM_RD with reserved bits; MEM_RD of the last address and the first beyond it;
RESET. -/
theorem witness_FaultedBlock :
    (withAccesses [.cmd 0x00] faulted).lawful ∧ faulted.fault = true
      ∧ ((0x00#32).extractLsb' 0 8 ≠ 0x01#8 ∧ (0x00#32).extractLsb' 0 8 ≠ 0x40#8)
      ∧ ((0x00010001#32).extractLsb' 0 8 = 0x01#8 ∧ (0x00010001#32).extractLsb' 16 16 ≠ 0#16)
      ∧ ((0x40#32).extractLsb' 0 8 = 0x40#8 ∧ (0x40#32).extractLsb' 16 16 = 0#16)
      ∧ readable faulted.cfg (args 1311 0 0 faulted).arg0.toNat = true
      ∧ readable faulted.cfg (args 1312 0 0 faulted).arg0.toNat = false
      ∧ ((0x01#32).extractLsb' 0 8 = 0x01#8 ∧ (0x01#32).extractLsb' 16 16 = 0#16) :=
  ⟨⟨by decide, by decide⟩, by decide, by decide, by decide, by decide, by decide, by decide, by decide⟩

/-- A faulted block that RESET clears, and one that MEM_RD leaves faulted. -/
theorem witness_FaultLeftOnlyByReset :
    stepped (·.fault) (withAccesses [.cmd 0x01] faulted) = some false
      ∧ stepped (fun t => (t.fault, t.result)) (withAccesses [.cmd 0x40] { faulted with mem := [(0, 9)] })
        = some (true, 9) := by decide

/-- Both clauses: a command that is not refused, and the refused one. -/
theorem witness_OutcomeOfCommand :
    (withAccesses [.cmd 0x10] base).lawful
      ∧ ¬(decodeWord 0x10 = .ok .decodeFrame ∧ base.cfg.hasFramebuffer = false ∧ base.fault = false)
      ∧ (withAccesses [.cmd 0x34] (at0 { resetConfig with hasFramebuffer := false } [])).lawful
      ∧ decodeWord 0x34 = .ok .decodeFrame
      ∧ (at0 { resetConfig with hasFramebuffer := false } []).cfg.hasFramebuffer = false :=
  ⟨⟨by decide, by decide⟩, by decide, ⟨by decide, by decide⟩, by decide, by decide⟩

/-- A step that is refused for the configuration and one for the access, and a lawful idle block. -/
theorem witness_EveryStepEnds :
    step (at0 (canvasOf 0 1) []) = .refused .illegalConfig
      ∧ step (withAccesses [.read 32 0x100] base) = .refused .illegalAccess
      ∧ step (withAccesses [.cmd 0x34] (at0 { resetConfig with hasFramebuffer := false } []))
        = .refused .noFramebuffer
      ∧ base.lawful ∧ base.program = [] := ⟨rfl, rfl, rfl, base_lawful.1, rfl⟩

/-- A width and an offset that are refused; the lowest and the highest offset written and read; offsets that read 0. -/
theorem witness_HostAccesses :
    base.lawful ∧ (8 ≠ 32 ∨ 0x04 % 4 ≠ 0) ∧ (32 ≠ 32 ∨ 0x05 % 4 ≠ 0)
      ∧ (0x04 % 4 = 0 ∧ 0x04 < 0x100 ∧ 0x04 ≠ 0) ∧ (0xFC % 4 = 0 ∧ 0xFC < 0x100 ∧ 0xFC ≠ 0) ∧ 0x60 < 0x64 :=
  ⟨base_lawful.1, by decide, by decide, by decide, by decide, by decide⟩

/-- The decoder of V-L1 after its first string, whose fields fit. -/
theorem witness_DecoderRegisterFields : afterRoot.lzw.Fits := by constructor <;> decide

/-- A command with a next state: CommandsKeepInputs, EventLogGrows. -/
theorem witness_CommandsKeepInputs :
    ∃ t, exec .rdByte base = .next t ∧ base.stream.pos ≤ base.stream.data.length ∧ Instr.rdByte ≠ .decodeFrame :=
  ⟨_, rfl, by decide, by decide⟩

/-- A command in none of the exceptions of the first clauses, TOTAL_FRAMES already known, a command that ends as a fault
with RESULT kept. -/
theorem witness_RegisterWriters :
    (∃ t, exec .nop { base with totalFrames := 2 } = .next t)
      ∧ Instr.nop ∉ [Instr.setFrame, .setGce, .cycleStart, .decodeFrame, .reset, .setScreen, .lzwDecode]
      ∧ ({ base with totalFrames := 2 } : State).totalFrames ≠ 0
      ∧ (∃ t, exec .decodeFrame base = .next t ∧ t.code = .badSequence) ∧ base.fault = false := by
  refine ⟨⟨_, rfl⟩, by decide, by decide, ⟨_, rfl, rfl⟩, by decide⟩

/-- A command that stores nothing, one that stores, the first and last byte of P565, an address that is not readable. -/
theorem witness_MemoryWriters :
    (∃ t, exec .nop base = .next t) ∧ (∃ t, exec .memWr base = .next t)
      ∧ legalConfig base.cfg = true ∧ base.dirty.inCanvas base.cfg
      ∧ palBase base.cfg + 768 ≤ 800 ∧ 1311 < memSize base.cfg ∧ readable base.cfg 1312 = false :=
  ⟨⟨_, rfl⟩, ⟨_, rfl⟩, by decide, .inl ⟨rfl, rfl⟩, by decide, by decide, by decide⟩

/-- A command with DIAG bits set before it, and the two that set one (V-C5, V-R8). -/
theorem witness_DiagnosticBits :
    (∃ t, exec .nop { base with diag := ⟨true, true, true, true⟩ } = .next t)
      ∧ (∃ t, exec .setGce (args 0x500 0 0 base) = .next t ∧ t.diag.invalidDisposal = true)
      ∧ ∃ t, exec .rdByte (seekTo 11 base) = .next t ∧ t.diag.readFailure = true :=
  ⟨⟨_, rfl⟩, ⟨_, rfl, rfl⟩, ⟨_, rfl, rfl⟩⟩

theorem witness_InvariantAtPowerOn : ({ resetLaunch with memInit := [(0, 1), (1311, 2)] } : Launch).lawful resetConfig := by
  refine ⟨by decide, by decide, ⟨by decide, by decide⟩, ?_⟩
  decide

/-- A state of the invariant that is not a power-on state: a key frame about to be decoded. -/
def keyFrame : State :=
  { readyFrame resetConfig [0x02, 0x02, 0x4C, 0x0A, 0x00] { x := 0, y := 0, w := 2, h := 1 }
      { tValid := false, disp := .previous, tIndex := 0 } with
    program := [.cmd 0x34], mem := [(0, 1)] }

theorem keyFrame_inv : Inv keyFrame where
  cfg := by decide
  stream := by decide
  pos := by decide
  mem := ⟨⟨by decide, by decide⟩, by decide⟩
  lzw := ⟨by constructor <;> decide, by decide, fun h => absurd h (by decide), by decide⟩
  dirty := .inl ⟨rfl, rfl⟩
  key := by decide

theorem witness_InvariantKept : Inv keyFrame ∧ stepped (·.frameNo) keyFrame = some 1 := ⟨keyFrame_inv, by decide⟩

/-- The first and last address of each window, and the hole. -/
theorem witness_MemReadEffect :
    (∀ a ∈ [0, 15, 16, 31, 32, 799, 800, 1311], readable resetConfig (BitVec.ofNat 32 a).toNat = true)
      ∧ readable resetConfig (1312#32).toNat = false
      ∧ readable { resetConfig with hasBackup := false } (16#32).toNat = false := by decide

theorem witness_MemWriteEffect :
    base.fault = false ∧ (∀ a ∈ [0, 15, 16, 31, 32, 799], writable resetConfig (BitVec.ofNat 32 a).toNat = true)
      ∧ writable resetConfig (800#32).toNat = false := by decide

/-- The last byte of S, and EOF: ReadByteEffect. -/
theorem witness_ReadByteEffect :
    base.fault = false ∧ (seekTo 10 base).stream.delivers 0 ∧ ¬(seekTo 11 base).stream.delivers 0 :=
  ⟨by decide, ⟨by decide, by decide⟩, fun h => absurd h.1 (by decide)⟩

theorem witness_ReadWordEffect :
    ((seekTo 9 base).stream.delivers 0 ∧ (seekTo 9 base).stream.delivers 1)
      ∧ ((seekTo 10 base).stream.delivers 0 ∧ ¬(seekTo 10 base).stream.delivers 1)
      ∧ ¬(seekTo 11 base).stream.delivers 0 :=
  ⟨⟨⟨by decide, by decide⟩, by decide, by decide⟩, ⟨⟨by decide, by decide⟩, fun h => absurd h.1 (by decide)⟩,
    fun h => absurd h.1 (by decide)⟩

/-- A range up to the last writable byte, and one that goes a byte further. -/
theorem witness_ReadBlockEffect :
    (∀ a, (args 796 4 0 base).arg0.toNat ≤ a → a < (args 796 4 0 base).arg0.toNat + (args 796 4 0 base).arg1.toNat →
        writable base.cfg a = true)
      ∧ ∃ a, (args 796 5 0 base).arg0.toNat ≤ a
        ∧ a < (args 796 5 0 base).arg0.toNat + (args 796 5 0 base).arg1.toNat ∧ writable base.cfg a = false :=
  ⟨(rangeWritable_iff resetConfig 796 800).1 (by decide), 800, by decide, by decide, by decide⟩

theorem witness_RewindEffect :
    (args 11 0 0 (seekTo 11 base)).arg0.toNat ≤ (seekTo 11 base).stream.pos
      ∧ (seekTo 11 base).stream.pos ≤ base.stream.data.length
      ∧ (seekTo 11 base).stream.pos < (args 12 0 0 base).arg0.toNat := by decide

theorem witness_SeekEffect :
    (args 11 0 0 base).arg0.toNat ≤ base.stream.data.length
      ∧ base.stream.data.length < (args 12 0 0 base).arg0.toNat := by decide

/-- A state, and the whole chain that stands at its POS (V-R6). -/
theorem witness_ScanChainEffect :
    base.fault = false ∧ (seekTo 3 base).stream.pos ≤ base.stream.data.length ∧ base.stream.failAt = []
      ∧ base.stream.data.drop 3 = chainBytes [[0xAA, 0xBB, 0xCC], [0xDD]] ++ [0x7F]
      ∧ ∀ b ∈ [[0xAA#8, 0xBB, 0xCC], [0xDD]], 1 ≤ b.length ∧ b.length ≤ 255 := by decide

/-- The four cases of the loop: no length byte, a length byte 0, a payload of two bytes, the same payload cut after its
first byte by the end of S and by an oracle that fails. -/
theorem witness_ScanChainEffect_loop :
    ¬(Stream.mk [] 0 0 []).delivers 0
      ∧ ((Stream.mk [0] 0 0 []).delivers 0 ∧ (Stream.mk [0] 0 0 []).byteAt 0 = 0)
      ∧ ((Stream.mk [2, 7, 8, 0] 0 0 []).delivers 0 ∧ (Stream.mk [2, 7, 8, 0] 0 0 []).byteAt 0 ≠ 0
        ∧ ∀ i, i < ((Stream.mk [2, 7, 8, 0] 0 0 []).byteAt 0).toNat → (Stream.mk [2, 7, 8, 0] 0 0 []).delivers (1 + i))
      ∧ ∀ u ∈ [Stream.mk [2, 7] 0 0 [], Stream.mk [2, 7, 8, 0] 0 0 [2]],
          u.delivers 0 ∧ 1 < (u.byteAt 0).toNat ∧ (∀ i, i < 1 → u.delivers (1 + i)) ∧ ¬u.delivers (1 + 1) := by
  unfold Stream.delivers
  decide

theorem witness_PaletteLoadEffect :
    base.fault = false ∧ (1 ≤ (1#32).toNat ∧ (256#32).toNat ≤ 256) ∧ (0#32).toNat < 1 ∧ 256 < (257#32).toNat := by decide

/-- The six cases, each on a stream of one or two bytes. -/
theorem witness_NextDataByteCases :
    (Stream.mk [7] 0 0 []).delivers 0 ∧ ¬(Stream.mk [] 0 0 []).delivers 0
      ∧ ((Stream.mk [0] 0 0 []).delivers 0 ∧ (Stream.mk [0] 0 0 []).byteAt 0 = 0)
      ∧ ((Stream.mk [1, 7] 0 0 []).delivers 0 ∧ (Stream.mk [1, 7] 0 0 []).byteAt 0 ≠ 0
        ∧ (Stream.mk [1, 7] 0 0 []).delivers 1)
      ∧ (Stream.mk [1] 0 0 []).byteAt 0 ≠ 0 ∧ ¬(Stream.mk [1] 0 0 []).delivers 1
      ∧ (lzw2 []).lzw.brem = 0 ∧ ({ (lzw2 []).lzw with brem := 1 } : Lzw).brem ≠ 0 :=
  ⟨⟨by decide, by decide⟩, fun h => absurd h.1 (by decide), ⟨⟨by decide, by decide⟩, by decide⟩,
    ⟨⟨by decide, by decide⟩, by decide, by decide, by decide⟩, by decide, fun h => absurd h.1 (by decide), by decide,
    by decide⟩

theorem witness_LzwInitEffect :
    base.fault = false ∧ (2 ≤ (2#8).toNat ∧ (8#8).toNat ≤ 8) ∧ (1#8).toNat < 2 ∧ 8 < (9#8).toNat := by decide

theorem witness_GetCodeLoop :
    ({ (lzw2 []).lzw with nbits := 3 } : Lzw).cursize ≤ 3 ∧ (lzw2 []).lzw.nbits < (lzw2 []).lzw.cursize := by decide

/-- The decoder of V-L1 with room for its output; the same decoder ended. -/
theorem witness_LzwDecodeEffect :
    (args 0 8 16 (lzw2 [])).fault = false ∧ (lzw2 []).lzw.st ≠ .uninitialized ∧ (lzw2 []).lzw.st ≠ .ended
      ∧ ({ (lzw2 []).lzw with st := .ended } : Lzw).st = .ended
      ∧ ∀ a, (args 0 8 16 (lzw2 [])).arg0.toNat ≤ a → a < min (args 0 8 16 (lzw2 [])).arg2.toNat
          ((args 0 8 16 (lzw2 [])).arg0.toNat + (args 0 8 16 (lzw2 [])).arg1.toNat) →
        writable (lzw2 []).cfg a = true :=
  ⟨by decide, by decide, by decide, by decide, (rangeWritable_iff (canvasOf 16 1) 0 8).1 (by decide)⟩

/-- A decoder that has not been initialised (V-L14), and one asked to store beyond PAL. -/
theorem witness_LzwDecodeTurnedAway :
    base.lzw.st = .uninitialized ∧ (lzw2 []).lzw.st ≠ .uninitialized
      ∧ ∃ a, (args 799 2 801 (lzw2 [])).arg0.toNat ≤ a ∧ a < min (args 799 2 801 (lzw2 [])).arg2.toNat
          ((args 799 2 801 (lzw2 [])).arg0.toNat + (args 799 2 801 (lzw2 [])).arg1.toNat)
        ∧ writable resetConfig a = false := ⟨by decide, by decide, 800, by decide, by decide, by decide⟩

/-- An ended decoder, which meets the invariant, and an empty range. -/
theorem witness_LzwDecodeAfterEnd :
    ({ lzw2 [] with lzw := lzwStop .endCode (lzw2 []).lzw } : State).lzw.st = .ended ∧ (lzw2 []).fault = false
      ∧ (lzwStop .endCode (lzw2 []).lzw).Ok (lzw2 []).cfg.lzwMaxBits
      ∧ ∀ a, (lzw2 []).arg0.toNat ≤ a → a < min (lzw2 []).arg2.toNat ((lzw2 []).arg0.toNat + (lzw2 []).arg1.toNat) →
        writable (lzw2 []).cfg a = true :=
  ⟨rfl, rfl, ⟨by constructor <;> decide, by decide, fun h => absurd h (by decide), by decide⟩,
    (rangeWritable_iff (canvasOf 16 1) 0 0).1 (by decide)⟩

/-- Two calls and the one they make up (V-L3): the counts are 3, 2 and 5. -/
theorem witness_LzwDecodeSplits :
    (lzwDecode 0 3 16 (lzw2 [0x03, 0x8C, 0x7C, 0x05, 0x00])).count = 3
      ∧ (lzwDecode 3 2 16 (lzwDecode 0 3 16 (lzw2 [0x03, 0x8C, 0x7C, 0x05, 0x00])).state).count = 2
      ∧ (lzwDecode 0 5 16 (lzw2 [0x03, 0x8C, 0x7C, 0x05, 0x00])).count = 5 := by decide

/-- A byte that both calls store, the bound of the second being 1 higher. -/
theorem witness_LzwBoundsOnlyStore :
    (lzwDecode 0 5 2 (lzw2 [0x03, 0x8C, 0x7C, 0x05, 0x00])).count = 5 ∧ 1 < 5 ∧ 0 + 1 < 2 ∧ 1 + 1 < 3 := by decide

/-- Two bytes on the stack, one of them below the end bound. -/
theorem witness_StackIsEmittedFirst :
    let s := args 0 2 1 { afterRoot with lzw := { afterRoot.lzw with stack := [1, 2] } }
    s.fault = false ∧ s.lzw.st ≠ .uninitialized ∧ s.lzw.st ≠ .ended ∧ s.arg1.toNat ≤ s.lzw.stack.length
      ∧ ∀ a, s.arg0.toNat ≤ a → a < min s.arg2.toNat (s.arg0.toNat + s.arg1.toNat) → writable s.cfg a = true :=
  ⟨by decide, by decide, by decide, by decide, (rangeWritable_iff (canvasOf 16 1) 0 1).1 (by decide)⟩

/-- The states of V-L1: ClearAndEndCodes, RootCode. -/
theorem witness_RootCode :
    (lzw2 []).lzw.st = .ready ∧ (lzw2 []).lzw.stack = [] ∧ (lzw2 []).lzw.prevValid = false
      ∧ 2 ^ (lzw2 []).lzw.m + 1 < 2 ^ (lzw2 []).lzw.cursize ∧ 3 < 2 ^ (lzw2 []).lzw.m
      ∧ 3 < 2 ^ (lzw2 []).lzw.cursize := by decide

/-- The decoder of V-L1 after its code 6/3 has been emitted: the entry 6 is registered. -/
def afterEntry : Lzw :=
  { afterRoot.lzw with slot := 7, prefixTab := tabSet 0 [] 6 1, suffixTab := tabSet 0 [] 6 1, prevCode := 6 }

/-- A dictionary with room, and one that is full (TOPSLOT = SLOT). -/
theorem witness_KnownCode :
    afterRoot.lzw.st = .decoding ∧ afterRoot.lzw.stack = [] ∧ afterRoot.lzw.prevValid = true
      ∧ (3 < afterRoot.lzw.slot ∧ 3 ≠ 2 ^ afterRoot.lzw.m ∧ 3 ≠ 2 ^ afterRoot.lzw.m + 1
        ∧ 3 < 2 ^ afterRoot.lzw.cursize)
      ∧ afterRoot.lzw.slot < afterRoot.lzw.topSlot
      ∧ ({ afterRoot.lzw with slot := 8 } : Lzw).topSlot ≤ 8 := by decide

/-- The last root code, and the registered entry of a decoder that meets the bounds of R162. -/
theorem witness_KnownCode_string :
    3 < 2 ^ afterEntry.m ∧ afterEntry.Ok 12 ∧ afterEntry.st = .decoding ∧ 2 ^ afterEntry.m + 2 ≤ 6
      ∧ 6 < afterEntry.slot := by
  refine ⟨by decide, ⟨by constructor <;> decide, by decide, fun _ => ?_, by decide⟩, by decide⟩
  constructor
  case dict =>
    intro k h1 h2
    obtain rfl : k = 6 := Nat.le_antisymm (Nat.le_of_lt_succ (show k < 7 from h2)) (show 6 ≤ k from h1)
    exact ⟨by decide, .inl (by decide)⟩
  case prev => exact fun _ => ⟨.inr (by decide), by decide⟩
  all_goals decide

/-- The decoder of V-L1 at its code 6/3 meets the bounds of R162. -/
theorem witness_KwkwkCode :
    (10 ≤ afterRoot.cfg.lzwMaxBits ∧ afterRoot.cfg.lzwMaxBits ≤ 12) ∧ afterRoot.lzw.Ok afterRoot.cfg.lzwMaxBits
      ∧ afterRoot.lzw.st = .decoding ∧ afterRoot.lzw.stack = [] ∧ afterRoot.lzw.prevValid = true
      ∧ afterRoot.lzw.slot < 2 ^ afterRoot.lzw.cursize := by
  refine ⟨by decide, ⟨by constructor <;> decide, by decide, fun _ => ?_, by decide⟩, by decide⟩
  constructor
  case dict => exact fun k h1 h2 => absurd (show 6 ≤ k from h1) (Nat.not_le.2 (show k < 6 from h2))
  case prev => exact fun _ => ⟨.inl (by decide), by decide⟩
  all_goals decide

/-- V-L5 and V-L6. -/
theorem witness_InvalidCode :
    (afterRoot.lzw.prevValid = true ∧ afterRoot.lzw.slot < 7 ∧ 7 ≠ 2 ^ afterRoot.lzw.m ∧ 7 ≠ 2 ^ afterRoot.lzw.m + 1
        ∧ 7 < 2 ^ afterRoot.lzw.cursize)
      ∧ ((lzw2 []).lzw.prevValid = false ∧ 2 ^ (lzw2 []).lzw.m + 2 ≤ 6 ∧ 6 < 2 ^ (lzw2 []).lzw.cursize) := by decide

theorem witness_CodeOutsideDecoder :
    Instr.lzwClear.isCommand = false ∧ refusal .lzwClear base = some .codeNotRead
      ∧ refusal .lzwClear (lzw2 []) = none := by decide

/-- A key frame about to be decoded from a stream that starts with `m`. -/
def keyFrameOf (m : Byte) : State := { keyFrame with stream := { keyFrame.stream with data := [m, 0x00] } }

/-- V-S7, V-C10, a stream at its end, V-C14 with both illegal sides of the code size. -/
theorem witness_DecodeFrameEarlyEnds :
    (at0 { resetConfig with hasFramebuffer := false } []).cfg.hasFramebuffer = false
      ∧ (base.cfg.hasFramebuffer = true ∧ base.cycleNo = 0 ∧ base.fault = false)
      ∧ keyFrame.cycleNo ≠ 0 ∧ ¬(seekTo 5 keyFrame).stream.delivers 0
      ∧ ∀ m ∈ [1#8, 9#8], (keyFrameOf m).fault = false ∧ (keyFrameOf m).cfg.hasFramebuffer = true
        ∧ (keyFrameOf m).cycleNo ≠ 0 ∧ (keyFrameOf m).stream.delivers 0
        ∧ (((keyFrameOf m).stream.byteAt 0).toNat < 2 ∨ 8 < ((keyFrameOf m).stream.byteAt 0).toNat) := by
  unfold Stream.delivers
  decide

/-- DecodeFrameEffect, DecodeFrameMemory and DecodeFramePixels, from a state of the invariant: a pixel of FB outside the
frame, a byte of BK that is saved, the first pixel of the frame. -/
theorem witness_DecodeFrameEffect :
    Inv keyFrame ∧ keyFrame.fault = false ∧ keyFrame.cfg.hasFramebuffer = true ∧ keyFrame.cycleNo ≠ 0
      ∧ keyFrame.stream.delivers 0 ∧ 2 ≤ (keyFrame.stream.byteAt 0).toNat ∧ (keyFrame.stream.byteAt 0).toNat ≤ 8
      ∧ 15 < fbn keyFrame.cfg ∧ 15 ∉ (clip keyFrame.cfg keyFrame.frame).addrs keyFrame.cfg
      ∧ fbn keyFrame.cfg ≤ 16 ∧ keyFrame.gce.disp = .previous ∧ keyFrame.cfg.hasBackup = true
      ∧ 16 - fbn keyFrame.cfg ∈ (clip keyFrame.cfg keyFrame.frame).addrs keyFrame.cfg
      ∧ (rowOrder keyFrame.frame.h.toNat keyFrame.interlace)[0]? = some 0 ∧ 1 < keyFrame.frame.w.toNat :=
  ⟨keyFrame_inv, rfl, rfl, by decide, ⟨by decide, by decide⟩, by decide, by decide, by decide, by decide, by decide,
    rfl, rfl, by decide, by decide, by decide⟩

/-- DecodeFrameEffect and DecodeFramePixels: the one decode of a key frame completes, or is corrupt (V-C11's stream). -/
theorem witness_DecodeFrameEffect_outcomes :
    (lzwDecode 0 (1 * 2) (1 * 2) { keyFrame with
        lzw := lzwInit 2 keyFrame.lzw, stream := { keyFrame.stream with pos := 1 } }).outcome = .ok
      ∧ (lzwDecode 0 (1 * 2) (1 * 2) { keyFrame with
        lzw := lzwInit 2 keyFrame.lzw
        stream := { keyFrame.stream with data := [0x02, 0x02, 0xCC, 0x0B, 0x00], pos := 1 } }).outcome = .corrupt := by
  decide

/-- The rows of a 2 by 2 frame whose second code is invalid (V-C11), and one whose stream ends (V-C13). -/
theorem witness_RowsAreOneDecode :
    (lzwDecode 0 (2 * 2) 0 (lzw2 [0x02, 0xCC, 0x0B, 0x00])).outcome = .corrupt
      ∧ (lzwDecode 0 (2 * 2) 0 (lzw2 [0x03, 0x4C])).outcome = .fail := by decide

theorem witness_EmittedEvents :
    resetConfig.emitMode = .pixel ∧ ({ resetConfig with emitMode := .line } : Config).emitMode = .line := by decide

end Sys2Proof.Tests
end

-- Proofs: Writers
section
/-! ### The writers of the block's state (`10_state.md` R21 to R34) -/

namespace Sys2Proof.Machine

/-! #### The stream under the commands that move POS either way -/

/-- `t'` is the stream `t` after requests and seeks: S and the oracle are the same, requests were counted, POS stays
within SLEN (`10_state.md` R43). -/
structure Stream.Moved (t t' : Stream) : Prop where
  data   : t'.data = t.data
  failAt : t'.failAt = t.failAt
  reads  : t.reads ≤ t'.reads
  bound  : t.pos ≤ t.slen → t'.pos ≤ t.slen

theorem Stream.Moved.refl (t : Stream) : Moved t t := ⟨rfl, rfl, le_refl _, id⟩

theorem Stream.Moved.trans {t u v : Stream} (h : Moved t u) (k : Moved u v) : Moved t v where
  data := k.data.trans h.data
  failAt := k.failAt.trans h.failAt
  reads := h.reads.trans k.reads
  bound := fun hp => by
    have e : u.slen = t.slen := congrArg List.length h.data
    exact e ▸ k.bound (e ▸ h.bound hp)

theorem Stream.Ahead.moved {t t' : Stream} (h : Ahead t t') : Moved t t' := ⟨h.data, h.failAt, h.reads, h.bound⟩

theorem Stream.seek_moved (t : Stream) (p : Nat) : Moved t (t.seek p).2 :=
  ⟨by simp, by simp, by simp, seek_bound t p⟩

theorem Stream.moved_of_seek {t t' : Stream} {p : Nat} {ok : Bool} (h : t.seek p = (ok, t')) : Moved t t' := by
  have := seek_moved t p
  rwa [h] at this

theorem Stream.readByte_moved {t t' : Stream} {o : Option Byte} (h : t.readByte = (o, t')) : Moved t t' := by
  have := readByte_ahead t
  rw [h] at this
  exact this.moved

/-! #### Which fields an instruction writes -/

/-- `s` with the fields that `i` may write taken from `t`. -/
def written (i : Instr) (s t : State) : State :=
  let u := { s with code := t.code, fault := t.fault, diag := { s.diag with readFailure := t.diag.readFailure } }
  match i with
  | .nop => u
  | .reset =>
    { t with
      cfg := s.cfg, stream := s.stream, program := s.program, hostReads := s.hostReads
      arg0 := s.arg0, arg1 := s.arg1, arg2 := s.arg2, mem := s.mem, ev := s.ev }
  | .tell | .memRd => { u with result := t.result }
  | .rdByte | .rdWord | .rewind | .seek | .scanChain => { u with stream := t.stream, result := t.result }
  | .rdBlock | .palLoad => { u with stream := t.stream, result := t.result, mem := t.mem }
  | .memWr => { u with mem := t.mem }
  | .lzwInit _ | .lzwClear | .lzwEnd | .lzwRoot _ | .lzwKnown _ | .lzwKwkwk | .lzwInvalid _ => { u with lzw := t.lzw }
  | .lzwDecode =>
    { u with
      stream := t.stream, result := t.result, mem := t.mem, lzw := t.lzw
      diag := { t.diag with invalidDisposal := s.diag.invalidDisposal } }
  | .setScreen => { u with bg := t.bg }
  | .setFrame => { u with frame := t.frame, interlace := t.interlace }
  | .setGce =>
    { u with gce := t.gce, delay := t.delay, diag := { u.diag with invalidDisposal := t.diag.invalidDisposal } }
  | .cycleStart =>
    { u with
      totalFrames := t.totalFrames, cycleNo := t.cycleNo, frameNo := t.frameNo, key := t.key
      prevDisp := t.prevDisp, gce := t.gce }
  | .decodeFrame =>
    { u with
      stream := t.stream, result := t.result, mem := t.mem, lzw := t.lzw, ev := t.ev, dirty := t.dirty
      prevDisp := t.prevDisp, prevFill := t.prevFill, gce := t.gce, frameNo := t.frameNo, key := t.key
      diag := { t.diag with invalidDisposal := s.diag.invalidDisposal } }

/-- `t` is `s` after `i`: only fields that `i` writes differ, and the stream has moved as requests and seeks
move it. -/
structure ExecOn (i : Instr) (s t : State) : Prop where
  frame  : t = written i s t
  stream : s.stream.Moved t.stream

/-- `t` is `s` after the command `i`, not RESET: DIAG.READ_FAILURE is set exactly with CODE = StreamReadFailure
(`60_exceptions.md` R244), and a fault that CODE names keeps RESULT unless it is LzwCorruptStream (`10_state.md` R23). -/
structure CommandOn (i : Instr) (s t : State) : Prop extends ExecOn i s t where
  readFailure : t.diag.readFailure = true ↔ s.diag.readFailure = true ∨ t.code = .streamReadFailure
  result      : t.code ∈ [CmdCode.badCommand, .badArgument, .badSequence, .faulted] → t.result = s.result

namespace CommandOn

/-- A command that changes CODE and FAULT alone: NOP, a command refused while faulted, a fault raised at once. -/
theorem ofCode (i : Instr) (s : State) {c : CmdCode} (f : Bool) (hc : c ≠ .streamReadFailure) :
    CommandOn i s { s with code := c, fault := f } where
  frame := by cases i <;> rfl
  stream := .refl _
  readFailure := by simp [hc]
  result := fun _ => rfl

/-- A command that succeeds: nothing is reported and DIAG.READ_FAILURE stays. -/
theorem ofSuccess {i : Instr} {s t : State} (hf : t = written i s t) (hs : s.stream.Moved t.stream)
    (hc : t.code = .success) (hr : t.diag.readFailure = s.diag.readFailure) : CommandOn i s t where
  frame := hf
  stream := hs
  readFailure := by simp [hc, hr]
  result := by simp [hc]

/-- A command that succeeds but for the report of a failed read. -/
theorem report {i : Instr} {s t : State} {ok : Bool} (h : CommandOn i s t) :
    CommandOn i s (reportUnless ok t) := by
  cases ok
  case true => exact h
  case false =>
    refine ⟨⟨?_, h.stream⟩, by simp, by simp⟩
    have hf : reportUnless false t = reportUnless false (written i s t) := congrArg _ h.frame
    rw [hf]
    cases i <;> rfl

/-- A read command that fails. -/
theorem readFailed {i : Instr} {s t : State} (h : CommandOn i s t) : CommandOn i s (reportReadFailure t) :=
  h.report (ok := false)

end CommandOn

/-- What holds of the state refused while faulted and of every next state of the command's rule holds of every next
state of the command (`30_encoding.md` R92). -/
theorem command_elim {P : State → Prop} {s t : State} {rule : State → Result} (h : command s rule = .next t)
    (hfaulted : P { s with code := .faulted })
    (hrun : s.fault = false → rule { s with code := .success } = .next t → P t) : P t := by
  rcases command_cases s rule with ⟨-, e⟩ | ⟨hf, e⟩
  · rw [e] at h
    cases h
    exact hfaulted
  · exact hrun hf (e ▸ h)

theorem command_on {i : Instr} {s t : State} {rule : State → Result} (h : command s rule = .next t)
    (hrun : s.fault = false → rule { s with code := .success } = .next t → CommandOn i s t) : CommandOn i s t :=
  command_elim h (.ofCode i s s.fault (by decide)) hrun

/-! #### The system commands -/

section
variable {s t : State}

theorem execNop_on (h : execNop s = .next t) : CommandOn .nop s t :=
  command_on h fun _ h => by cases h; exact .ofCode _ s _ (by decide)

theorem execReset_on (h : execReset s = .next t) : ExecOn .reset s t := by
  cases h; exact ⟨rfl, .refl _⟩

theorem execMemRd_on (h : execMemRd s = .next t) : CommandOn .memRd s t := by
  simp only [execMemRd, commandWhileFaulted] at h
  split at h
  · cases h; exact .ofSuccess rfl (.refl _) rfl rfl
  · cases h; exact .ofCode _ s _ (by decide)

theorem execMemWr_on (h : execMemWr s = .next t) : CommandOn .memWr s t :=
  command_on h fun _ h => by
    split at h
    · cases h; exact .ofSuccess rfl (.refl _) rfl rfl
    · cases h; exact .ofCode _ s _ (by decide)

/-! #### The reader commands -/

theorem execRdByte_on (h : execRdByte s = .next t) : CommandOn .rdByte s t :=
  command_on h fun _ h => by
    split at h
    · next hr => cases h; exact .readFailed (.ofSuccess rfl (Stream.readByte_moved hr) rfl rfl)
    · next hr => cases h; exact .ofSuccess rfl (Stream.readByte_moved hr) rfl rfl

theorem execRdWord_on (h : execRdWord s = .next t) : CommandOn .rdWord s t :=
  command_on h fun _ h => by
    split at h
    · next hr => cases h; exact .readFailed (.ofSuccess rfl (Stream.readByte_moved hr) rfl rfl)
    · next hr =>
      split at h
      · next hr' =>
        cases h
        exact .readFailed (.ofSuccess rfl ((Stream.readByte_moved hr).trans (Stream.readByte_moved hr')) rfl rfl)
      · next hr' =>
        cases h
        exact .ofSuccess rfl ((Stream.readByte_moved hr).trans (Stream.readByte_moved hr')) rfl rfl

theorem execRdBlock_on (h : execRdBlock s = .next t) : CommandOn .rdBlock s t :=
  command_on h fun _ h => by
    dsimp only at h
    split at h
    · cases h; exact .report (.ofSuccess rfl (Stream.readBlock_ahead _ _).moved rfl rfl)
    · cases h; exact .ofCode _ s _ (by decide)

theorem execRewind_on (h : execRewind s = .next t) : CommandOn .rewind s t :=
  command_on h fun _ h => by
    split at h
    · cases h; exact .ofCode _ s _ (by decide)
    · cases h; exact .ofSuccess rfl (Stream.seek_moved _ _) rfl rfl

theorem execSeek_on (h : execSeek s = .next t) : CommandOn .seek s t :=
  command_on h fun _ h => by
    split at h
    · next hs => cases h; exact .ofSuccess rfl (Stream.moved_of_seek hs) rfl rfl
    · next hs => cases h; exact .readFailed (.ofSuccess rfl (Stream.moved_of_seek hs) rfl rfl)

theorem execTell_on (h : execTell s = .next t) : CommandOn .tell s t :=
  command_on h fun _ h => by cases h; exact .ofSuccess rfl (.refl _) rfl rfl

theorem execScanChain_on (h : execScanChain s = .next t) : CommandOn .scanChain s t :=
  command_on h fun _ h => by
    dsimp only at h
    cases h
    exact .report (.ofSuccess rfl (Stream.scanChain_ahead _).moved rfl rfl)

theorem execPalLoad_on (h : execPalLoad s = .next t) : CommandOn .palLoad s t :=
  command_on h fun _ h => by
    dsimp only at h
    split at h
    · cases h; exact .ofCode _ s _ (by decide)
    · cases h
      exact .report (.ofSuccess (by simp only [written]) (Stream.readBlock_ahead _ _).moved rfl rfl)

/-! #### The decoder's commands and the code classes -/

theorem execLzwInit_on {m : Byte} (h : execLzwInit m s = .next t) : CommandOn (.lzwInit m) s t :=
  command_on h fun _ h => by
    split at h
    · cases h; exact .ofSuccess rfl (.refl _) rfl rfl
    · cases h; exact ⟨⟨rfl, .refl _⟩, by simp, fun _ => rfl⟩

theorem execLzwDecode_commandOn (h : execLzwDecode s = .next t) : CommandOn .lzwDecode s t :=
  command_on h fun hf _ => by
    obtain ⟨e, hs, hd, -, -, hrf, hres, -⟩ := execLzwDecode_on hf h
    have hi : t.diag.invalidDisposal = s.diag.invalidDisposal := by rw [hd]
    refine ⟨⟨?_, hs.moved⟩, hrf, hres⟩
    rw [written, ← hi]
    exact e

theorem runCode_on {i : Instr} {act : State → State} (ha : ∀ s, ExecOn i s (act s)) (h : runCode i act s = .next t) :
    ExecOn i s t := by
  unfold runCode at h
  split at h
  · cases h; exact ha s
  · cases h

/-! #### The compositor's commands -/

theorem execSetScreen_on (h : execSetScreen s = .next t) : CommandOn .setScreen s t :=
  command_on h fun _ h => by cases h; exact .ofSuccess rfl (.refl _) rfl rfl

theorem execSetFrame_on (h : execSetFrame s = .next t) : CommandOn .setFrame s t :=
  command_on h fun _ h => by cases h; exact .ofSuccess rfl (.refl _) rfl rfl

/-- The raw values above 3 are those without a method (`30_encoding.md` R99). -/
theorem disposalOf_eq_none_iff (v : BitVec 3) : disposalOf v = none ↔ 3 < v.toNat := by
  revert v
  decide

/-- NormaliseDisposal sets INVALID_DISPOSAL exactly on a raw value above 3, and changes nothing else
(`42_compositor.md` R183). -/
theorem normaliseDisposal_eq (v : BitVec 3) (s : State) :
    normaliseDisposal v s = ((disposalOf v).getD .none,
      { s with diag := { s.diag with invalidDisposal := s.diag.invalidDisposal || decide (3 < v.toNat) } }) := by
  have hv := disposalOf_eq_none_iff v
  cases hd : disposalOf v <;> simp [normaliseDisposal, hd, ← hv]

theorem execSetGce_of_noFault (hf : s.fault = false) :
    execSetGce s = .next { s with
      code := .success
      diag := { s.diag with
        invalidDisposal := s.diag.invalidDisposal || decide (3 < (argRawDisposal s).toNat) }
      gce := { tValid := argTFlag s, disp := (disposalOf (argRawDisposal s)).getD .none, tIndex := argTIndex s }
      delay := argDelay s } := by
  rw [execSetGce, command_of_noFault _ hf]
  simp only [normaliseDisposal_eq]
  rfl

theorem execSetGce_on (h : execSetGce s = .next t) : CommandOn .setGce s t :=
  command_on h fun hf _ => by
    rw [execSetGce_of_noFault hf] at h
    cases h
    exact .ofSuccess rfl (.refl _) rfl rfl

theorem execCycleStart_on (h : execCycleStart s = .next t) : CommandOn .cycleStart s t :=
  command_on h fun _ h => by cases h; exact .ofSuccess rfl (.refl _) rfl rfl

theorem execDecodeFrame_commandOn (h : execDecodeFrame s = .next t) : CommandOn .decodeFrame s t :=
  command_on h fun hf _ => by
    have hk := execDecodeFrame_on hf h
    obtain ⟨hrf, hres, -⟩ := execDecodeFrame_code hf h
    have hi : t.diag.invalidDisposal = s.diag.invalidDisposal := by rw [hk.diag]
    refine ⟨⟨?_, hk.data, hk.failAt, hk.reads, hk.bound⟩, hrf, hres⟩
    rw [written, ← hi]
    exact hk.frame

end

/-! #### Every instruction -/

/-- What every command but RESET does to the fields it may write. -/
theorem exec_commandOn {i : Instr} {s t : State} (h : exec i s = .next t) (hi : i.isCommand = true) (hr : i ≠ .reset) :
    CommandOn i s t := by
  cases i with
  | nop => exact execNop_on h
  | reset => exact absurd rfl hr
  | rdByte => exact execRdByte_on h
  | rdWord => exact execRdWord_on h
  | rdBlock => exact execRdBlock_on h
  | rewind => exact execRewind_on h
  | seek => exact execSeek_on h
  | tell => exact execTell_on h
  | scanChain => exact execScanChain_on h
  | palLoad => exact execPalLoad_on h
  | lzwInit m => exact execLzwInit_on h
  | lzwDecode => exact execLzwDecode_commandOn h
  | setScreen => exact execSetScreen_on h
  | setFrame => exact execSetFrame_on h
  | setGce => exact execSetGce_on h
  | cycleStart => exact execCycleStart_on h
  | decodeFrame => exact execDecodeFrame_commandOn h
  | memRd => exact execMemRd_on h
  | memWr => exact execMemWr_on h
  | lzwClear | lzwEnd | lzwRoot _ | lzwKnown _ | lzwKwkwk | lzwInvalid _ => cases hi

/-- What every instruction leaves unchanged. -/
theorem exec_on {i : Instr} {s t : State} (h : exec i s = .next t) : ExecOn i s t := by
  cases i with
  | reset => exact execReset_on h
  | lzwClear | lzwEnd | lzwRoot _ | lzwKnown _ | lzwKwkwk | lzwInvalid _ =>
    refine runCode_on ?_ h
    exact fun _ => ⟨rfl, .refl _⟩
  | _ => exact (exec_commandOn h rfl nofun).toExecOn

/-! #### The fields that an instruction does not write -/

namespace ExecOn

variable {i : Instr} {s t : State} (h : ExecOn i s t)
include h

theorem keepsInputs :
    t.arg0 = s.arg0 ∧ t.arg1 = s.arg1 ∧ t.arg2 = s.arg2 ∧ t.cfg = s.cfg ∧ t.program = s.program
      ∧ t.hostReads = s.hostReads := by
  rw [h.frame]; cases i <;> simp [written]

theorem keepsDescriptor : i ≠ .setFrame → i ≠ .reset → t.frame = s.frame ∧ t.interlace = s.interlace := by
  rw [h.frame]; cases i <;> simp [written]

theorem keepsGce : i ≠ .setGce → i ≠ .cycleStart → i ≠ .decodeFrame → i ≠ .reset → t.gce = s.gce := by
  rw [h.frame]; cases i <;> simp [written]

theorem keepsDelay : i ≠ .setGce → i ≠ .reset → t.delay = s.delay := by
  rw [h.frame]; cases i <;> simp [written]

theorem keepsBg : i ≠ .setScreen → i ≠ .reset → t.bg = s.bg := by
  rw [h.frame]; cases i <;> simp [written]

theorem keepsFrameCount :
    i ≠ .cycleStart → i ≠ .decodeFrame → i ≠ .reset →
      t.prevDisp = s.prevDisp ∧ t.key = s.key ∧ t.frameNo = s.frameNo := by
  rw [h.frame]; cases i <;> simp [written]

theorem keepsDirty : i ≠ .decodeFrame → i ≠ .reset → t.prevFill = s.prevFill ∧ t.dirty = s.dirty := by
  rw [h.frame]; cases i <;> simp [written]

theorem keepsCycleCount : i ≠ .cycleStart → i ≠ .reset → t.cycleNo = s.cycleNo ∧ t.totalFrames = s.totalFrames := by
  rw [h.frame]; cases i <;> simp [written]

theorem keepsLzw :
    i.isCommand = true → (∀ m, i ≠ .lzwInit m) → i ≠ .lzwDecode → i ≠ .decodeFrame → i ≠ .reset → t.lzw = s.lzw := by
  rw [h.frame]; cases i <;> simp [written, Instr.isCommand]

theorem keepsResult :
    i ∈ [Instr.nop, .setScreen, .setFrame, .setGce, .cycleStart, .memWr] ∨ (∃ m, i = .lzwInit m) ∨ i.isCommand = false →
      t.result = s.result := by
  rw [h.frame]; cases i <;> simp [written, Instr.isCommand]

theorem keepsInvalidDisposal : i ≠ .setGce → i ≠ .reset → t.diag.invalidDisposal = s.diag.invalidDisposal := by
  rw [h.frame]; cases i <;> simp [written]

theorem keepsDecoderDiag :
    i ≠ .lzwDecode → i ≠ .decodeFrame → i ≠ .reset →
      t.diag.outputClipped = s.diag.outputClipped ∧ t.diag.noEndCode = s.diag.noEndCode := by
  rw [h.frame]; cases i <;> simp [written]

theorem keepsEv : i ≠ .decodeFrame → t.ev = s.ev := by
  rw [h.frame]; cases i <;> simp [written]

end ExecOn

/-! ### O16: the inputs -/

/-- Settles O16: no instruction writes an input field, and the stream moves only as requests and seeks move it. -/
theorem commandsKeepInputs : Obligations.CommandsKeepInputs := by
  unfold Obligations.CommandsKeepInputs
  intro i s t h
  have hs := (exec_on h).stream
  obtain ⟨h0, h1, h2, hc, hp, hh⟩ := (exec_on h).keepsInputs
  refine ⟨h0, h1, h2, hc, hs.data, hs.failAt, hs.reads, hp, hh, fun hb => ?_⟩
  rw [hs.data]
  exact hs.bound hb

/-! ### O17: the writers of the registers -/

/-- CYCLE_START leaves TOTAL_FRAMES once it is set (`42_compositor.md` R184). -/
theorem execCycleStart_totalFrames {s t : State} (h : execCycleStart s = .next t) (h0 : s.totalFrames ≠ 0) :
    t.totalFrames = s.totalFrames :=
  command_elim (P := fun t => t.totalFrames = s.totalFrames) h rfl fun _ h => by
    cases h
    exact if_neg fun hz => h0 hz.2

theorem exec_totalFrames {i : Instr} {s t : State} (h : exec i s = .next t) (h0 : s.totalFrames ≠ 0) (hr : i ≠ .reset) :
    t.totalFrames = s.totalFrames := by
  by_cases hi : i = .cycleStart
  · subst hi
    exact execCycleStart_totalFrames h h0
  · exact ((exec_on h).keepsCycleCount hi hr).2

/-- Settles O17: each register's writers are those that `written` lists; CYCLE_START writes TOTAL_FRAMES only while it
is 0; RESULT after a named fault is part of `CommandOn`. -/
theorem registerWriters : Obligations.RegisterWriters := by
  unfold Obligations.RegisterWriters
  intro i s t h
  have hx := exec_on h
  exact ⟨hx.keepsDescriptor, hx.keepsGce, hx.keepsDelay, hx.keepsBg, hx.keepsFrameCount, hx.keepsDirty,
    hx.keepsCycleCount, exec_totalFrames h, hx.keepsLzw,
    fun hc _ hr hi => (exec_commandOn h hi hr).result hc, hx.keepsResult⟩

/-! ### O19: the diagnostic bits -/

section
variable {s t : State}

/-- SET_GCE sets INVALID_DISPOSAL exactly on a raw value above 3 (`42_compositor.md` R183). -/
theorem execSetGce_invalidDisposal (h : execSetGce s = .next t) :
    t.diag.invalidDisposal = true ↔
      s.diag.invalidDisposal = true ∨ (s.fault = false ∧ 3 < (s.arg0.extractLsb' 8 3).toNat) := by
  rcases hf : s.fault
  · rw [execSetGce_of_noFault hf] at h
    cases h
    simp only [Bool.or_eq_true, decide_eq_true_eq, true_and]
    rfl
  · rw [execSetGce, command_of_fault _ hf] at h
    cases h
    simp

/-- OUTPUT_CLIPPED and NO_END_CODE, where set in `d`, are set in `d'`. -/
def Diag.KeepsDecoderBits (d d' : Diag) : Prop :=
  (d.outputClipped = true → d'.outputClipped = true) ∧ (d.noEndCode = true → d'.noEndCode = true)

theorem execLzwDecode_sticky (h : execLzwDecode s = .next t) : s.diag.KeepsDecoderBits t.diag :=
  command_elim (P := fun t => s.diag.KeepsDecoderBits t.diag) h ⟨id, id⟩ fun hf _ => by
    obtain ⟨-, -, -, hclip, hend, -⟩ := execLzwDecode_on hf h
    exact ⟨hclip, hend⟩

theorem execDecodeFrame_sticky (h : execDecodeFrame s = .next t) : s.diag.KeepsDecoderBits t.diag :=
  command_elim (P := fun t => s.diag.KeepsDecoderBits t.diag) h ⟨id, id⟩ fun hf _ =>
    ⟨(execDecodeFrame_on hf h).clipped, (execDecodeFrame_on hf h).noEnd⟩

/-- OUTPUT_CLIPPED and NO_END_CODE are sticky until RESET (`10_state.md` R25). -/
theorem exec_sticky {i : Instr} (h : exec i s = .next t) (hr : i ≠ .reset) : s.diag.KeepsDecoderBits t.diag := by
  by_cases hd : i = .lzwDecode
  · subst hd
    exact execLzwDecode_sticky h
  by_cases hfr : i = .decodeFrame
  · subst hfr
    exact execDecodeFrame_sticky h
  obtain ⟨hc, hn⟩ := (exec_on h).keepsDecoderDiag hd hfr hr
  exact ⟨hc.trans, hn.trans⟩

/-- INVALID_DISPOSAL is sticky until RESET and set by SET_GCE alone (`10_state.md` R25). -/
theorem exec_invalidDisposal {i : Instr} (h : exec i s = .next t) (hr : i ≠ .reset) :
    t.diag.invalidDisposal = true ↔
      s.diag.invalidDisposal = true ∨ (i = .setGce ∧ s.fault = false ∧ 3 < (s.arg0.extractLsb' 8 3).toNat) := by
  by_cases hg : i = .setGce
  · subst hg
    simpa only [eq_self, true_and] using execSetGce_invalidDisposal h
  · simp [(exec_on h).keepsInvalidDisposal hg hr, hg]

end

/-- Settles O19: SET_GCE's bit by its own lemma, READ_FAILURE as part of `CommandOn`, the decoder's two bits sticky. -/
theorem diagnosticBits : Obligations.DiagnosticBits := by
  unfold Obligations.DiagnosticBits
  intro i s t h hr hi
  obtain ⟨hclip, hend⟩ := exec_sticky h hr
  exact ⟨exec_invalidDisposal h hr, (exec_commandOn h hi hr).readFailure, hclip, hend,
    fun hd hfr => (exec_on h).keepsDecoderDiag hd hfr hr⟩

/-! ### O20: the event log -/

theorem execDecodeFrame_ev {s t : State} (h : execDecodeFrame s = .next t) : ∃ es, t.ev = s.ev ++ es :=
  command_elim (P := fun t => ∃ es, t.ev = s.ev ++ es) h ⟨[], by simp⟩ fun hf _ => (execDecodeFrame_on hf h).ev

theorem exec_appends {i : Instr} {s t : State} (h : exec i s = .next t) : ∃ es, t.ev = s.ev ++ es := by
  by_cases hi : i = .decodeFrame
  · subst hi
    exact execDecodeFrame_ev h
  · exact ⟨[], by simp [(exec_on h).keepsEv hi]⟩

/-- Of what a step can do, only a command can change the event log. -/
theorem step_appends {s t : State} (h : step s = .next t) : ∃ es, t.ev = s.ev ++ es := by
  obtain ⟨-, hc⟩ := step_cases h
  obtain ⟨-, rfl⟩ | ⟨_, _, _, -, -, he⟩ | ⟨w, rest, _, -, -, rfl⟩ | ⟨_, off, v, rest, -, rfl⟩ | ⟨_, _, _, -, rfl⟩ := hc
  · exact ⟨[], by simp⟩
  · have happ := exec_appends he
    exact happ
  · obtain ⟨_, _, e⟩ := illegalWord_eq (opcOf w) { s with program := rest }
    exact ⟨[], by simp [e]⟩
  · obtain ⟨_, _, _, e⟩ := writeReg_eq off v { s with program := rest }
    exact ⟨[], by simp [e]⟩
  · exact ⟨[], by simp [hostRead]⟩

/-- Settles O20: only DECODE_FRAME writes the log, and it appends. -/
theorem eventLogGrows : Obligations.EventLogGrows := by
  unfold Obligations.EventLogGrows
  exact ⟨fun _ _ _ h => ⟨exec_appends h, (exec_on h).keepsEv⟩, fun _ _ => step_appends⟩

end Sys2Proof.Machine
end

-- Proofs: RegisterWords
section
/-! ### The host's register accesses and the words it reads (`10_state.md` R21 to R42) -/

namespace Sys2Proof.Machine

/-! #### Accesses (O13) -/

theorem legalAccess_iff (width off : Nat) : legalAccess width off = true ↔ width = 32 ∧ off % 4 = 0 ∧ off < 0x100 := by
  simp [legalAccess, and_assoc]

/-- A write sets ARG0, ARG1 or ARG2 where it is to that register, and nothing elsewhere (`10_state.md` R21, R42). -/
theorem writeReg_args (off : Nat) (v : Word) (s : State) :
    writeReg off v s = { s with
      arg0 := if off = 0x04 then v else s.arg0
      arg1 := if off = 0x08 then v else s.arg1
      arg2 := if off = 0x0C then v else s.arg2 } := by
  unfold writeReg
  split <;> simp_all

theorem readReg_program (off : Nat) (s : State) (rest : List HostAccess) :
    readReg off { s with program := rest } = readReg off s := rfl

/-- CMD, the reserved offset and the offsets above LZW_SP read 0 (`10_state.md` R22, R41). -/
theorem readReg_unlisted {off : Nat} (s : State) (h : off = 0 ∨ off = 0x1C ∨ 0x60 < off) : readReg off s = 0 := by
  revert h
  unfold readReg
  split <;> simp

/-- Settles O13: the step makes the host's next access, and `legalAccess` decides whether it is lawful. -/
theorem hostAccesses : Obligations.HostAccesses := by
  unfold Obligations.HostAccesses
  intro s width off v rest hs
  refine ⟨fun hbad hp => ?_, fun hw ha hlt hcmd hp => ?_, fun hw ha hlt hp => ?_, readReg_unlisted s⟩
  · have hl : ¬legalAccess width off = true := by rw [legalAccess_iff]; omega
    rcases hp with hp | hp <;> rw [step_cons hs hp, hostAccess, if_neg hl]
  · rw [step_cons hs hp, hostAccess, if_pos ((legalAccess_iff _ _).2 ⟨hw, ha, hlt⟩), if_neg hcmd, writeReg_args]
  · rw [step_cons hs hp, hostAccess, if_pos ((legalAccess_iff _ _).2 ⟨hw, ha, hlt⟩), hostRead, readReg_program]

/-! #### Fields of a packed word -/

section
variable {v width lo : Nat} {fs : List (Nat × Nat × Nat)}

/-- Above the first field a packed word is read from its other fields. -/
theorem extract_packWord_tail {start len : Nat} (h : lo + width ≤ start) :
    (packWord ((v, width, lo) :: fs)).extractLsb' start len = (packWord fs).extractLsb' start len := by
  apply BitVec.eq_of_getLsbD_eq
  intro i _
  have hout : ¬start + i < lo + width := by omega
  simp [getLsbD_packWord, hout]

/-- Where the other fields lie above the first one, it is read as its value cut to its width. -/
theorem extract_packWord_head (hw : lo + width ≤ 32) (hfs : ∀ f ∈ fs, lo + width ≤ f.2.2) :
    (packWord ((v, width, lo) :: fs)).extractLsb' lo width = BitVec.ofNat width v := by
  apply BitVec.eq_of_getLsbD_eq
  intro i hi
  have hrest : (packWord fs).getLsbD (lo + i) = false := by
    rw [getLsbD_packWord, List.any_eq_false]
    intro f hf
    have hbelow : ¬f.2.2 ≤ lo + i := by have := hfs f hf; omega
    simp [hbelow]
  have h32 : lo + i < 32 := by omega
  rw [BitVec.getLsbD_extractLsb', packWord, BitVec.getLsbD_or, hrest, getLsbD_ofNat_field, BitVec.getLsbD_ofNat]
  simp [hi, h32]

end

/-- Fields of these widths at these positions are in a word, from its low bits up, and none has a bit of the mask. -/
abbrev Laid (mask : Word) (ps : List (Nat × Nat)) : Prop :=
  ps.Pairwise (fun p q => p.2 + p.1 ≤ q.2) ∧ ∀ p ∈ ps, p.2 + p.1 ≤ 32 ∧ mask.extractLsb' p.2 p.1 = 0

theorem packWord_field {mask : Word} {fs : List (Nat × Nat × Nat)} (h : Laid mask (fs.map Prod.snd)) :
    ∀ f ∈ fs, (packWord fs).extractLsb' f.2.2 f.2.1 = BitVec.ofNat f.2.1 f.1 := by
  induction fs with
  | nil => simp
  | cons f fs ih =>
    obtain ⟨hord, hin⟩ := h
    obtain ⟨hfirst, hord⟩ := List.pairwise_cons.1 hord
    have hf : f.2.2 + f.2.1 ≤ 32 := (hin f.2 List.mem_cons_self).1
    have habove : ∀ g ∈ fs, f.2.2 + f.2.1 ≤ g.2.2 := fun g hg => hfirst g.2 (List.mem_map_of_mem hg)
    intro g hg
    rcases List.mem_cons.1 hg with rfl | hg
    · exact extract_packWord_head hf habove
    · exact (extract_packWord_tail (habove g hg)).trans (ih ⟨hord, fun p hp => hin p (List.mem_cons_of_mem _ hp)⟩ g hg)

theorem packWord_and_mask {mask : Word} {fs : List (Nat × Nat × Nat)} (h : Laid mask (fs.map Prod.snd)) :
    packWord fs &&& mask = 0 := by
  apply BitVec.eq_of_getLsbD_eq
  intro i _
  suffices (packWord fs).getLsbD i = true → mask.getLsbD i = false by simpa using this
  rw [getLsbD_packWord, List.any_eq_true]
  rintro ⟨f, hf, hbit⟩
  simp only [Bool.and_eq_true, decide_eq_true_eq] at hbit
  obtain ⟨⟨⟨-, hlo⟩, hhi⟩, -⟩ := hbit
  have hz : (mask.extractLsb' f.2.2 f.2.1).getLsbD (i - f.2.2) = false := by
    rw [(h.2 f.2 (List.mem_map_of_mem hf)).2]
    exact BitVec.getLsbD_zero
  have hin : i - f.2.2 < f.2.1 := by omega
  rwa [BitVec.getLsbD_extractLsb', decide_eq_true hin, Bool.true_and, Nat.add_sub_cancel' hlo] at hz

/-- What a packed word reads as: each field its value cut to its width, and 0 under the mask. -/
theorem packWord_reads {w mask : Word} {fs : List (Nat × Nat × Nat)} {ps : List (Nat × Nat)} (hw : w = packWord fs)
    (hp : fs.map Prod.snd = ps) (h : Laid mask ps) :
    fs.Forall (fun f => w.extractLsb' f.2.2 f.2.1 = BitVec.ofNat f.2.1 f.1) ∧ w &&& mask = 0 := by
  subst hw hp
  exact ⟨List.forall_iff_forall_mem.2 (packWord_field h), packWord_and_mask h⟩

section
variable {w : Word} {lo n : Nat}

theorem flag_of_field {b : Bool} (h : w.extractLsb' lo 1 = BitVec.ofNat 1 b.toNat) : w.getLsbD lo = b := by
  have h0 := congrArg (BitVec.getLsbD · 0) h
  cases b <;> simpa using h0

theorem bits_of_field {x : BitVec n} (h : w.extractLsb' lo n = BitVec.ofNat n x.toNat) : w.extractLsb' lo n = x := by
  simpa using h

theorem nat_of_field {v : Nat} (h : w.extractLsb' lo n = BitVec.ofNat n v) (hv : v < 2 ^ n) :
    (w.extractLsb' lo n).toNat = v := by
  rw [h, BitVec.toNat_ofNat, Nat.mod_eq_of_lt hv]

end

/-! #### The numbers of the status values fit their fields (`30_encoding.md` R95, R99, `10_state.md` R33) -/

theorem CmdCode.toNat_lt (c : CmdCode) : c.toNat < 2 ^ 4 := by cases c <;> decide

theorem LzwSt.toNat_lt (x : LzwSt) : x.toNat < 2 ^ 3 := by cases x <;> decide

theorem LzwEnd.toNat_lt (x : LzwEnd) : x.toNat < 2 ^ 3 := by cases x <;> decide

theorem Disposal.toNat_lt (d : Disposal) : d.toNat < 2 ^ 3 := by cases d <;> decide

/-! #### The words (O14, O15) -/

theorem statusWord_reads (s : State) :
    (statusWord s).getLsbD 0 = s.fault ∧ (statusWord s).getLsbD 1 = s.key
      ∧ ((statusWord s).extractLsb' 4 3).toNat = s.lzw.st.toNat
      ∧ ((statusWord s).extractLsb' 8 3).toNat = s.lzw.endReason.toNat
      ∧ ((statusWord s).extractLsb' 16 4).toNat = s.code.toNat ∧ statusWord s &&& 0xFFF0F88C#32 = 0 := by
  obtain ⟨⟨hfault, hkey, hst, hend, hcode⟩, hz⟩ :=
    packWord_reads (w := statusWord s) (ps := [(1, 0), (1, 1), (3, 4), (3, 8), (4, 16)]) (mask := 0xFFF0F88C#32)
      rfl rfl (by decide)
  exact ⟨flag_of_field hfault, flag_of_field hkey, nat_of_field hst (LzwSt.toNat_lt _),
    nat_of_field hend (LzwEnd.toNat_lt _), nat_of_field hcode (CmdCode.toNat_lt _), hz⟩

theorem diagWord_reads (d : Diag) :
    (diagWord d).getLsbD 0 = d.invalidDisposal ∧ (diagWord d).getLsbD 1 = d.outputClipped
      ∧ (diagWord d).getLsbD 2 = d.readFailure ∧ (diagWord d).getLsbD 3 = d.noEndCode
      ∧ diagWord d &&& 0xFFFFFFF0#32 = 0 := by
  obtain ⟨⟨h0, h1, h2, h3⟩, hz⟩ :=
    packWord_reads (w := diagWord d) (ps := [(1, 0), (1, 1), (1, 2), (1, 3)]) (mask := 0xFFFFFFF0#32) rfl rfl
      (by decide)
  exact ⟨flag_of_field h0, flag_of_field h1, flag_of_field h2, flag_of_field h3, hz⟩

theorem gceWord_reads (g : Gce) :
    (gceWord g).getLsbD 0 = g.tValid ∧ ((gceWord g).extractLsb' 8 3).toNat = g.disp.toNat
      ∧ (gceWord g).extractLsb' 16 8 = g.tIndex ∧ gceWord g &&& 0xFF00F8FE#32 = 0 := by
  obtain ⟨⟨hvalid, hdisp, hindex⟩, hz⟩ :=
    packWord_reads (w := gceWord g) (ps := [(1, 0), (3, 8), (8, 16)]) (mask := 0xFF00F8FE#32) rfl rfl (by decide)
  exact ⟨flag_of_field hvalid, nat_of_field hdisp (Disposal.toNat_lt _), bits_of_field hindex, hz⟩

theorem frFlagsWord_reads (b : Bool) :
    (packWord [(b.toNat, 1, 0)]).getLsbD 0 = b ∧ packWord [(b.toNat, 1, 0)] &&& 0xFFFFFFFE#32 = 0 := by
  obtain ⟨hb, hz⟩ :=
    packWord_reads (fs := [(b.toNat, 1, 0)]) (ps := [(1, 0)]) (mask := 0xFFFFFFFE#32) rfl rfl (by decide)
  exact ⟨flag_of_field hb, hz⟩

/-- A word with one field at its low end: DELAY, SCREEN. -/
theorem packWord_single_reads {n : Nat} (x : BitVec n) {mask : Word} (h : Laid mask [(n, 0)]) :
    (packWord [(x.toNat, n, 0)]).extractLsb' 0 n = x ∧ packWord [(x.toNat, n, 0)] &&& mask = 0 := by
  obtain ⟨hx, hz⟩ := packWord_reads (fs := [(x.toNat, n, 0)]) rfl rfl h
  exact ⟨bits_of_field hx, hz⟩

/-- The corner and the size of a rectangle (`10_state.md` R26, R30). -/
theorem rectWords_read (r : Rect) :
    (xyWord r).extractLsb' 0 16 = r.x ∧ (xyWord r).extractLsb' 16 16 = r.y
      ∧ (whWord r).extractLsb' 0 16 = r.w ∧ (whWord r).extractLsb' 16 16 = r.h := by
  obtain ⟨hx, hy⟩ := halves_append r.y r.x
  obtain ⟨hw, hh⟩ := halves_append r.h r.w
  exact ⟨hx, hy, hw, hh⟩

theorem prevWord_reads (s : State) :
    ((prevWord s).extractLsb' 0 3).toNat = s.prevDisp.toNat ∧ (prevWord s).extractLsb' 8 8 = s.prevFill
      ∧ prevWord s &&& 0xFFFF00F8#32 = 0 := by
  obtain ⟨⟨hdisp, hfill⟩, hz⟩ :=
    packWord_reads (w := prevWord s) (ps := [(3, 0), (8, 8)]) (mask := 0xFFFF00F8#32) rfl rfl (by decide)
  exact ⟨nat_of_field hdisp (Disposal.toNat_lt _), bits_of_field hfill, hz⟩

section
variable {z : Lzw} (h : z.Fits)
include h

theorem lzwAWord_reads :
    ((lzwAWord z).extractLsb' 0 4).toNat = z.m ∧ ((lzwAWord z).extractLsb' 4 4).toNat = z.cursize
      ∧ ((lzwAWord z).extractLsb' 8 13).toNat = z.topSlot ∧ lzwAWord z &&& 0xFFE00000#32 = 0 := by
  obtain ⟨⟨hm, hcur, htop⟩, hz⟩ :=
    packWord_reads (w := lzwAWord z) (ps := [(4, 0), (4, 4), (13, 8)]) (mask := 0xFFE00000#32) rfl rfl (by decide)
  exact ⟨nat_of_field hm h.m, nat_of_field hcur h.cursize, nat_of_field htop h.topSlot, hz⟩

theorem lzwBWord_reads :
    ((lzwBWord z).extractLsb' 0 13).toNat = z.slot
      ∧ ((lzwBWord z).extractLsb' 16 12).toNat = (if z.prevValid then z.prevCode else 0)
      ∧ (lzwBWord z).getLsbD 31 = z.prevValid ∧ lzwBWord z &&& 0x7000E000#32 = 0 := by
  obtain ⟨⟨hslot, hcode, hvalid⟩, hz⟩ :=
    packWord_reads (w := lzwBWord z) (ps := [(13, 0), (12, 16), (1, 31)]) (mask := 0x7000E000#32) rfl rfl (by decide)
  have hlt : (if z.prevValid then z.prevCode else 0) < 2 ^ 12 := by
    split
    · exact h.prevCode
    · decide
  exact ⟨nat_of_field hslot h.slot, nat_of_field hcode hlt, flag_of_field hvalid, hz⟩

theorem lzwCWord_reads :
    (lzwCWord z).extractLsb' 0 8 = z.first ∧ ((lzwCWord z).extractLsb' 8 5).toNat = z.nbits
      ∧ ((lzwCWord z).extractLsb' 16 8).toNat = z.brem ∧ lzwCWord z &&& 0xFF00E000#32 = 0 := by
  obtain ⟨⟨hfirst, hnbits, hbrem⟩, hz⟩ :=
    packWord_reads (w := lzwCWord z) (ps := [(8, 0), (5, 8), (8, 16)]) (mask := 0xFF00E000#32) rfl rfl (by decide)
  exact ⟨bits_of_field hfirst, nat_of_field hnbits h.nbits, nat_of_field hbrem h.brem, hz⟩

end

theorem toNat_packWord_single {v n : Nat} (hn : n ≤ 32) (hv : v < 2 ^ n) : (packWord [(v, n, 0)]).toNat = v := by
  have h32 : v < 2 ^ 32 := hv.trans_le (Nat.pow_le_pow_right (by omega) hn)
  simpa [packWord, Nat.mod_eq_of_lt hv] using h32

/-- The bits that the decoder holds fit LZW_ACC (`41_lzw.md` R162). -/
theorem Lzw.Fits.acc_lt {z : Lzw} (h : z.Fits) : z.acc < 2 ^ 32 :=
  h.acc.trans_le (Nat.pow_le_pow_right (by omega) (Nat.le_of_lt h.nbits))

/-- Settles O14: the whole-word registers are read as they are, the others field by field. -/
theorem registerFields : Obligations.RegisterFields := by
  unfold Obligations.RegisterFields
  intro s
  obtain ⟨hx, hy, hw, hh⟩ := rectWords_read s.frame
  obtain ⟨hvalid, hdisp, hindex, hgce⟩ := gceWord_reads s.gce
  obtain ⟨hdelay, hdelay0⟩ := packWord_single_reads (mask := 0xFFFF0000#32) s.delay (by decide)
  exact ⟨⟨rfl, rfl, rfl, rfl, rfl, rfl, rfl⟩, statusWord_reads s, diagWord_reads s.diag,
    ⟨hx, hy, hw, hh, frFlagsWord_reads s.interlace⟩,
    ⟨hvalid, hdisp, hindex, hgce, hdelay, hdelay0, packWord_single_reads s.bg (by decide)⟩⟩

/-- Settles O15: a value that fits its field is read back from it. -/
theorem decoderRegisterFields : Obligations.DecoderRegisterFields := by
  unfold Obligations.DecoderRegisterFields
  intro s h
  obtain ⟨hdisp, hfill, hprev⟩ := prevWord_reads s
  exact ⟨⟨hdisp, hfill, hprev, rectWords_read s.dirty⟩, lzwAWord_reads h, lzwBWord_reads h, lzwCWord_reads h,
    toNat_packWord_single (le_refl _) h.acc_lt, toNat_packWord_single (by decide) h.sp⟩

end Sys2Proof.Machine
end

-- Proofs: MemoryWriters
section
/-! ### The stores to local memory (`20_memory.md` R61, R64) -/

namespace Sys2Proof.Machine

/-! #### Addresses that are not writable or not readable -/

theorem writable_false_of_unreadable {c : Config} {a : Nat} (h : readable c a = false) : writable c a = false :=
  Bool.eq_false_iff.2 fun hw => Bool.eq_false_iff.1 h (readable_of_writable hw)

/-- P565 and everything above it is not writable (`20_memory.md` R64). -/
theorem writable_false_of_p565 {c : Config} {a : Nat} (h : palBase c + 768 ≤ a) : writable c a = false := by
  rw [Bool.eq_false_iff, Ne, writable_iff]
  simp only [palBase] at *
  omega

/-- What is not writable is above FB, and above BK where there is one. -/
theorem above_buffers_of_not_writable {c : Config} {a : Nat} (h : writable c a = false) :
    fbn c ≤ a ∧ (c.hasBackup = true → 2 * fbn c ≤ a) := by
  rw [Bool.eq_false_iff, Ne, writable_iff] at h
  simp only [not_or, not_and, not_lt] at h
  obtain ⟨hfb, hbk, -⟩ := h
  exact ⟨hfb, fun hb => hbk hb hfb⟩

/-- A run of bytes inside a writable range leaves what is not writable. -/
theorem get_setBytes_of_not_writable {c : Config} {m : Memory} {lo hi a : Nat} {bs : List Byte}
    (hr : rangeWritable c lo hi = true) (hbs : lo + bs.length ≤ hi) (ha : writable c a = false) :
    (m.setBytes lo bs).get a = m.get a := by
  refine Memory.get_setBytes_outside m fun ⟨h1, h2⟩ => ?_
  exact Bool.eq_false_iff.1 ha ((rangeWritable_iff c lo hi).1 hr a h1 (by omega))

/-- A palette stored to PAL and packed to P565 leaves what is not readable (`40_reader.md` R118). -/
theorem get_packAll_setBytes_of_not_readable {c : Config} {m : Memory} {bs : List Byte} {a : Nat}
    (hbs : bs.length ≤ 768) (ha : readable c a = false) :
    (packAll c (m.setBytes (palBase c) bs)).get a = m.get a := by
  have hout : ¬(palBase c ≤ a ∧ a < memSize c) := fun hin =>
    Bool.eq_false_iff.1 ha ((readable_iff c a).2 (.inr (.inr hin)))
  have hsize : memSize c = palBase c + 1280 := rfl
  have hp565 : p565Base c = palBase c + 768 := rfl
  calc (packAll c (m.setBytes (palBase c) bs)).get a
    _ = (m.setBytes (palBase c) bs).get a := get_packAll_outside (by omega)
    _ = m.get a := Memory.get_setBytes_outside m (by omega)

/-- The bytes that a block read delivers are at most those asked for (`40_reader.md` R112). -/
theorem Stream.length_readBlock_le (n : Nat) (t : Stream) : (readBlock n t).1.length ≤ n := (readBlock_spec n t).1

/-! #### The five commands that store -/

section
variable {s t : State} {a : Nat}

/-- MEM_WR stores to a writable address alone (`43_system.md` R233). -/
theorem execMemWr_get (h : execMemWr s = .next t) (ha : writable s.cfg a = false) : t.mem.get a = s.mem.get a :=
  command_elim (P := fun t => t.mem.get a = s.mem.get a) h rfl fun _ h => by
    split at h
    · next hw =>
      cases h
      exact Memory.get_set_other _ _ fun e => Bool.eq_false_iff.1 ha (e ▸ hw)
    · cases h; rfl

/-- RD_BLOCK stores inside the range that it has checked (`40_reader.md` R112). -/
theorem execRdBlock_get (h : execRdBlock s = .next t) (ha : writable s.cfg a = false) : t.mem.get a = s.mem.get a :=
  command_elim (P := fun t => t.mem.get a = s.mem.get a) h rfl fun _ h => by
    dsimp only at h
    split at h
    · next hr =>
      cases h
      rw [reportUnless_mem]
      exact get_setBytes_of_not_writable hr (Nat.add_le_add_left (Stream.length_readBlock_le _ _) _) ha
    · cases h; rfl

/-- PAL_LOAD stores to PAL and P565, all of it readable (`40_reader.md` R118). -/
theorem execPalLoad_get (h : execPalLoad s = .next t) (ha : readable s.cfg a = false) : t.mem.get a = s.mem.get a :=
  command_elim (P := fun t => t.mem.get a = s.mem.get a) h rfl fun _ h => by
    dsimp only at h
    split at h
    · cases h; rfl
    · next hn =>
      have hlen : 3 * arg0Nat s ≤ 768 := Nat.mul_le_mul_left 3 (not_lt.1 (not_or.1 hn).2)
      cases h
      simp only [reportUnless_mem]
      refine get_packAll_setBytes_of_not_readable ?_ ha
      exact (Stream.length_readBlock_le _ _).trans hlen

theorem execLzwDecode_get (h : execLzwDecode s = .next t) (ha : writable s.cfg a = false) :
    t.mem.get a = s.mem.get a :=
  command_elim (P := fun t => t.mem.get a = s.mem.get a) h rfl fun hf _ => by
    obtain ⟨-, -, -, -, -, -, -, hmem, -⟩ := execLzwDecode_on hf h
    exact hmem a ha

/-- DECODE_FRAME stores to FB and, with a backup, to BK (`42_compositor.md` R213). -/
theorem execDecodeFrame_get (hc : legalConfig s.cfg = true) (hd : s.dirty.inCanvas s.cfg)
    (h : execDecodeFrame s = .next t) (ha : writable s.cfg a = false) : t.mem.get a = s.mem.get a :=
  command_elim (P := fun t => t.mem.get a = s.mem.get a) h rfl fun hf _ => by
    obtain ⟨hfb, hbk⟩ := above_buffers_of_not_writable ha
    obtain ⟨hmem, -⟩ := execDecodeFrame_keeps hf h hc hd
    exact hmem a hfb hbk

end

/-! ### O18: the writers of memory -/

theorem ExecOn.keepsMem {i : Instr} {s t : State} (h : ExecOn i s t) :
    i ≠ .rdBlock → i ≠ .palLoad → i ≠ .lzwDecode → i ≠ .decodeFrame → i ≠ .memWr → t.mem = s.mem := by
  rw [h.frame]; cases i <;> simp [written]

/-- Every instruction but PAL_LOAD leaves what is not writable. -/
theorem exec_keeps_unwritable {i : Instr} {s t : State} (h : exec i s = .next t) (hc : legalConfig s.cfg = true)
    (hd : s.dirty.inCanvas s.cfg) (hp : i ≠ .palLoad) {a : Nat} (ha : writable s.cfg a = false) :
    t.mem.get a = s.mem.get a := by
  cases i with
  | rdBlock => exact execRdBlock_get h ha
  | palLoad => exact absurd rfl hp
  | lzwDecode => exact execLzwDecode_get h ha
  | decodeFrame => exact execDecodeFrame_get hc hd h ha
  | memWr => exact execMemWr_get h ha
  | _ => rw [(exec_on h).keepsMem nofun nofun nofun nofun nofun]

/-- Every instruction leaves what is not readable. -/
theorem exec_keeps_unreadable {i : Instr} {s t : State} (h : exec i s = .next t) (hc : legalConfig s.cfg = true)
    (hd : s.dirty.inCanvas s.cfg) {a : Nat} (ha : readable s.cfg a = false) : t.mem.get a = s.mem.get a := by
  by_cases hp : i = .palLoad
  · subst hp
    exact execPalLoad_get h ha
  · exact exec_keeps_unwritable h hc hd hp (writable_false_of_unreadable ha)

/-- Settles O18: the storing commands are those that `written` lets write memory; all but PAL_LOAD store to writable
addresses alone, which P565 is not. -/
theorem memoryWriters : Obligations.MemoryWriters := by
  unfold Obligations.MemoryWriters
  intro i s t h
  exact ⟨(exec_on h).keepsMem, fun hc hd =>
    ⟨fun hp _ ha _ => exec_keeps_unwritable h hc hd hp (writable_false_of_p565 ha),
      fun _ => exec_keeps_unreadable h hc hd⟩⟩

end Sys2Proof.Machine
end

-- Proofs: Encodings
section
/-! ### Command words and LZW codes (`30_encoding.md` R80 to R94) -/

namespace Sys2Proof.Machine

/-! #### The opcode map (O1, O2) -/

/-- The opcode map read from the opcode and read from the command agree; LZW_INIT alone takes IMM8 (`30_encoding.md` R81,
R82). -/
theorem instrOfOpc_eq_some_iff (opc imm : Byte) (i : Instr) :
    instrOfOpc opc.toNat imm = some i ↔ opcode i = some opc ∧ ∀ m, i = .lzwInit m → m = imm := by
  constructor
  · intro h
    unfold instrOfOpc at h
    split at h <;> cases h <;> rename_i hopc <;>
      exact ⟨congrArg some (BitVec.eq_of_toNat_eq hopc.symm), by simp⟩
  · rintro ⟨hopc, himm⟩
    cases i
    case lzwInit m => cases hopc; rw [himm m rfl]; rfl
    all_goals cases hopc <;> rfl

theorem decodeWord_eq_ok_iff_opcode (w : Word) (i : Instr) :
    decodeWord w = .ok i ↔ rsvOf w = 0#16 ∧ opcode i = some (opcOf w) ∧ ∀ m, i = .lzwInit m → m = immOf w := by
  rw [decodeWord_ok_iff, instrOfOpc_eq_some_iff]

/-- Settles O1: the table of R81 is `opcode` written out row by row. -/
theorem opcodeMap : Obligations.OpcodeMap := by
  unfold Obligations.OpcodeMap
  intro w i
  rw [decodeWord_eq_ok_iff_opcode]
  refine and_congr_right fun _ => ?_
  change _ ↔ (opcOf w, i) ∈ _
  cases i <;> simp [opcode, eq_comm, immOf]

theorem isCommand_eq_isSome_opcode (i : Instr) : i.isCommand = (opcode i).isSome := by
  cases i <;> rfl

theorem immField_lzwInit (m : Byte) : immField (.lzwInit m) = m := rfl

theorem encode_eq_some {i : Instr} {opc : Byte} (h : opcode i = some opc) :
    encode i = some (0#16 ++ immField i ++ opc) := by
  rw [encode, h]; rfl

/-- A command's own word decodes to it. -/
theorem decodeWord_encode {i : Instr} {w : Word} (h : encode i = some w) : decodeWord w = .ok i := by
  obtain ⟨opc, hopc, rfl⟩ := Option.map_eq_some_iff.1 h
  obtain ⟨hrsv, himm, hopcOf⟩ := commandWord_fields (immField i) opc
  rw [decodeWord_eq_ok_iff_opcode, hrsv, himm, hopcOf]
  refine ⟨rfl, hopc, ?_⟩
  rintro m rfl
  rfl

/-- The mask takes IMM8, bits 15:8, out of a command word. -/
theorem commandWord_and_mask (imm opc : Byte) :
    (0#16 ++ imm ++ opc : Word) &&& 0xFFFF00FF#32 = 0#16 ++ 0#8 ++ opc := by
  have hmask : (0xFFFF00FF#32 : Word) = 0xFFFF#16 ++ 0#8 ++ 0xFF#8 := by decide
  have hopc : opc &&& 0xFF#8 = opc := BitVec.and_allOnes
  rw [hmask]
  calc ((0#16 ++ imm) ++ opc : BitVec (16 + 8 + 8)) &&& ((0xFFFF#16 ++ 0#8) ++ 0xFF#8)
      = ((0#16 &&& 0xFFFF#16) ++ (imm &&& 0#8)) ++ (opc &&& 0xFF#8) := by
        rw [BitVec.and_append, BitVec.and_append]
    _ = 0#16 ++ 0#8 ++ opc := by rw [hopc, BitVec.and_zero, BitVec.zero_and]

/-- Settles O2: both words are put together from their fields, which differ in IMM8 at most. -/
theorem commandRoundTrip : Obligations.CommandRoundTrip := by
  unfold Obligations.CommandRoundTrip
  refine ⟨fun i hi => ?_, fun w i h => ?_⟩
  · rw [isCommand_eq_isSome_opcode] at hi
    obtain ⟨opc, hopc⟩ := Option.isSome_iff_exists.1 hi
    exact ⟨_, encode_eq_some hopc, decodeWord_encode (encode_eq_some hopc)⟩
  · obtain ⟨hrsv, hopc, himm⟩ := (decodeWord_eq_ok_iff_opcode w i).1 h
    have hw := commandWord_of_fields hrsv
    refine ⟨by rw [isCommand_eq_isSome_opcode, hopc]; rfl, _, encode_eq_some hopc, ?_, ?_⟩
    · rw [commandWord_and_mask, ← commandWord_and_mask (immOf w), hw]
    · rintro m rfl
      rw [immField_lzwInit, himm m rfl, hw]

/-! #### The code classes (O3, O4) -/

section
variable (x : CodeCtx) (c : Nat)

theorem selected_lzwClear_iff : Instr.lzwClear.selected x = true ↔ x.clearCode < 2 ^ x.cursize := decide_eq_true_iff

theorem selected_lzwEnd_iff : Instr.lzwEnd.selected x = true ↔ x.endCode < 2 ^ x.cursize := decide_eq_true_iff

theorem selected_lzwRoot_iff :
    (Instr.lzwRoot c).selected x = true ↔ (x.prev = false ∧ c < x.clearCode) ∧ c < 2 ^ x.cursize := by
  simp [Instr.selected]

theorem selected_lzwKnown_iff :
    (Instr.lzwKnown c).selected x = true ↔
      (x.prev = true ∧ c < x.slot ∧ c ≠ x.clearCode ∧ c ≠ x.endCode) ∧ c < 2 ^ x.cursize := by
  simp [Instr.selected, and_assoc]

theorem selected_lzwKwkwk_iff :
    Instr.lzwKwkwk.selected x = true ↔
      (x.prev = true ∧ x.slot ≠ x.clearCode ∧ x.slot ≠ x.endCode) ∧ x.slot < 2 ^ x.cursize := by
  simp [Instr.selected, and_assoc]

/-- With no previous code, what is neither root, clear nor end code starts at newcodes. -/
theorem selected_lzwInvalid_iff :
    (Instr.lzwInvalid c).selected x = true ↔
      ((x.prev = false ∧ x.newcodes ≤ c) ∨ (x.prev = true ∧ x.slot < c ∧ c ≠ x.clearCode ∧ c ≠ x.endCode))
        ∧ c < 2 ^ x.cursize := by
  cases hp : x.prev
  · have hnew : x.clearCode ≤ c ∧ c ≠ x.clearCode ∧ c ≠ x.endCode ↔ x.newcodes ≤ c := by
      rw [CodeCtx.newcodes, CodeCtx.endCode]; omega
    simp [Instr.selected, hp, ← hnew, and_assoc]
  · simp [Instr.selected, hp, and_assoc]

end

/-- A class that the state selects has a code, of CURSIZE bits (`30_encoding.md` R87). -/
theorem exists_code_of_selected {x : CodeCtx} {i : Instr} (h : i.selected x = true) :
    ∃ c, encodeCode x i = some c ∧ c < 2 ^ x.cursize := by
  cases i
  case lzwClear => exact ⟨_, rfl, (selected_lzwClear_iff x).1 h⟩
  case lzwEnd => exact ⟨_, rfl, (selected_lzwEnd_iff x).1 h⟩
  case lzwRoot c => exact ⟨c, rfl, ((selected_lzwRoot_iff x c).1 h).2⟩
  case lzwKnown c => exact ⟨c, rfl, ((selected_lzwKnown_iff x c).1 h).2⟩
  case lzwKwkwk => exact ⟨_, rfl, ((selected_lzwKwkwk_iff x).1 h).2⟩
  case lzwInvalid c => exact ⟨c, rfl, ((selected_lzwInvalid_iff x c).1 h).2⟩
  all_goals cases h

/-- The code of a class that the state selects decodes to that class: no earlier test of R88 takes it. -/
theorem decodeCode_of_selected {x : CodeCtx} {i : Instr} {c : Nat} (h : i.selected x = true)
    (hc : encodeCode x i = some c) : decodeCode x c = i := by
  cases i <;> cases hc
  case lzwClear => simp [decodeCode]
  case lzwEnd => simp [decodeCode]
  case lzwRoot =>
    obtain ⟨⟨hprev, hroot⟩, -⟩ := (selected_lzwRoot_iff x c).1 h
    have hend : c ≠ x.endCode := (hroot.trans (Nat.lt_succ_self _)).ne
    simp [decodeCode, hprev, hroot, hroot.ne, hend]
  case lzwKnown =>
    obtain ⟨⟨hprev, hslot, hclear, hend⟩, -⟩ := (selected_lzwKnown_iff x c).1 h
    simp [decodeCode, hprev, hslot, hclear, hend]
  case lzwKwkwk =>
    obtain ⟨⟨hprev, hclear, hend⟩, -⟩ := (selected_lzwKwkwk_iff x).1 h
    simp [decodeCode, hprev, hclear, hend]
  case lzwInvalid =>
    obtain ⟨⟨hprev, hnew⟩ | ⟨hprev, hslot, hclear, hend⟩, -⟩ := (selected_lzwInvalid_iff x c).1 h
    · have hend : x.endCode < c := hnew
      have hclear : x.clearCode < c := (Nat.lt_succ_self _).trans hend
      simp [decodeCode, hprev, hclear.ne', hend.ne', hclear.le]
    · simp [decodeCode, hprev, hclear, hend, hslot.ne', hslot.le]

/-- The class of a code encodes to the code: the classes that hold no code are tested for their number. -/
theorem encodeCode_decodeCode (x : CodeCtx) (c : Nat) : encodeCode x (decodeCode x c) = some c := by
  rcases decodeCode_cases x c with ⟨e, h⟩ | ⟨e, h⟩ | ⟨e, -⟩ | ⟨e, -⟩ | ⟨e, -, h, -⟩ | e <;> rw [e]
  · rw [h]; rfl
  · rw [h]; rfl
  · rfl
  · rfl
  · rw [h]; rfl
  · rfl

/-- Settles O4: a selected class has a code that no earlier test takes, and the decoder answers selected classes only. -/
theorem codeRoundTrip : Obligations.CodeRoundTrip := by
  unfold Obligations.CodeRoundTrip
  refine ⟨fun x i h => ?_, fun x c hc => ⟨decodeCode_selected x c hc, encodeCode_decodeCode x c⟩⟩
  obtain ⟨c, henc, hlt⟩ := exists_code_of_selected h
  exact ⟨c, henc, hlt, decodeCode_of_selected h henc⟩

/-- The class of a code does not depend on CURSIZE, so it is the one that the state selects once CURSIZE gives the code
room (`c < 2 ^ c`). -/
theorem decodeCode_eq_iff (x : CodeCtx) (c : Nat) (i : Instr) :
    decodeCode x c = i ↔ i.selected { x with cursize := c } = true ∧ encodeCode { x with cursize := c } i = some c := by
  have hwidth : decodeCode x c = decodeCode { x with cursize := c } c := rfl
  rw [hwidth]
  refine ⟨?_, fun ⟨h, henc⟩ => decodeCode_of_selected h henc⟩
  rintro rfl
  exact ⟨decodeCode_selected _ c Nat.lt_two_pow_self, encodeCode_decodeCode _ c⟩

/-- Settles O3: each class by `decodeCode_eq_iff`, where the width of the code is no condition. -/
theorem codeClasses : Obligations.CodeClasses := by
  unfold Obligations.CodeClasses
  intro x c
  have hlt : c < 2 ^ c := Nat.lt_two_pow_self
  refine ⟨?_, ?_, ?_, ?_, ?_, ?_, by have := decodeCode_cases x c; tauto⟩ <;> rw [decodeCode_eq_iff]
  · rw [selected_lzwClear_iff]
    exact ⟨fun h => (Option.some.inj h.2).symm, by rintro rfl; exact ⟨hlt, rfl⟩⟩
  · rw [selected_lzwEnd_iff]
    exact ⟨fun h => (Option.some.inj h.2).symm, by rintro rfl; exact ⟨hlt, rfl⟩⟩
  · simp [selected_lzwRoot_iff, encodeCode, hlt]
  · simp [selected_lzwKnown_iff, encodeCode, hlt]
  · rw [selected_lzwKwkwk_iff]
    constructor
    · rintro ⟨⟨⟨hprev, hclear, hend⟩, -⟩, hc⟩
      have hslot : x.slot = c := Option.some.inj hc
      subst hslot
      exact ⟨hprev, rfl, hclear, hend⟩
    · rintro ⟨hprev, rfl, hclear, hend⟩
      exact ⟨⟨⟨hprev, hclear, hend⟩, hlt⟩, rfl⟩
  · simp [selected_lzwInvalid_iff, encodeCode, hlt]

/-! #### The step of a command word (O6, O8) -/

theorem onCmdWrite_of_ok {w : Word} {i : Instr} (h : decodeWord w = .ok i) (s : State) : onCmdWrite w s = exec i s := by
  rw [onCmdWrite, h]

theorem onCmdWrite_of_error {w : Word} {e : DecodeError} (h : decodeWord w = .error e) (s : State) :
    onCmdWrite w s = .next (illegalWord (opcOf w) s) := by
  rw [onCmdWrite, h]

theorem illegalWord_of_noFault (opc : Byte) {s : State} (h : s.fault = false) :
    illegalWord opc s = raiseFault .badCommand s := by
  simp [illegalWord, h]

/-- Settles O6: the step makes the write to CMD, and the write runs what its word decodes to. -/
theorem stepRunsDecodedCommand : Obligations.StepRunsDecodedCommand := by
  unfold Obligations.StepRunsDecodedCommand
  intro s w rest i hs hp hd
  rw [step_cmd hs hp, onCmdWrite_of_ok hd]

/-- The opcodes that R84 lists are those of no command. -/
theorem opcode_not_unassigned {i : Instr} {opc : Byte} (h : opcode i = some opc) :
    opc.toNat ∉ List.range' 0x02 14 ++ List.range' 0x18 8 ++ List.range' 0x22 14 ++ List.range' 0x35 11
      ++ List.range' 0x42 190 := by
  simp only [List.mem_append, List.mem_range'_1]
  cases i <;> cases h <;> decide

theorem exists_decodeWord_error {w : Word} (h : ∀ i, decodeWord w ≠ .ok i) : ∃ e, decodeWord w = .error e := by
  cases hd : decodeWord w with
  | ok i => exact absurd hd (h i)
  | error e => exact ⟨e, rfl⟩

/-- Settles O8: a word that decodes has RSV = 0 and an opcode of R81. -/
theorem illegalWordFaults : Obligations.IllegalWordFaults := by
  unfold Obligations.IllegalWordFaults
  intro s w rest hs hf hp hw
  have hbad : ∀ i, decodeWord w ≠ .ok i := by
    intro i hd
    obtain ⟨hrsv, hopc, -⟩ := (decodeWord_eq_ok_iff_opcode w i).1 hd
    exact hw.elim (· hrsv) (opcode_not_unassigned hopc)
  obtain ⟨e, he⟩ := exists_decodeWord_error hbad
  rw [step_cmd hs hp, onCmdWrite_of_error he, illegalWord_of_noFault (opcOf w) (s := { s with program := rest }) hf]
  rfl

/-- Settles O5: the words and codes are closed terms, which the decoders compute. -/
theorem sampleEncodings : Obligations.SampleEncodings := by
  unfold Obligations.SampleEncodings
  decide

end Sys2Proof.Machine
end

-- Proofs: Reader
section
/-! ### The reader commands (`40_reader.md` R110 to R120) -/

namespace Sys2Proof.Machine

/-! #### The report of a failed read -/

/-- The report of a failed read as one update of the state (`60_exceptions.md` R244). -/
theorem reportUnless_eq (ok : Bool) (s : State) : reportUnless ok s = { s with
    code := if ok then s.code else .streamReadFailure
    diag := { s.diag with readFailure := s.diag.readFailure || !ok } } := by
  cases ok <;> simp [reportUnless, reportReadFailure]

/-- The report after a block read that delivered `k` of `n` bytes: it is made when the read is short. -/
theorem reportUnless_shortRead {k n : Nat} (h : k ≤ n) (s : State) : reportUnless (decide (k = n)) s = { s with
    code := if k < n then .streamReadFailure else s.code
    diag := { s.diag with readFailure := s.diag.readFailure || decide (k < n) } } := by
  rcases h.lt_or_eq with hlt | rfl
  · simp [reportUnless_eq, hlt, hlt.ne]
  · simp [reportUnless_eq]

/-! #### RD_BYTE and RD_WORD (R110, R111) -/

theorem Stream.readByte_second {t : Stream} (h : t.delivers 1) :
    (t.after 1 0).readByte = (some (t.byteAt 1), t.after 2 0) := by
  rw [readByte_delivers ((after_delivers t 0).2 h), after_byteAt, after_after]

theorem Stream.readByte_no_second {t : Stream} (h : ¬t.delivers 1) : (t.after 1 0).readByte = (none, t.after 1 1) := by
  rw [readByte_not_delivers fun h1 => h ((after_delivers t 0).1 h1), after_after]

/-- Settles O27: one request, answered or not. -/
theorem readByteEffect : Obligations.ReadByteEffect := by
  unfold Obligations.ReadByteEffect
  refine fun s hf => ⟨fun h0 => ?_, fun h0 => ?_⟩ <;> simp only [exec, execRdByte, command_of_noFault _ hf]
  · rw [Stream.readByte_delivers h0]
  · rw [Stream.readByte_not_delivers h0]
    rfl

/-- Settles O28: a second request is made where the first is answered. -/
theorem readWordEffect : Obligations.ReadWordEffect := by
  unfold Obligations.ReadWordEffect
  refine fun s hf => ⟨fun h0 h1 => ?_, fun h0 h1 => ?_, fun h0 => ?_⟩ <;>
    simp only [exec, execRdWord, command_of_noFault _ hf]
  · rw [Stream.readByte_delivers h0]
    simp only [Stream.readByte_second h1]
  · rw [Stream.readByte_delivers h0]
    simp only [Stream.readByte_no_second h1]
    rfl
  · rw [Stream.readByte_not_delivers h0]
    rfl

/-! #### RD_BLOCK (R112) -/

/-- What a run of delivered bytes written from `a` on leaves at an address. -/
theorem get_setBytes_delivered (m : Memory) (a k : Nat) (t : Stream) (x : Nat) :
    (m.setBytes a ((List.range k).map t.byteAt)).get x = if a ≤ x ∧ x < a + k then t.byteAt (x - a) else m.get x := by
  rw [Memory.get_setBytes, List.length_map, List.length_range]
  split
  · next hin =>
    have hlt : x - a < k := by omega
    simp [List.getD_eq_getElem?_getD, hlt]
  · rfl

theorem rangeWritable_eq_false_iff (c : Config) (lo hi : Nat) :
    rangeWritable c lo hi = false ↔ ∃ a, lo ≤ a ∧ a < hi ∧ writable c a = false := by
  rw [Bool.eq_false_iff, Ne, rangeWritable_iff]
  simp

/-- Settles O29: the bytes delivered are those of `readBlock_delivers`, and the range check is that of every address. -/
theorem readBlockEffect : Obligations.ReadBlockEffect := by
  unfold Obligations.ReadBlockEffect
  refine fun s hf => ⟨fun hw => ?_, fun hw => ?_⟩ <;> simp only [exec, execRdBlock, command_of_noFault _ hf]
  · obtain ⟨k, hk, hd, hstop, hbytes, hafter⟩ := Stream.readBlock_delivers s.arg1.toNat s.stream
    have hrange : rangeWritable s.cfg s.arg0.toNat (s.arg0.toNat + s.arg1.toNat) = true :=
      (rangeWritable_iff _ _ _).2 hw
    simp only [arg0Nat, arg1Nat, hrange, if_true, hbytes, hafter, List.length_map, List.length_range,
      reportUnless_shortRead hk]
    exact ⟨k, _, hk, hd, hstop, rfl, rfl, get_setBytes_delivered _ _ _ _⟩
  · have hrange : rangeWritable s.cfg s.arg0.toNat (s.arg0.toNat + s.arg1.toNat) = false :=
      (rangeWritable_eq_false_iff _ _ _).2 hw
    simp only [arg0Nat, arg1Nat, hrange]
    rfl

/-! #### REWIND, SEEK and TELL (R113, R114, R115) -/

/-- Settles O30: a rewind within POS is a seek within S. -/
theorem rewindEffect : Obligations.RewindEffect := by
  unfold Obligations.RewindEffect
  refine fun s hf => ⟨fun hn hp => ?_, fun hn => ?_⟩ <;>
    simp only [exec, execRewind, command_of_noFault _ hf, arg0Nat]
  · simp only [hn.not_gt, if_false, Stream.seek_ok ((Nat.sub_le _ _).trans hp)]
  · exact if_pos hn

/-- Settles O31: SEEK is StreamSeek, which succeeds up to SLEN. -/
theorem seekEffect : Obligations.SeekEffect := by
  unfold Obligations.SeekEffect
  refine fun s hf => ⟨fun hp => ?_, fun hp => ?_⟩ <;>
    simp only [exec, execSeek, command_of_noFault _ hf, arg0Nat]
  · rw [Stream.seek_ok hp, BitVec.ofNat_toNat, BitVec.setWidth_eq]
  · rw [Stream.seek_fail hp.not_ge]
    rfl

/-- Settles O32: POS is at most SLEN, below 2^32. -/
theorem tellEffect : Obligations.TellEffect := by
  unfold Obligations.TellEffect
  intro s hf
  refine ⟨?_, fun hlen hp => Nat.mod_eq_of_lt (hp.trans_lt hlen)⟩
  simp only [exec, execTell, command_of_noFault _ hf]

/-! #### PAL_LOAD (R118) -/

/-- Outside P565 a load leaves the delivered bytes in PAL and nothing else. -/
theorem get_packAll_delivered {c : Config} {m : Memory} {k a : Nat} {t : Stream}
    (ha : a < palBase c + 768 ∨ memSize c ≤ a) :
    (packAll c (m.setBytes (palBase c) ((List.range k).map t.byteAt))).get a
      = if palBase c ≤ a ∧ a < palBase c + k then t.byteAt (a - palBase c) else m.get a := by
  have hout : ¬(p565Base c ≤ a ∧ a < p565Base c + 512) := by
    simp only [p565Base, palBase, memSize] at *
    omega
  rw [get_packAll_outside hout, get_setBytes_delivered]

/-- Recomputing P565 leaves PAL, so the entries it writes are those of the PAL it leaves. -/
theorem palPacked_packAll (c : Config) (m : Memory) {i : Nat} (hi : i < 256) :
    palPacked c (packAll c m) i = palPacked c m i :=
  palPacked_congr fun a _ _ => get_packAll_outside (by simp only [p565Base]; omega)

/-- The two bytes of a P565 entry that a load leaves, the low one first (`20_memory.md` R65). -/
theorem get_p565_packAll {c : Config} {m : Memory} {i : Nat} (hi : i < 256) {v : Half}
    (hv : v = palPacked c (packAll c m) i) :
    (packAll c m).get (p565Base c + 2 * i) = v.extractLsb' 0 8
      ∧ (packAll c m).get (p565Base c + 2 * i + 1) = v.extractLsb' 8 8 := by
  have hentry : v = p565Entry c (packAll c m) i := by rw [hv, palPacked_packAll c m hi, p565Entry_packAll hi]
  rw [hentry]
  exact ⟨BitVec.extractLsb'_append_eq_right.symm, BitVec.extractLsb'_append_eq_left.symm⟩

/-- Settles O34: the load is a block read to PAL, and `packAll` then writes P565 alone. -/
theorem paletteLoadEffect : Obligations.PaletteLoadEffect := by
  unfold Obligations.PaletteLoadEffect
  refine fun s hf => ⟨fun ⟨hlow, hhigh⟩ => ?_, fun hn => ?_⟩ <;>
    simp only [exec, execPalLoad, command_of_noFault _ hf, arg0Nat]
  · obtain ⟨k, hk, hd, hstop, hbytes, hafter⟩ := Stream.readBlock_delivers (3 * s.arg0.toNat) s.stream
    have hcount : ¬(s.arg0.toNat < 1 ∨ 256 < s.arg0.toNat) := by omega
    simp only [hcount, if_false, hbytes, hafter, List.length_map, List.length_range, reportUnless_shortRead hk]
    refine ⟨k, _, hk, hd, hstop, rfl, by simp only, ?_, ?_⟩ <;> dsimp only
    · exact fun a ha => get_packAll_delivered ha
    · exact fun i hi v hv => get_p565_packAll hi hv
  · exact if_pos hn

/-! #### The packed colour (R119) -/

/-- The value of two fields put together: the high one stands above the width of the low one. -/
theorem toNat_append_eq {m n : Nat} (x : BitVec m) (y : BitVec n) : (x ++ y).toNat = x.toNat * 2 ^ n + y.toNat := by
  rw [BitVec.toNat_append, ← Nat.shiftLeft_add_eq_or_of_lt y.isLt, Nat.shiftLeft_eq]

/-- The top bits of a byte, from bit `lo` on, are its quotient by `2 ^ lo`. -/
theorem toNat_topBits (b : Byte) {lo len : Nat} (h : lo + len = 8) :
    (b.extractLsb' lo len).toNat = b.toNat / 2 ^ lo := by
  have hlt : b.toNat / 2 ^ lo < 2 ^ len := by
    rw [Nat.div_lt_iff_lt_mul (Nat.two_pow_pos lo), ← Nat.pow_add, Nat.add_comm, h]
    exact b.isLt
  rw [BitVec.extractLsb'_toNat, Nat.shiftRight_eq_div_pow, Nat.mod_eq_of_lt hlt]

/-- Settles O35: the three fields are the top 5, 6 and 5 bits of their bytes. -/
theorem pack565Formula : Obligations.Pack565Formula := by
  unfold Obligations.Pack565Formula
  intro r g b
  rw [pack565, toNat_append_eq, toNat_append_eq, toNat_topBits r rfl, toNat_topBits g rfl, toNat_topBits b rfl]
  omega

/-! #### The sub-block-aware data byte (R120) -/

section
variable {z : Lzw} {t : Stream}

theorem payloadByte_of_delivers (h : t.delivers 0) :
    payloadByte z t = (.got (t.byteAt 0), { z with brem := z.brem - 1 }, t.after 1 0) := by
  rw [payloadByte, Stream.readByte_delivers h]

theorem payloadByte_of_not_delivers (h : ¬t.delivers 0) : payloadByte z t = (.fail, z, t.after 0 1) := by
  rw [payloadByte, Stream.readByte_not_delivers h]

/-- Within a sub-block the next byte is of its payload. -/
theorem nextDataByte_of_brem (h : z.brem ≠ 0) : nextDataByte z t = payloadByte z t := if_neg h

/-- Between sub-blocks a length byte is read first. -/
theorem nextDataByte_of_no_length (h : z.brem = 0) (h0 : ¬t.delivers 0) :
    nextDataByte z t = (.fail, z, t.after 0 1) := by
  rw [nextDataByte, if_pos h, Stream.readByte_not_delivers h0]

theorem nextDataByte_of_length (h : z.brem = 0) (h0 : t.delivers 0) :
    nextDataByte z t = if t.byteAt 0 = 0 then (.chain, z, t.after 1 0)
      else payloadByte { z with brem := (t.byteAt 0).toNat } (t.after 1 0) := by
  rw [nextDataByte, if_pos h, Stream.readByte_delivers h0]

end

/-- Settles O36: within a sub-block a payload byte, between two a length byte and then a payload byte. -/
theorem nextDataByteCases : Obligations.NextDataByteCases := by
  unfold Obligations.NextDataByteCases
  refine fun z t => ⟨fun h h0 => ?_, fun h h0 => ?_, nextDataByte_of_no_length, fun h h0 hl => ?_,
    fun h h0 hl h1 => ?_, fun h h0 hl h1 => ?_⟩
  · rw [nextDataByte_of_brem h, payloadByte_of_delivers h0]
  · rw [nextDataByte_of_brem h, payloadByte_of_not_delivers h0]
  · rw [nextDataByte_of_length h h0, if_pos hl]
  · rw [nextDataByte_of_length h h0, if_neg hl, payloadByte, Stream.readByte_second h1]
  · rw [nextDataByte_of_length h h0, if_neg hl, payloadByte, Stream.readByte_no_second h1]

end Sys2Proof.Machine
end

-- Proofs: ScanChain
section
/-! ### ScanChain and SCAN_CHAIN (`40_reader.md` R116, R117) -/

namespace Sys2Proof.Machine

namespace Stream

/-! #### Block reads by what the stream delivers -/

/-- What a block read answers, given how many bytes are delivered: all of them, or those before the first EOF
(`20_memory.md` R63). -/
theorem readBlock_of_delivers {k n : Nat} {t : Stream} (hk : k ≤ n) (hd : ∀ i, i < k → t.delivers i)
    (hstop : k < n → ¬t.delivers k) :
    readBlock n t = ((List.range k).map t.byteAt, t.after k (if k < n then 1 else 0)) := by
  obtain ⟨j, hj, hd', hstop', hbytes, hafter⟩ := readBlock_delivers n t
  have hjk : j = k := by
    rcases lt_trichotomy j k with hlt | heq | hgt
    · exact absurd (hd j hlt) (hstop' (hlt.trans_le hk))
    · exact heq
    · exact absurd (hd' k hgt) (hstop (hgt.trans_le hj))
  subst hjk
  exact Prod.ext hbytes hafter

/-! #### ScanChain by what the stream delivers (R116) -/

section
variable {t : Stream}

theorem scanChain_of_no_length (h : ¬t.delivers 0) : t.scanChain = (false, t.after 0 1) := by
  rw [scanChain_eq, readByte_not_delivers h]

theorem scanChain_of_terminator (h : t.delivers 0) (h0 : t.byteAt 0 = 0) : t.scanChain = (true, t.after 1 0) := by
  rw [scanChain_eq, readByte_delivers h]
  exact if_pos h0

/-- A sub-block of which `k` payload bytes are delivered: the loop goes on when they are all of it. -/
theorem scanChain_of_length {k : Nat} (h : t.delivers 0) (h0 : t.byteAt 0 ≠ 0) (hk : k ≤ (t.byteAt 0).toNat)
    (hd : ∀ i, i < k → t.delivers (1 + i)) (hstop : k < (t.byteAt 0).toNat → ¬t.delivers (1 + k)) :
    t.scanChain = if k < (t.byteAt 0).toNat then (false, t.after (1 + k) 1) else (t.after (1 + k) 0).scanChain := by
  have hblock := readBlock_of_delivers (t := t.after 1 0) hk
    (fun i hi => (after_delivers t i).2 (Nat.add_comm 1 i ▸ hd i hi))
    (fun hlt hdk => hstop hlt (Nat.add_comm 1 k ▸ (after_delivers t k).1 hdk))
  rw [scanChain_eq, readByte_delivers h]
  simp only [if_neg h0, hblock, List.length_map, List.length_range, after_after, Nat.add_comm k 1]
  split <;> rfl

theorem scanChain_of_payload (h : t.delivers 0) (h0 : t.byteAt 0 ≠ 0)
    (hd : ∀ i, i < (t.byteAt 0).toNat → t.delivers (1 + i)) :
    t.scanChain = (t.after (1 + (t.byteAt 0).toNat) 0).scanChain := by
  rw [scanChain_of_length h h0 le_rfl hd (fun hlt => absurd hlt (lt_irrefl _)), if_neg (lt_irrefl _)]

theorem scanChain_of_cut_payload {k : Nat} (h : t.delivers 0) (hk : k < (t.byteAt 0).toNat)
    (hd : ∀ i, i < k → t.delivers (1 + i)) (hstop : ¬t.delivers (1 + k)) :
    t.scanChain = (false, t.after (1 + k) 1) := by
  have h0 : t.byteAt 0 ≠ 0 := by
    intro h0
    rw [h0] at hk
    exact absurd hk (Nat.not_lt_zero k)
  rw [scanChain_of_length h h0 hk.le hd (fun _ => hstop), if_pos hk]

/-! #### What a scan leaves of the stream -/

/-- A stream after read requests differs in POS and in the number of requests alone. -/
theorem Ahead.eq_with {u : Stream} (h : Ahead t u) : u = { t with pos := u.pos, reads := u.reads } := by
  obtain ⟨hdata, hfail, -, -, -⟩ := h
  cases u
  cases hdata
  cases hfail
  rfl

/-- A scan begins with a byte-read request. -/
theorem scanChain_ahead_readByte (t : Stream) : Ahead t.readByte.2 t.scanChain.2 := by
  rw [scanChain_eq]
  rcases t.readByte with ⟨_ | l, t1⟩
  · exact .refl _
  · dsimp only
    split
    · exact .refl _
    · split
      · exact readBlock_ahead _ _
      · exact (readBlock_ahead _ _).trans (scanChain_ahead _)

theorem readByte_reads (t : Stream) : t.readByte.2.reads = t.reads + 1 := by
  rcases readByte_cases t with ⟨b, -, -, h⟩ | ⟨-, h⟩ <;> rw [h]

theorem scanChain_reads_lt (t : Stream) : t.reads < t.scanChain.2.reads := by
  have hreads := (scanChain_ahead_readByte t).reads
  rw [readByte_reads] at hreads
  exact hreads

/-! #### The bytes of S from POS on -/

/-- The bytes of S from POS on. -/
def rest (t : Stream) : List Byte := t.data.drop t.pos

theorem length_rest (t : Stream) : t.rest.length = t.data.length - t.pos := List.length_drop

theorem rest_after (t : Stream) (k failed : Nat) : (t.after k failed).rest = t.rest.drop k := List.drop_drop.symm

/-- After `k` answered requests, `i` more. -/
theorem after_add (t : Stream) (k i failed : Nat) : (t.after k 0).after i failed = t.after (k + i) failed := by
  simp only [after, Nat.add_zero, Nat.add_assoc]

theorem byteAt_eq_rest (t : Stream) (i : Nat) : t.byteAt i = t.rest.getD i 0 := by
  simp [byteAt, rest, List.getD_eq_getElem?_getD]

/-- An ideal stream delivers what S holds (`00_scope.md` R13). -/
theorem delivers_iff_of_ideal (h : t.failAt = []) (i : Nat) : t.delivers i ↔ i < t.rest.length := by
  rw [delivers, h, length_rest]
  simp only [List.not_mem_nil, not_false_eq_true, and_true]
  omega

theorem rest_eq_cons (h : t.rest.length ≠ 0) : t.rest = t.byteAt 0 :: t.rest.drop 1 := by
  rw [byteAt_eq_rest]
  cases hr : t.rest with
  | nil => simp [hr] at h
  | cons b bs => rfl

/-! #### ScanChain over an ideal stream (`30_encoding.md` R89) -/

/-- The payloads of a chain are sub-blocks of 1 to 255 bytes. -/
def Payloads (blocks : List (List Byte)) : Prop := ∀ b ∈ blocks, 1 ≤ b.length ∧ b.length ≤ 255

theorem chainBytes_cons (b : List Byte) (blocks : List (List Byte)) :
    chainBytes (b :: blocks) = BitVec.ofNat 8 b.length :: (b ++ chainBytes blocks) := by
  simp [chainBytes]

/-- A whole chain at POS is scanned to its end. -/
theorem scanChain_of_chain {blocks : List (List Byte)} {tail : List Byte} (hi : t.failAt = [])
    (hb : Payloads blocks) (hr : t.rest = chainBytes blocks ++ tail) :
    t.scanChain = (true, t.after (chainBytes blocks).length 0) := by
  induction blocks generalizing t with
  | nil =>
    have hcons : t.rest = 0 :: tail := hr
    exact scanChain_of_terminator ((delivers_iff_of_ideal hi 0).2 (by simp [hcons])) (by simp [byteAt_eq_rest, hcons])
  | cons b blocks ih =>
    obtain ⟨⟨hlow, hhigh⟩, hblocks⟩ := List.forall_mem_cons.1 hb
    rw [chainBytes_cons] at hr
    have hlen : (t.byteAt 0).toNat = b.length := by
      rw [byteAt_eq_rest, hr]
      exact Nat.mod_eq_of_lt (by omega)
    have h0 : t.byteAt 0 ≠ 0 := fun h0 => by
      have hzero : (t.byteAt 0).toNat = 0 := congrArg BitVec.toNat h0
      omega
    have hd : ∀ i, i < b.length + 1 → t.delivers i := fun i hlt => by
      rw [delivers_iff_of_ideal hi, hr, List.length_append, List.length_cons, List.length_append]
      omega
    have hnext : (t.after (1 + b.length) 0).rest = chainBytes blocks ++ tail := by
      rw [rest_after, hr, Nat.add_comm]
      simp
    have hlength : (chainBytes (b :: blocks)).length = 1 + b.length + (chainBytes blocks).length := by
      rw [chainBytes_cons, List.length_cons, List.length_append]
      omega
    calc t.scanChain
      _ = (t.after (1 + b.length) 0).scanChain :=
        hlen ▸ scanChain_of_payload (hd 0 (by omega)) h0 fun i hlt => hd _ (by omega)
      _ = (true, (t.after (1 + b.length) 0).after (chainBytes blocks).length 0) := ih hi hblocks hnext
      _ = (true, t.after (chainBytes (b :: blocks)).length 0) := by rw [after_add, hlength]

/-- A whole sub-block before a chain makes a chain. -/
theorem rest_eq_chainBytes_cons {l : Nat} {blocks : List (List Byte)} {tail : List Byte} (hl : (t.byteAt 0).toNat = l)
    (hlt : l < t.rest.length) (hchain : (t.after (1 + l) 0).rest = chainBytes blocks ++ tail) :
    ∃ payload, payload.length = l ∧ t.rest = chainBytes (payload :: blocks) ++ tail := by
  have hlength : ((t.rest.drop 1).take l).length = l := by simp; omega
  have hbyte : BitVec.ofNat 8 l = t.byteAt 0 := by rw [← hl, BitVec.ofNat_toNat, BitVec.setWidth_eq]
  refine ⟨(t.rest.drop 1).take l, hlength, ?_⟩
  calc t.rest
    _ = t.byteAt 0 :: t.rest.drop 1 := rest_eq_cons (by omega)
    _ = t.byteAt 0 :: ((t.rest.drop 1).take l ++ (t.rest.drop 1).drop l) := by rw [List.take_append_drop]
    _ = t.byteAt 0 :: ((t.rest.drop 1).take l ++ (chainBytes blocks ++ tail)) := by
      rw [← hchain, rest_after, List.drop_drop]
    _ = chainBytes ((t.rest.drop 1).take l :: blocks) ++ tail := by
      rw [chainBytes_cons, hlength, hbyte, List.cons_append, List.append_assoc]

/-- Over an ideal stream a scan either succeeds over a whole chain or fails at the end of S. -/
theorem scanChain_ideal_cases (hi : t.failAt = []) (hp : t.pos ≤ t.data.length) :
    (t.scanChain.1 = true ∧ ∃ blocks tail, t.rest = chainBytes blocks ++ tail ∧ Payloads blocks)
      ∨ (t.scanChain.1 = false ∧ t.scanChain.2.pos = t.data.length) := by
  induction hn : t.rest.length using Nat.strong_induction_on generalizing t with
  | _ n ih =>
    have hlen := length_rest t
    by_cases hne : t.rest.length = 0
    · have hnd : ¬t.delivers 0 := by rw [delivers_iff_of_ideal hi]; omega
      rw [scanChain_of_no_length hnd]
      exact .inr ⟨rfl, by simp only [after]; omega⟩
    have hd : t.delivers 0 := (delivers_iff_of_ideal hi 0).2 (by omega)
    have hcons := rest_eq_cons hne
    by_cases h0 : t.byteAt 0 = 0
    · rw [scanChain_of_terminator hd h0]
      exact .inl ⟨rfl, [], t.rest.drop 1, by rw [h0] at hcons; exact hcons, by simp [Payloads]⟩
    obtain ⟨l, hl⟩ : ∃ l, (t.byteAt 0).toNat = l := ⟨_, rfl⟩
    have hlow : l ≠ 0 := fun h => h0 (BitVec.eq_of_toNat_eq (hl.trans h))
    have hhigh : l < 2 ^ 8 := hl ▸ (t.byteAt 0).isLt
    by_cases hcut : t.rest.length ≤ l
    · have hscan : t.scanChain = (false, t.after (1 + (t.rest.length - 1)) 1) :=
        scanChain_of_cut_payload hd (by omega) (fun i hlt => (delivers_iff_of_ideal hi _).2 (by omega))
          (by rw [delivers_iff_of_ideal hi]; omega)
      rw [hscan]
      exact .inr ⟨rfl, by simp only [after]; omega⟩
    · have hscan : t.scanChain = (t.after (1 + l) 0).scanChain :=
        hl ▸ scanChain_of_payload hd h0 fun i hlt => (delivers_iff_of_ideal hi _).2 (by omega)
      have hless : (t.after (1 + l) 0).rest.length < n := by rw [rest_after, List.length_drop]; omega
      have hpos : (t.after (1 + l) 0).pos ≤ t.data.length := by simp only [after]; omega
      rw [hscan]
      rcases ih _ hless (t := t.after (1 + l) 0) hi hpos rfl with ⟨hok, blocks, tail, hchain, hb⟩ | hfail
      · obtain ⟨payload, hpayload, hrest⟩ := rest_eq_chainBytes_cons hl (by omega) hchain
        exact .inl ⟨hok, payload :: blocks, tail, hrest, List.forall_mem_cons.2 ⟨by omega, hb⟩⟩
      · exact .inr hfail

end

end Stream

/-- SCAN_CHAIN while FAULT is 0 (`40_reader.md` R117). -/
theorem exec_scanChain_of_noFault {s : State} (hf : s.fault = false) :
    exec .scanChain s = .next (reportUnless s.stream.scanChain.1 { s with
      code := .success, stream := s.stream.scanChain.2, result := BitVec.ofNat 32 s.stream.scanChain.2.pos }) := by
  change execScanChain s = _
  rw [execScanChain, command_of_noFault _ hf]

/-- Settles O33: the command is ScanChain, whose cases over any stream and over an ideal one are the lemmas above. -/
theorem scanChainEffect : Obligations.ScanChainEffect := by
  unfold Obligations.ScanChainEffect
  refine ⟨fun s hf hp => ?_, fun u => ⟨Stream.scanChain_of_no_length, Stream.scanChain_of_terminator,
    Stream.scanChain_of_payload, fun k => Stream.scanChain_of_cut_payload⟩⟩
  have hahead := Stream.scanChain_ahead s.stream
  refine ⟨_, s.stream.scanChain.1, exec_scanChain_of_noFault hf, ?_, ?_, ?_, ?_, ?_, fun hi => ?_⟩
  · simp only [reportUnless_eq, ← hahead.eq_with]
  · simp
  · simpa using hahead.pos
  · rw [reportUnless_stream]
    exact hahead.bound hp
  · simpa using Stream.scanChain_reads_lt s.stream
  · simp only [reportUnless_stream]
    refine ⟨fun hfail => ?_, ⟨fun hok => ?_, fun ⟨blocks, tail, hr, hb⟩ => ?_⟩, fun blocks tail hr hb => ?_⟩
    · rcases Stream.scanChain_ideal_cases hi hp with ⟨hok, -⟩ | ⟨-, hend⟩
      · exact absurd (hok.symm.trans hfail) (by decide)
      · exact hend
    · rcases Stream.scanChain_ideal_cases hi hp with ⟨-, hchain⟩ | ⟨hfail, -⟩
      · exact hchain
      · exact absurd (hok.symm.trans hfail) (by decide)
    · rw [Stream.scanChain_of_chain hi hb hr]
    · rw [Stream.scanChain_of_chain hi hb hr]
      rfl

end Sys2Proof.Machine
end

-- Proofs: Invariant
section
/-! ### The invariant under a step (`41_lzw.md` R162, `10_state.md` R30, R43, `42_compositor.md` R212, `20_memory.md`
R61) -/

namespace Sys2Proof.Machine

/-- The invariant reads neither the host's lists nor the argument, descriptor and result registers, and it only gets
weaker when FAULT is set. -/
theorem Inv.congr {s t : State} (h : Inv s) (hcfg : t.cfg = s.cfg) (hstream : t.stream = s.stream)
    (hmem : t.mem = s.mem) (hlzw : t.lzw = s.lzw) (hdirty : t.dirty = s.dirty) (hkey : t.key = s.key) (hprev : t.prevDisp = s.prevDisp)
    (hfault : t.fault = false → s.fault = false) : Inv t where
  cfg := hcfg ▸ h.cfg
  stream := hstream ▸ h.stream
  pos := hstream ▸ h.pos
  mem := by rw [hcfg, hmem]; exact h.mem
  lzw := by rw [hcfg, hlzw]; exact h.lzw
  dirty := by rw [hcfg, hdirty]; exact h.dirty
  key := by rw [hkey, hprev]; exact fun hk hf => h.key hk (hfault hf)

theorem lzwMaxBits_bounds {c : Config} (h : legalConfig c = true) : 10 ≤ c.lzwMaxBits ∧ c.lzwMaxBits ≤ 12 := by
  simp only [legalConfig, Bool.and_eq_true, decide_eq_true_eq] at h
  omega

section
variable {s t : State}

/-! #### Local memory (`20_memory.md` R61) -/

theorem execMemWr_memOk (h : execMemWr s = .next t) (hm : MemOk s.cfg s.mem) : MemOk s.cfg t.mem :=
  command_elim (P := fun t => MemOk s.cfg t.mem) h hm fun _ h => by
    split at h
    · next hw => cases h; exact set_memOk (readable_of_writable hw) hm
    · cases h; exact hm

theorem execRdBlock_memOk (h : execRdBlock s = .next t) (hm : MemOk s.cfg s.mem) : MemOk s.cfg t.mem :=
  command_elim (P := fun t => MemOk s.cfg t.mem) h hm fun _ h => by
    dsimp only at h
    split at h
    · next hr =>
      cases h
      rw [reportUnless_mem]
      refine setBytes_memOk (fun a h1 h2 => readable_of_writable ((rangeWritable_iff _ _ _).1 hr a h1 ?_)) hm
      exact h2.trans_le (Nat.add_le_add_left (Stream.length_readBlock_le _ _) _)
    · cases h; exact hm

/-- PAL is readable, so a palette stored there and packed keeps memory lawful (`40_reader.md` R118). -/
theorem packAll_setBytes_memOk {c : Config} {m : Memory} {bs : List Byte} (hbs : bs.length ≤ 768) (hm : MemOk c m) :
    MemOk c (packAll c (m.setBytes (palBase c) bs)) := by
  refine packAll_memOk (setBytes_memOk (fun a h1 h2 => (readable_iff c a).2 (.inr (.inr ⟨h1, ?_⟩))) hm)
  have hsize : memSize c = palBase c + 1280 := rfl
  omega

theorem execPalLoad_memOk (h : execPalLoad s = .next t) (hm : MemOk s.cfg s.mem) : MemOk s.cfg t.mem :=
  command_elim (P := fun t => MemOk s.cfg t.mem) h hm fun _ h => by
    dsimp only at h
    split at h
    · cases h; exact hm
    · next hn =>
      have hlen : 3 * arg0Nat s ≤ 768 := Nat.mul_le_mul_left 3 (not_lt.1 (not_or.1 hn).2)
      cases h
      simp only [reportUnless_mem]
      refine packAll_setBytes_memOk ?_ hm
      exact (Stream.length_readBlock_le _ _).trans hlen

theorem execLzwDecode_memOk (h : execLzwDecode s = .next t) (hm : MemOk s.cfg s.mem) : MemOk s.cfg t.mem :=
  command_elim (P := fun t => MemOk s.cfg t.mem) h hm fun hf _ => by
    obtain ⟨-, -, -, -, -, -, -, -, hmem, -⟩ := execLzwDecode_on hf h
    exact hmem hm

theorem execDecodeFrame_memOk (hc : legalConfig s.cfg = true) (hd : s.dirty.inCanvas s.cfg)
    (h : execDecodeFrame s = .next t) (hm : MemOk s.cfg s.mem) : MemOk s.cfg t.mem :=
  command_elim (P := fun t => MemOk s.cfg t.mem) h hm fun hf _ => by
    obtain ⟨-, hmem, -⟩ := execDecodeFrame_keeps hf h hc hd
    exact hmem hm

theorem exec_memOk {i : Instr} (h : exec i s = .next t) (hc : legalConfig s.cfg = true) (hd : s.dirty.inCanvas s.cfg)
    (hm : MemOk s.cfg s.mem) : MemOk s.cfg t.mem := by
  cases i with
  | rdBlock => exact execRdBlock_memOk h hm
  | palLoad => exact execPalLoad_memOk h hm
  | lzwDecode => exact execLzwDecode_memOk h hm
  | decodeFrame => exact execDecodeFrame_memOk hc hd h hm
  | memWr => exact execMemWr_memOk h hm
  | _ => rw [(exec_on h).keepsMem nofun nofun nofun nofun nofun]; exact hm

/-! #### The LZW decoder (`41_lzw.md` R162) -/

theorem execLzwInit_ok {m : Byte} (h : execLzwInit m s = .next t) (hc : legalConfig s.cfg = true)
    (hz : s.lzw.Ok s.cfg.lzwMaxBits) : t.lzw.Ok s.cfg.lzwMaxBits :=
  command_elim (P := fun t => t.lzw.Ok s.cfg.lzwMaxBits) h hz fun _ h => by
    split at h
    · next hm => cases h; exact lzwInit_ok _ (lzwMaxBits_bounds hc).1 hm
    · cases h; exact lzwUninit_ok _

theorem finishDecode_lzw {d : Decoded} (h : finishDecode d = .next t) : t.lzw = d.state.lzw := by
  simp only [finishDecode] at h
  split at h <;> cases h <;> rfl

theorem execLzwDecode_ok (h : execLzwDecode s = .next t) (hc : legalConfig s.cfg = true)
    (hz : s.lzw.Ok s.cfg.lzwMaxBits) : t.lzw.Ok s.cfg.lzwMaxBits :=
  command_elim (P := fun t => t.lzw.Ok s.cfg.lzwMaxBits) h hz fun _ h => by
    split at h
    · cases h; exact hz
    · next hu =>
      split at h
      · rw [finishDecode_lzw h]
        exact lzwDecode_ok (s := { s with code := .success }) _ _ _ (lzwMaxBits_bounds hc) hz hu
      · cases h; exact hz

theorem execDecodeFrame_ok (h : execDecodeFrame s = .next t) (hc : legalConfig s.cfg = true)
    (hd : s.dirty.inCanvas s.cfg) (hz : s.lzw.Ok s.cfg.lzwMaxBits) : t.lzw.Ok s.cfg.lzwMaxBits :=
  command_elim (P := fun t => t.lzw.Ok s.cfg.lzwMaxBits) h hz fun hf _ => by
    obtain ⟨-, -, -, hlzw, -⟩ := execDecodeFrame_keeps hf h hc hd
    exact hlzw hz

theorem exec_lzwOk {i : Instr} (h : exec i s = .next t) (hi : i.isCommand = true) (hc : legalConfig s.cfg = true)
    (hd : s.dirty.inCanvas s.cfg) (hz : s.lzw.Ok s.cfg.lzwMaxBits) : t.lzw.Ok s.cfg.lzwMaxBits := by
  cases i with
  | reset => cases h; exact lzwUninit_ok _
  | lzwInit m => exact execLzwInit_ok h hc hz
  | lzwDecode => exact execLzwDecode_ok h hc hz
  | decodeFrame => exact execDecodeFrame_ok h hc hd hz
  | _ => rw [(exec_on h).keepsLzw hi nofun nofun nofun nofun]; exact hz

/-! #### The dirty rectangle and the key flag (`10_state.md` R30, `42_compositor.md` R212) -/

theorem execDecodeFrame_dirty (h : execDecodeFrame s = .next t) (hc : legalConfig s.cfg = true)
    (hd : s.dirty.inCanvas s.cfg) : t.dirty.inCanvas s.cfg :=
  command_elim (P := fun t => t.dirty.inCanvas s.cfg) h hd fun hf _ => by
    obtain ⟨-, -, hdirty, -⟩ := execDecodeFrame_keeps hf h hc hd
    exact hdirty

theorem exec_dirty {i : Instr} (h : exec i s = .next t) (hc : legalConfig s.cfg = true) (hd : s.dirty.inCanvas s.cfg) :
    t.dirty.inCanvas s.cfg := by
  by_cases hfr : i = .decodeFrame
  · subst hfr
    exact execDecodeFrame_dirty h hc hd
  by_cases hr : i = .reset
  · subst hr
    cases h
    exact .inl ⟨rfl, rfl⟩
  · rw [((exec_on h).keepsDirty hfr hr).2]
    exact hd

theorem fault_of_command {rule : State → Result} (h : command s rule = .next t) (hf : t.fault = false) :
    s.fault = false := by
  rcases command_cases s rule with ⟨hs, e⟩ | ⟨hs, -⟩
  · rw [e] at h
    cases h
    exact hf
  · exact hs

/-- Only RESET leaves the fault state (`60_exceptions.md` R249). -/
theorem fault_of_exec {i : Instr} (h : exec i s = .next t) (hi : i.isCommand = true) (hr : i ≠ .reset)
    (hf : t.fault = false) : s.fault = false := by
  cases i with
  | reset => exact absurd rfl hr
  | memRd =>
    simp only [exec, execMemRd, commandWhileFaulted] at h
    split at h <;> cases h
    · exact hf
    · cases hf
  | lzwClear | lzwEnd | lzwRoot _ | lzwKnown _ | lzwKwkwk | lzwInvalid _ => cases hi
  | _ => simp only [exec] at h; exact fault_of_command h hf

theorem execCycleStart_key (h : execCycleStart s = .next t) (hf : t.fault = false) : t.prevDisp = .none := by
  rw [execCycleStart, command_of_noFault _ (fault_of_command h hf)] at h
  cases h
  rfl

/-- A key frame has no previous method to apply (`42_compositor.md` R212): CYCLE_START, which sets KEY, clears it, and
DECODE_FRAME, which records one, clears KEY. -/
theorem exec_key {i : Instr} (h : exec i s = .next t) (hi : i.isCommand = true) (hs : Inv s) (hk : t.key = true)
    (hf : t.fault = false) : t.prevDisp = .none := by
  by_cases hr : i = .reset
  · subst hr
    cases h
    rfl
  have hsf := fault_of_exec h hi hr hf
  by_cases hcs : i = .cycleStart
  · subst hcs
    exact execCycleStart_key h hf
  by_cases hfr : i = .decodeFrame
  · subst hfr
    obtain ⟨-, -, -, -, hkey⟩ := execDecodeFrame_keeps hsf h hs.cfg hs.dirty
    obtain ⟨hprev, hk'⟩ := hkey hk hf
    exact hprev.trans (hs.key hk' hsf)
  · obtain ⟨hprev, hk', -⟩ := (exec_on h).keepsFrameCount hcs hfr hr
    exact hprev.trans (hs.key (hk' ▸ hk) hsf)

/-! #### Every step (O22) -/

theorem exec_inv {i : Instr} (h : exec i s = .next t) (hi : i.isCommand = true) (hs : Inv s) : Inv t := by
  obtain ⟨-, -, -, hcfg, -, -⟩ := (exec_on h).keepsInputs
  have hst := (exec_on h).stream
  exact {
    cfg := hcfg ▸ hs.cfg
    stream := by rw [legalStream, hst.data]; exact hs.stream
    pos := by rw [Stream.slen, hst.data]; exact hst.bound hs.pos
    mem := hcfg ▸ exec_memOk h hs.cfg hs.dirty hs.mem
    lzw := hcfg ▸ exec_lzwOk h hi hs.cfg hs.dirty hs.lzw
    dirty := hcfg ▸ exec_dirty h hs.cfg hs.dirty
    key := exec_key h hi hs }

theorem illegalWord_inv (opc : Byte) (hs : Inv s) : Inv (illegalWord opc s) := by
  unfold illegalWord
  split
  · exact hs.congr rfl rfl rfl rfl rfl rfl rfl id
  · exact hs.congr rfl rfl rfl rfl rfl rfl rfl nofun

theorem writeReg_inv (off : Nat) (v : Word) (hs : Inv s) : Inv (writeReg off v s) := by
  obtain ⟨_, _, _, e⟩ := writeReg_eq off v s
  rw [e]
  exact hs.congr rfl rfl rfl rfl rfl rfl rfl id

end

/-- Settles O22: a command keeps each part of the invariant; the other accesses write none of the fields it reads but
FAULT, which they only set. -/
theorem invariantKept : Obligations.InvariantKept := by
  unfold Obligations.InvariantKept
  intro s t hs h
  have hrest : ∀ rest, Inv { s with program := rest } := fun _ => hs.congr rfl rfl rfl rfl rfl rfl rfl id
  obtain ⟨-, hc⟩ := step_cases h
  rcases hc with ⟨-, rfl⟩ | ⟨w, rest, i, -, hd, he⟩ | ⟨_, rest, _, -, -, rfl⟩ | ⟨_, _, _, rest, -, rfl⟩
    | ⟨_, _, _, -, rfl⟩
  · exact hs
  · exact exec_inv he (commandRoundTrip.2 w i hd).1 (hrest rest)
  · exact illegalWord_inv _ (hrest rest)
  · exact writeReg_inv _ _ (hrest rest)
  · exact hs.congr rfl rfl rfl rfl rfl rfl rfl id

end Sys2Proof.Machine
end

-- Proofs: CodeClasses
section
/-! ### The code reader and the code classes (`41_lzw.md` R140 to R156) -/

namespace Sys2Proof.Machine

/-! #### LZW_INIT (O37) -/

theorem legalMinCode_iff (m : Nat) : legalMinCode m = true ↔ 2 ≤ m ∧ m ≤ 8 := by
  simp [legalMinCode]

/-- LZW_INIT while FAULT is 0 (`41_lzw.md` R140). -/
theorem exec_lzwInit_of_noFault (m : Byte) {s : State} (hf : s.fault = false) :
    exec (.lzwInit m) s = if legalMinCode m.toNat
      then .next { s with code := .success, lzw := lzwInit m.toNat s.lzw }
      else .next (raiseFault .badArgument { s with code := .success, lzw := lzwUninit s.lzw }) := by
  change execLzwInit m s = _
  rw [execLzwInit, command_of_noFault _ hf]

/-- Settles O37: the two answers of the test of IMM8. -/
theorem lzwInitEffect : Obligations.LzwInitEffect := by
  unfold Obligations.LzwInitEffect
  intro m s hf
  rw [exec_lzwInit_of_noFault m hf]
  refine ⟨fun hm => ?_, fun hm => ?_⟩
  · rw [if_pos ((legalMinCode_iff _).2 hm)]
    rfl
  · rw [if_neg fun h => ?_]
    · rfl
    · have := (legalMinCode_iff _).1 h
      omega

/-! #### GetCode (O38) -/

theorem getCode_of_enough {z : Lzw} (t : Stream) (h : z.cursize ≤ z.nbits) :
    getCode z t = (.got (takeCode z).1, (takeCode z).2, t) := by
  rw [getCode, Nat.sub_eq_zero_of_le h]
  rfl

/-- A data byte on top of ACC is one pass of the loop; what it leaves to take is what a fresh call would take. -/
theorem getCode_of_short {z : Lzw} (t : Stream) (h : z.nbits < z.cursize) :
    getCode z t = match nextDataByte z t with
      | (.got b, z1, t1) => getCode (pushBits b z1) t1
      | (.chain, z1, t1) => (.chain, z1, t1)
      | (.fail, z1, t1) => (.fail, z1, t1) := by
  obtain ⟨n, hn⟩ : ∃ n, z.cursize - z.nbits = n + 1 := ⟨z.cursize - z.nbits - 1, by omega⟩
  obtain ⟨hread, -, hnbits, -, -⟩ := nextDataByte_spec z t
  rw [getCode, hn, fillAcc, if_pos h]
  rcases hd : nextDataByte z t with ⟨_ | _ | _, z1, t1⟩
  case got b =>
    rw [hd] at hread hnbits
    have hcur : (pushBits b z1).cursize = z.cursize := hread.cursize
    have hbits : (pushBits b z1).nbits = z.nbits + 8 := congrArg (· + 8) hnbits
    dsimp only
    rw [getCode, fillAcc_enough n _ (pushBits b z1) t1 (by omega) (le_refl _)]
  all_goals rfl

/-- Settles O38: the loop's two cases, with the bits they take or put. -/
theorem getCodeLoop : Obligations.GetCodeLoop := by
  unfold Obligations.GetCodeLoop
  exact fun z t => ⟨getCode_of_enough t, getCode_of_short t⟩

/-! #### Where a code class runs (O50) -/

theorem readsCode_iff (s : State) :
    readsCode s = true ↔ (s.lzw.st = .ready ∨ s.lzw.st = .clear ∨ s.lzw.st = .decoding) ∧ s.lzw.stack = [] := by
  simp [readsCode, or_assoc]

theorem LzwSt.coding_of_cases {x : LzwSt} (h : x = .ready ∨ x = .clear ∨ x = .decoding) : x.coding = true := by
  rcases h with rfl | rfl | rfl <;> rfl

/-- What a code does to the block, by its class (`41_lzw.md` R148 to R153). -/
def codeEffect : Instr → State → State
  | .lzwClear => codeClear
  | .lzwEnd => codeEnd
  | .lzwRoot c => codeRoot c
  | .lzwKnown c => codeKnown c
  | .lzwKwkwk => codeKwkwk
  | .lzwInvalid _ => codeInvalid
  | _ => id

theorem exec_code {i : Instr} (hi : i.isCommand = false) (s : State) : exec i s = runCode i (codeEffect i) s := by
  cases i with
  | lzwClear | lzwEnd | lzwRoot _ | lzwKnown _ | lzwKwkwk | lzwInvalid _ => rfl
  | _ => cases hi

theorem isCommand_of_selected {i : Instr} {x : CodeCtx} (h : i.selected x = true) : i.isCommand = false := by
  cases i with
  | lzwClear | lzwEnd | lzwRoot _ | lzwKnown _ | lzwKwkwk | lzwInvalid _ => rfl
  | _ => cases h

/-- A class runs where the decoder reads a code and its state selects that class. -/
theorem exec_code_of_selected {i : Instr} {s : State} (hr : readsCode s = true)
    (h : i.selected s.lzw.codeCtx = true) : exec i s = .next (codeEffect i s) := by
  rw [exec_code (isCommand_of_selected h), runCode, hr, h]
  rfl

theorem runCode_refused_iff (i : Instr) (act : State → State) (s : State) :
    runCode i act s = .refused .codeNotRead ↔ ¬(readsCode s = true ∧ i.selected s.lzw.codeCtx = true) := by
  rw [runCode, ← Bool.and_eq_true]
  cases readsCode s && i.selected s.lzw.codeCtx <;> simp

/-- Settles O50: `runCode` refuses exactly where its test fails. -/
theorem codeOutsideDecoder : Obligations.CodeOutsideDecoder := by
  unfold Obligations.CodeOutsideDecoder
  intro i s hi
  rw [exec_code hi, runCode_refused_iff, readsCode_iff, and_assoc]

/-! #### CLEAR, END, ROOT, INVALID (O45, O46, O49) -/

/-- Settles O45: both codes are selected where they have CURSIZE bits. -/
theorem clearAndEndCodes : Obligations.ClearAndEndCodes := by
  unfold Obligations.ClearAndEndCodes
  intro s hst hstack
  have hr := (readsCode_iff s).2 ⟨hst, hstack⟩
  exact ⟨fun h => exec_code_of_selected hr ((selected_lzwClear_iff _).2 h),
    fun h => exec_code_of_selected hr ((selected_lzwEnd_iff _).2 h)⟩

/-- Settles O46: the byte is pushed on the empty stack. -/
theorem rootCode : Obligations.RootCode := by
  unfold Obligations.RootCode
  intro c s hst hstack hprev hroot hlt
  rw [exec_code_of_selected ((readsCode_iff s).2 ⟨hst, hstack⟩)
    ((selected_lzwRoot_iff _ c).2 ⟨⟨hprev, hroot⟩, hlt⟩)]
  simp [codeEffect, codeRoot, acceptString, firstByte, hstack]

/-- Settles O49: the class is selected by either of its two conditions. -/
theorem invalidCode : Obligations.InvalidCode := by
  unfold Obligations.InvalidCode
  intro c s hst hstack hc hlt
  exact exec_code_of_selected ((readsCode_iff s).2 ⟨hst, hstack⟩) ((selected_lzwInvalid_iff _ c).2 ⟨hc, hlt⟩)

/-! #### KNOWN and KWKWK (O47, O48) -/

/-- A registration with room as one update of the decoder (`41_lzw.md` R154, R155). -/
theorem register_of_room {mb : Nat} {x : Byte} {z : Lzw} (h : z.slot < z.topSlot) :
    register mb x z = { z with
      slot := z.slot + 1
      cursize := if z.slot + 1 = z.topSlot ∧ z.cursize < mb then z.cursize + 1 else z.cursize
      topSlot := if z.slot + 1 = z.topSlot ∧ z.cursize < mb then 2 * z.topSlot else z.topSlot
      prefixTab := (register mb x z).prefixTab, suffixTab := (register mb x z).suffixTab } := by
  obtain ⟨hwide, hsame⟩ := register_widens (mb := mb) (x := x) h
  rw [register_frame]
  by_cases hw : z.slot + 1 = z.topSlot ∧ z.cursize < mb
  · obtain ⟨hcur, htop⟩ := hwide hw
    simp only [register_slot h, hcur, htop, if_pos hw]
  · obtain ⟨hcur, htop⟩ := hsame hw
    simp only [register_slot h, hcur, htop, if_neg hw]

theorem stringOf_eq_cons (z : Lzw) (c : Nat) : ∃ tail, stringOf z c = firstByte (stringOf z c) :: tail := by
  obtain ⟨x, tail, h⟩ := List.exists_cons_of_ne_nil (stringOf_ne_nil z c)
  exact ⟨tail, by rw [h]; rfl⟩

/-- Settles O47: the string is accepted after the registration, which a full dictionary does not make; the strings are
those of the laws of StringOf. -/
theorem knownCode : Obligations.KnownCode := by
  unfold Obligations.KnownCode
  refine ⟨fun c s hst hstack hprev hslot hclear hend hlt => ?_, fun z c => stringOf_root,
    fun maxBits z c hz hst => stringOf_entry (hz.coding (LzwSt.coding_of_cases hst)).dict⟩
  obtain ⟨tail, hstr⟩ := stringOf_eq_cons s.lzw c
  refine ⟨_, _, tail, exec_code_of_selected ((readsCode_iff s).2 ⟨hst, hstack⟩)
    ((selected_lzwKnown_iff _ c).2 ⟨⟨hprev, hslot, hclear, hend⟩, hlt⟩), hstr, fun hfull => ?_,
    fun hroom => ⟨?_, fun k => ⟨register_prefixOf hroom k, register_suffixOf hroom k⟩⟩⟩
  · simp only [codeEffect, codeKnown, acceptString, register_full hfull, hstack, List.append_nil]
  · simp only [codeEffect, codeKnown, acceptString, register_stack, hstack, List.append_nil]
    rw [register_of_room hroom]

theorem walkString_acceptString (c : Nat) (str : List Byte) (z : Lzw) (n k : Nat) (tail : List Byte) :
    walkString (acceptString c str z) n k tail = walkString z n k tail := by
  induction n generalizing k tail with
  | zero => rfl
  | succ n ih => exact if_congr Iff.rfl (ih _ _) rfl

/-- Accepting a string does not write the dictionary. -/
theorem stringOf_acceptString (c : Nat) (str : List Byte) (z : Lzw) (k : Nat) :
    stringOf (acceptString c str z) k = stringOf z k := walkString_acceptString c str z k k []

/-- A string of the previous code followed by its first byte starts with FIRST, in a decoder of the invariant. -/
theorem firstByte_kwkwk {mb : Nat} {z : Lzw} (h : z.Coding mb) (hv : z.prevValid = true) :
    firstByte (stringOf z z.prevCode ++ [z.first]) = z.first := by
  rw [firstByte_append _ (stringOf_ne_nil _ _)]
  exact (h.prev hv).2.symm

/-- Settles O48: the bounds of R162 give the entry room, and its first byte is FIRST. -/
theorem kwkwkCode : Obligations.KwkwkCode := by
  unfold Obligations.KwkwkCode
  intro s _ hz hst hstack hprev hlt
  have hk := hz.coding (LzwSt.coding_of_cases hst)
  have hroom : s.lzw.slot < s.lzw.topSlot := hk.top ▸ hlt
  have hnew : 2 ^ s.lzw.m + 2 ≤ s.lzw.slot := hk.slotLow
  have hfirst := firstByte_kwkwk hk hprev
  have hsel : Instr.lzwKwkwk.selected s.lzw.codeCtx = true :=
    (selected_lzwKwkwk_iff _).2 ⟨⟨hprev, Nat.ne_of_gt (Nat.lt_of_succ_lt hnew), Nat.ne_of_gt hnew⟩, hlt⟩
  refine ⟨_, exec_code_of_selected ((readsCode_iff s).2 ⟨hst, hstack⟩) hsel, ?_, fun k => ?_, ?_⟩
  · simp only [codeEffect, codeKwkwk, acceptString, hfirst, register_stack, hstack, List.append_nil]
    rw [register_of_room hroom, hprev]
  · simp only [codeEffect, codeKwkwk, hfirst]
    exact ⟨register_prefixOf hroom k, register_suffixOf hroom k⟩
  · simp only [codeEffect, codeKwkwk, hfirst, stringOf_acceptString]
    exact stringOf_registered hk.dict (hk.prev hprev).1 hk.slotLow hroom

end Sys2Proof.Machine
end

-- Proofs: DecodeLoop
section
/-! ### The decode loop and LZW_DECODE (`41_lzw.md` R143 to R145, R157 to R163) -/

namespace Sys2Proof.Machine

/-! #### A code is run as the instruction it decodes to (O7) -/

/-- How a code ends the call that reads it, by its class; CLEAR, which goes on, is not among them (`41_lzw.md` R144). -/
def codeOutcome : Instr → LzwOutcome
  | .lzwEnd => .eoi
  | .lzwInvalid _ => .corrupt
  | _ => .ok

theorem codeOutcome_of_string {x : CodeCtx} {c : Nat} (hend : decodeCode x c ≠ .lzwEnd)
    (hinv : decodeCode x c ≠ .lzwInvalid c) : codeOutcome (decodeCode x c) = .ok := by
  rcases decodeCode_cases x c with ⟨e, -⟩ | ⟨e, -⟩ | ⟨e, -⟩ | ⟨e, -⟩ | ⟨e, -⟩ | e
  · rw [e]; rfl
  · exact absurd e hend
  · rw [e]; rfl
  · rw [e]; rfl
  · rw [e]; rfl
  · exact absurd e hinv

section
variable {n c : Nat} {s s1 : State}

theorem readCodes_of_chain (h : readCode s = (.chain, s1)) : readCodes n s = (.chain, chainEnded s1) := by
  unfold readCodes; rw [h]

theorem readCodes_of_fail (h : readCode s = (.fail, s1)) : readCodes n s = (.fail, readFailed s1) := by
  unfold readCodes; rw [h]

theorem readCodes_of_clear (h : readCode s = (.got c, s1)) (hd : decodeCode s1.lzw.codeCtx c = .lzwClear) :
    readCodes (n + 1) s = readCodes n (codeEffect (decodeCode s1.lzw.codeCtx c) s1) := by
  conv_lhs => unfold readCodes
  rw [h]
  dsimp only
  rw [hd]
  rfl

theorem readCodes_of_got (h : readCode s = (.got c, s1)) (hd : decodeCode s1.lzw.codeCtx c ≠ .lzwClear) :
    readCodes n s = (codeOutcome (decodeCode s1.lzw.codeCtx c), codeEffect (decodeCode s1.lzw.codeCtx c) s1) := by
  unfold readCodes
  rw [h]
  dsimp only
  rcases decodeCode_cases s1.lzw.codeCtx c with ⟨e, -⟩ | ⟨e, -⟩ | ⟨e, -⟩ | ⟨e, -⟩ | ⟨e, -⟩ | e
  · exact absurd e hd
  all_goals rw [e]; rfl

/-- The code reader gives a code of CURSIZE bits to a decoder that still reads codes. -/
theorem readsCode_readCode (h : readCode s = (.got c, s1)) (hr : readsCode s = true) :
    readsCode s1 = true ∧ c < 2 ^ s1.lzw.cursize := by
  obtain ⟨hread, -, hcode, -⟩ := getCode_spec s.lzw s.stream
  obtain ⟨hg, rfl⟩ := Prod.mk.inj h
  rw [readsCode_iff] at hr ⊢
  exact ⟨by rw [← hread.st, ← hread.stack] at hr; exact hr, by rw [← hread.cursize] at hcode; exact (hcode c hg).1⟩

theorem exec_readCode (h : readCode s = (.got c, s1)) (hr : readsCode s = true) :
    exec (decodeCode s1.lzw.codeCtx c) s1 = .next (codeEffect (decodeCode s1.lzw.codeCtx c) s1) := by
  obtain ⟨hr1, hlt⟩ := readsCode_readCode h hr
  exact exec_code_of_selected hr1 (decodeCode_selected _ _ hlt)

end

/-! #### The loop by its refill -/

section
variable {s : State} (dst len lim : Nat)

theorem lzwDecode_of_ended (h : s.lzw.st = .ended) :
    lzwDecode dst len lim s = { outcome := .ended, count := 0, state := s } := if_pos h

theorem lzwDecode_of_not_ended (h : s.lzw.st ≠ .ended) : lzwDecode dst len lim s = decodeLoop lim len dst 0 s :=
  if_neg h

theorem refill_of_nil (h : s.lzw.stack = []) : refill s = readCodes (bitsLeft s.lzw s.stream) s := by
  rw [refill, h]

theorem refill_of_ne_nil (h : s.lzw.stack ≠ []) : refill s = (.ok, s) := by
  obtain ⟨b, rest, hs⟩ := List.exists_cons_of_ne_nil h
  rw [refill, hs]

/-- The loop sees its state only through the refill. -/
theorem decodeLoop_congr {s s' : State} (h : refill s = refill s') (n out k : Nat) :
    decodeLoop lim (n + 1) out k s = decodeLoop lim (n + 1) out k s' := by
  simp only [decodeLoop, h]

/-- Codes that push a string leave the call where it was. -/
theorem lzwDecode_of_readCodes_ok {s1 : State} (n : Nat) (hst : s.lzw.st ≠ .ended) (hstack : s.lzw.stack = [])
    (h : readCodes (bitsLeft s.lzw s.stream) s = (.ok, s1)) :
    lzwDecode dst (n + 1) lim s = lzwDecode dst (n + 1) lim s1 := by
  obtain ⟨-, hsays, -, -, -, hok⟩ := readCodes_spec (fun _ => True) _ s (le_refl _)
  rw [h] at hsays hok
  rw [lzwDecode_of_not_ended dst _ lim hst, lzwDecode_of_not_ended dst _ lim hsays.1]
  refine decodeLoop_congr lim ?_ n dst 0
  rw [refill_of_nil hstack, h, refill_of_ne_nil (hok rfl).1]

theorem lzwDecode_of_readCodes_end {s1 : State} {o : LzwOutcome} (n : Nat) (hst : s.lzw.st ≠ .ended)
    (hstack : s.lzw.stack = []) (h : readCodes (bitsLeft s.lzw s.stream) s = (o, s1)) (ho : o ≠ .ok) :
    lzwDecode dst (n + 1) lim s = { outcome := o, count := 0, state := s1 } := by
  have hr : refill s = (o, s1) := (refill_of_nil hstack).trans h
  rw [lzwDecode_of_not_ended dst _ lim hst]
  rcases decodeLoop_succ lim n dst 0 s with ⟨-, e⟩ | ⟨hok, -⟩
  · rw [e, hr]
  · rw [hr] at hok
    exact absurd hok ho

end

/-- Settles O7: each code's class is run by `exec` on the state that GetCode leaves, and answers what the loop takes. -/
theorem decoderRunsDecodedCode : Obligations.DecoderRunsDecodedCode := by
  unfold Obligations.DecoderRunsDecodedCode
  refine ⟨fun s => rfl, fun n s s1 c hr h => ⟨_, exec_readCode h hr, readCodes_of_clear h, fun hd => ?_, fun hd => ?_,
    fun hclear hend hinv => ?_⟩, fun n s s1 => readCodes_of_chain, fun n s s1 => readCodes_of_fail,
    fun dst n lim s s1 o hst hstack h => ⟨?_, lzwDecode_of_readCodes_end dst lim n hst hstack h⟩⟩
  · rw [readCodes_of_got h (by rw [hd]; nofun), hd]
    rfl
  · rw [readCodes_of_got h (by rw [hd]; nofun), hd]
    rfl
  · rw [readCodes_of_got h hclear, codeOutcome_of_string hend hinv]
  · rintro rfl
    exact lzwDecode_of_readCodes_ok dst lim n hst hstack h

/-! #### One call and two (O42), the address and the end bound (O43) -/

theorem lzwDecode_add (dst n1 n2 lim : Nat) (s : State) :
    (lzwDecode dst (n1 + n2) lim s).count
        = (lzwDecode dst n1 lim s).count + (lzwDecode (dst + n1) n2 lim (lzwDecode dst n1 lim s).state).count
      ∧ (lzwDecode dst (n1 + n2) lim s).state = (lzwDecode (dst + n1) n2 lim (lzwDecode dst n1 lim s).state).state := by
  by_cases hst : s.lzw.st = .ended
  · rw [lzwDecode_of_ended _ _ _ hst, lzwDecode_of_ended _ _ _ hst, lzwDecode_of_ended _ _ _ hst]
    exact ⟨rfl, rfl⟩
  obtain ⟨-, hsays, -⟩ := decodeLoop_spec lim n1 dst 0 s hst
  rw [lzwDecode_of_not_ended _ _ _ hst, lzwDecode_of_not_ended _ _ _ hst, decodeLoop_add]
  by_cases ho : (decodeLoop lim n1 dst 0 s).outcome = .ok
  · rw [ho] at hsays
    rw [if_pos ho, lzwDecode_of_not_ended _ _ _ hsays.1, decodeLoop_count]
    exact ⟨Nat.add_comm _ _, rfl⟩
  · rw [if_neg ho, lzwDecode_of_ended _ _ _ (outcomeSays_ended hsays ho)]
    exact ⟨rfl, rfl⟩

/-- Settles O42: a call that ends early leaves an ended decoder, which the second call does not run. -/
theorem lzwDecodeSplits : Obligations.LzwDecodeSplits := by
  unfold Obligations.LzwDecodeSplits
  rintro dst n1 n2 lim s _ _ _ rfl rfl rfl
  exact lzwDecode_add dst n1 n2 lim s

/-- Settles O43: `decodeLoop_same` from one state. -/
theorem lzwBoundsOnlyStore : Obligations.LzwBoundsOnlyStore := by
  unfold Obligations.LzwBoundsOnlyStore
  rintro dst dst' len lim lim' s _ _ rfl rfl
  by_cases hst : s.lzw.st = .ended
  · rw [lzwDecode_of_ended _ _ _ hst, lzwDecode_of_ended _ _ _ hst]
    exact ⟨rfl, rfl, rfl, rfl, nofun⟩
  · rw [lzwDecode_of_not_ended _ _ _ hst, lzwDecode_of_not_ended _ _ _ hst]
    obtain ⟨hout, hcount, hsame, hmem⟩ := decodeLoop_same lim lim' len dst dst' 0 ⟨rfl, rfl, rfl⟩ hst
    exact ⟨hout, hcount, hsame.lzw, hsame.stream, fun i hi => hmem i (by rwa [Nat.zero_add])⟩

/-! #### LZW_DECODE turned away, and in Ended (O40, O41) -/

/-- LZW_DECODE while FAULT is 0: the tests of `41_lzw.md` R143 in their order. -/
theorem exec_lzwDecode_of_noFault {s : State} (hf : s.fault = false) :
    exec .lzwDecode s = if s.lzw.st = .uninitialized then .next (raiseFault .badSequence { s with code := .success })
      else if rangeWritable s.cfg s.arg0.toNat (min s.arg2.toNat (s.arg0.toNat + s.arg1.toNat)) then
        finishDecode (lzwDecode s.arg0.toNat s.arg1.toNat s.arg2.toNat { s with code := .success })
      else .next (raiseFault .badArgument { s with code := .success }) := by
  change execLzwDecode s = _
  rw [execLzwDecode, command_of_noFault _ hf]
  rfl

theorem exec_lzwDecode_of_writable {s : State} (hf : s.fault = false) (hu : s.lzw.st ≠ .uninitialized)
    (hw : ∀ a, s.arg0.toNat ≤ a → a < min s.arg2.toNat (s.arg0.toNat + s.arg1.toNat) → writable s.cfg a = true) :
    exec .lzwDecode s
      = finishDecode (lzwDecode s.arg0.toNat s.arg1.toNat s.arg2.toNat { s with code := .success }) := by
  rw [exec_lzwDecode_of_noFault hf, if_neg hu, if_pos ((rangeWritable_iff _ _ _).2 hw)]

/-- Settles O40: the test for an initialised decoder comes first. -/
theorem lzwDecodeTurnedAway : Obligations.LzwDecodeTurnedAway := by
  unfold Obligations.LzwDecodeTurnedAway
  intro s hf
  rw [exec_lzwDecode_of_noFault hf]
  refine ⟨fun hu => ?_, fun hu hw => ?_⟩
  · rw [if_pos hu]
    rfl
  · rw [if_neg hu, (rangeWritable_eq_false_iff _ _ _).2 hw]
    rfl

/-- Settles O41: the call answers at once. -/
theorem lzwDecodeAfterEnd : Obligations.LzwDecodeAfterEnd := by
  unfold Obligations.LzwDecodeAfterEnd
  intro s hf hst
  refine ⟨fun hz => hz.empty (by rw [hst]; nofun), fun hw => ?_⟩
  rw [exec_lzwDecode_of_writable hf (by rw [hst]; nofun) hw,
    lzwDecode_of_ended (s := { s with code := .success }) _ _ _ hst]
  rfl

end Sys2Proof.Machine
end

-- Proofs: LzwDecode
section
/-! ### What LZW_DECODE leaves (`41_lzw.md` R143, R145, R159 to R163) -/

namespace Sys2Proof.Machine

/-! #### The end of the command -/

/-- The end of LZW_DECODE after a call that kept what its outcome says: RESULT is the count, and a failed read is
reported. -/
theorem finishDecode_eq {d : Decoded} {s : State} (h : outcomeSays d.outcome s d.state) :
    finishDecode d = .next (reportUnless (decide (d.outcome ≠ .fail))
      { d.state with result := BitVec.ofNat 32 d.count }) := by
  obtain ⟨o, k, u⟩ := d
  cases o with
  | corrupt =>
    obtain ⟨-, -, -, hfault, hcode⟩ := h
    simp only [finishDecode, raiseFault, ← hfault, ← hcode]
    rfl
  | stuck => exact h.elim
  | _ => rfl

/-- The state that LZW_DECODE leaves, over the state that the call started from: READ_FAILURE is set with CODE
(`60_exceptions.md` R244). -/
theorem DecodeOn.reported {w : Nat → Prop} {s u t : State} {ok : Bool} {r : Word} (h : DecodeOn w s u)
    (ht : t = reportUnless ok { u with result := r }) (hc : u.code ≠ .streamReadFailure) :
    t = { s with
      lzw := u.lzw, stream := u.stream, mem := u.mem, code := t.code, fault := t.fault, result := r
      diag := { s.diag with
        outputClipped := u.diag.outputClipped, noEndCode := u.diag.noEndCode
        readFailure := s.diag.readFailure || decide (t.code = .streamReadFailure) } } := by
  have hcode : t.code = if ok then u.code else .streamReadFailure := by rw [ht, reportUnless_code]
  have hreport : decide (t.code = .streamReadFailure) = !ok := by cases ok <;> simp [hcode, hc]
  have hfault : t.fault = u.fault := by rw [ht, reportUnless_fault]
  rw [hreport, hcode, hfault, ht, reportUnless_eq, h.frame]
  dsimp only
  rw [h.diag]

/-- NO_END_CODE after a call that ran: it was set, or the call ended the decoder as ChainEnd (`41_lzw.md` R159). -/
theorem outcomeSays_noEndCode {o : LzwOutcome} {s u : State} (h : outcomeSays o s u) (hs : s.lzw.st ≠ .ended) :
    u.diag.noEndCode = (s.diag.noEndCode || decide (u.lzw.st = .ended ∧ u.lzw.endReason = .chainEnd)) := by
  cases o with
  | ok =>
    obtain ⟨hst, hd, -⟩ := h
    simp [hst, hd]
  | ended => exact absurd h.2 hs
  | eoi | fail | corrupt =>
    obtain ⟨-, hwhy, hd, -⟩ := h
    simp [hwhy, hd]
  | chain =>
    obtain ⟨hst, hwhy, hd, -⟩ := h
    simp [hst, hwhy, hd]
  | stuck => exact h.elim

section
variable (dst len lim : Nat) (s : State)

theorem lzwDecode_noEndCode :
    (lzwDecode dst len lim s).state.diag.noEndCode = (s.diag.noEndCode
      || decide (s.lzw.st ≠ .ended ∧ (lzwDecode dst len lim s).state.lzw.st = .ended
        ∧ (lzwDecode dst len lim s).state.lzw.endReason = .chainEnd)) := by
  by_cases hs : s.lzw.st = .ended
  · rw [lzwDecode_of_ended _ _ _ hs]
    simp [hs]
  · obtain ⟨-, h, -⟩ := lzwDecode_spec dst len lim s
    simp only [outcomeSays_noEndCode h hs, hs, ne_eq, not_false_eq_true, true_and]

theorem lzwDecode_count_of_ended (hs : s.lzw.st = .ended) : (lzwDecode dst len lim s).count = 0 := by
  rw [lzwDecode_of_ended _ _ _ hs]

/-- A call is short exactly when it ended the decoder (`41_lzw.md` R163). -/
theorem lzwDecode_short_iff (hs : s.lzw.st ≠ .ended) :
    (lzwDecode dst len lim s).count < len ↔ (lzwDecode dst len lim s).state.lzw.st = .ended := by
  obtain ⟨-, h, -, hfull, hshort, -⟩ := lzwDecode_spec dst len lim s
  by_cases ho : (lzwDecode dst len lim s).outcome = .ok
  · rw [ho] at h
    exact ⟨fun hlt => absurd (hfull ho) hlt.ne, fun he => absurd he h.1⟩
  · exact ⟨fun _ => outcomeSays_ended h ho, fun _ => hshort hs ho⟩

end

/-- CODE and FAULT match why the decoder ended (`41_lzw.md` R159, R160, R153). -/
theorem outcomeSays_code {o : LzwOutcome} {s u : State} (h : outcomeSays o s u) (hc : s.code = .success)
    (hf : s.fault = false) :
    (o ≠ .fail ∧ u.code = .success ∧ u.fault = false
        ∧ (s.lzw.st ≠ .ended → u.lzw.st = .ended → u.lzw.endReason = .endCode ∨ u.lzw.endReason = .chainEnd))
      ∨ (o = .fail ∧ u.code = .success ∧ u.fault = false ∧ u.lzw.endReason = .readFailure)
      ∨ (o ≠ .fail ∧ u.code = .lzwCorruptStream ∧ u.fault = true ∧ u.lzw.endReason = .corrupt) := by
  cases o with
  | ok =>
    obtain ⟨hst, -, hf', hc'⟩ := h
    exact .inl ⟨nofun, hc'.trans hc, hf'.trans hf, fun _ he => absurd he hst⟩
  | ended =>
    obtain ⟨rfl, hst⟩ := h
    exact .inl ⟨nofun, hc, hf, fun hs => absurd hst hs⟩
  | eoi =>
    obtain ⟨-, hwhy, -, hf', hc'⟩ := h
    exact .inl ⟨nofun, hc'.trans hc, hf'.trans hf, fun _ _ => .inl hwhy⟩
  | chain =>
    obtain ⟨-, hwhy, -, hf', hc'⟩ := h
    exact .inl ⟨nofun, hc'.trans hc, hf'.trans hf, fun _ _ => .inr hwhy⟩
  | fail =>
    obtain ⟨-, hwhy, -, hf', hc'⟩ := h
    exact .inr (.inl ⟨rfl, hc'.trans hc, hf'.trans hf, hwhy⟩)
  | corrupt =>
    obtain ⟨-, hwhy, -, hf', hc'⟩ := h
    exact .inr (.inr ⟨nofun, hc', hf', hwhy⟩)
  | stuck => exact h.elim

/-- Settles O39: the command is the call, whose laws say each clause, and then the report. -/
theorem lzwDecodeEffect : Obligations.LzwDecodeEffect := by
  unfold Obligations.LzwDecodeEffect
  intro s hf hu hw
  have hexec := exec_lzwDecode_of_writable hf hu hw
  obtain ⟨hon, hsays, hle, -, -, -⟩ :=
    lzwDecode_spec s.arg0.toNat s.arg1.toNat s.arg2.toNat { s with code := .success }
  have hclip := lzwDecode_clipped s.arg0.toNat s.arg1.toNat s.arg2.toNat { s with code := .success }
  have hend := lzwDecode_noEndCode s.arg0.toNat s.arg1.toNat s.arg2.toNat { s with code := .success }
  have hshort := lzwDecode_short_iff s.arg0.toNat s.arg1.toNat s.arg2.toNat { s with code := .success }
  have hzero := lzwDecode_count_of_ended s.arg0.toNat s.arg1.toNat s.arg2.toNat { s with code := .success }
  refine ⟨_, _, _, hexec.trans (finishDecode_eq hsays), rfl, rfl, ?_⟩
  generalize lzwDecode s.arg0.toNat s.arg1.toNat s.arg2.toNat { s with code := .success } = d at *
  have hcode := outcomeSays_code hsays rfl hf
  have hne : d.state.code ≠ .streamReadFailure := by
    rcases hcode with ⟨-, hc, -⟩ | ⟨-, hc, -⟩ | ⟨-, hc, -⟩ <;> simp [hc]
  refine ⟨?_, hle, ?_⟩
  · have hreported := hon.reported (ok := decide (d.outcome ≠ .fail)) (r := BitVec.ofNat 32 d.count) rfl hne
    rw [hclip, hend] at hreported
    rw [reportUnless_lzw]
    exact hreported
  · simp only [reportUnless_code, reportUnless_fault, reportUnless_lzw, reportUnless_mem, reportUnless_stream]
    refine ⟨hshort, hzero, hon.mem, hon.stream, ?_⟩
    rcases hcode with ⟨ho, hc, hfa, hwhy⟩ | ⟨ho, -, hfa, hwhy⟩ | ⟨ho, hc, hfa, hwhy⟩
    · exact .inl ⟨by simp [ho, hc], hfa, fun hs hlt => hwhy hs ((hshort hs).1 hlt)⟩
    · exact .inr (.inl ⟨by simp [ho], hfa, hwhy⟩)
    · exact .inr (.inr ⟨by simp [ho, hc], hfa, hwhy⟩)

/-! #### Bytes on the stack (O44) -/

/-- One byte put out, as one update of the state (`41_lzw.md` R145). -/
theorem popByte_eq (lim out : Nat) (b : Byte) (rest : List Byte) (s : State) : popByte lim out b rest s = { s with
    lzw := { s.lzw with stack := rest }
    mem := if out < lim then s.mem.set out b else s.mem
    diag := { s.diag with outputClipped := s.diag.outputClipped || decide (lim ≤ out) } } := by
  rw [popByte, putByte]
  split
  · next h => simp [Nat.not_le.2 h]
  · next h => simp [Nat.not_lt.1 h]

theorem decodeLoop_of_cons {lim n out k : Nat} {s : State} {b : Byte} {rest : List Byte} (h : s.lzw.stack = b :: rest) :
    decodeLoop lim (n + 1) out k s = decodeLoop lim n (out + 1) (k + 1) (popByte lim out b rest s) := by
  simp only [decodeLoop, refill, h]

/-- A byte stored at `out` below the bound, then those that follow it. -/
theorem getD_cons_stored {lim n out a : Nat} {b : Byte} {rest : List Byte} {m : Memory} :
    (if out + 1 ≤ a ∧ a < min lim (out + 1 + n) then rest.getD (a - (out + 1)) 0
      else (if out < lim then m.set out b else m).get a)
      = if out ≤ a ∧ a < min lim (out + (n + 1)) then (b :: rest).getD (a - out) 0 else m.get a := by
  by_cases hlater : out + 1 ≤ a ∧ a < min lim (out + 1 + n)
  · obtain ⟨i, rfl⟩ := Nat.exists_eq_add_of_le hlater.1
    rw [if_pos hlater, if_pos (by omega), Nat.add_sub_cancel_left, show out + 1 + i - out = i + 1 by omega,
      List.getD_cons_succ]
  rw [if_neg hlater]
  by_cases hfirst : a = out ∧ out < lim
  · obtain ⟨rfl, hlt⟩ := hfirst
    rw [if_pos hlt, if_pos (by omega), Memory.get_set_same, Nat.sub_self, List.getD_cons_zero]
  · have hout : ¬(out ≤ a ∧ a < min lim (out + (n + 1))) := by omega
    rw [if_neg hout]
    split
    · next hlt => exact Memory.get_set_other _ _ fun e => hfirst ⟨e, hlt⟩
    · rfl

/-- A call for at most the bytes on the stack pops them and reads no code (`41_lzw.md` R145). -/
theorem decodeLoop_of_stack {lim n out k : Nat} {s : State} (h : n ≤ s.lzw.stack.length) :
    ∃ m, decodeLoop lim n out k s = {
        outcome := .ok, count := k + n
        state := { s with
          mem := m, lzw := { s.lzw with stack := s.lzw.stack.drop n }
          diag := { s.diag with
            outputClipped := s.diag.outputClipped || decide (0 < n ∧ lim < out + n) } } }
      ∧ ∀ a, m.get a = if out ≤ a ∧ a < min lim (out + n) then s.lzw.stack.getD (a - out) 0 else s.mem.get a := by
  induction n generalizing out k s with
  | zero => exact ⟨s.mem, by simp [decodeLoop], fun a => by rw [if_neg (by omega)]⟩
  | succ n ih =>
    cases hs : s.lzw.stack with
    | nil => rw [hs] at h; cases h
    | cons b rest =>
      rw [hs] at h
      obtain ⟨m, hloop, hm⟩ := ih (out := out + 1) (k := k + 1) (s := popByte lim out b rest s)
        (by rw [popByte_eq]; exact Nat.le_of_succ_le_succ h)
      have hclip : (decide (lim ≤ out) || decide (0 < n ∧ lim < out + 1 + n))
          = decide (0 < n + 1 ∧ lim < out + (n + 1)) := by
        rw [← Bool.decide_or, decide_eq_decide]
        omega
      refine ⟨m, ?_, fun a => ?_⟩
      · rw [decodeLoop_of_cons hs, hloop, popByte_eq]
        simp only [Bool.or_assoc, hclip, List.drop_succ_cons, Nat.add_assoc k 1 n, Nat.add_comm 1 n]
      · rw [hm, popByte_eq]
        exact getD_cons_stored

/-- Settles O44: the call is `decodeLoop_of_stack`, and it ends as Success. -/
theorem stackIsEmittedFirst : Obligations.StackIsEmittedFirst := by
  unfold Obligations.StackIsEmittedFirst
  intro s hf hu hst hsp hw
  obtain ⟨m, hloop, hm⟩ := decodeLoop_of_stack (lim := s.arg2.toNat) (out := s.arg0.toNat) (k := 0)
    (s := { s with code := .success }) hsp
  have hexec := exec_lzwDecode_of_writable hf hu hw
  rw [lzwDecode_of_not_ended (s := { s with code := .success }) _ _ _ hst, hloop] at hexec
  exact ⟨_, hexec, by simp, hm⟩

end Sys2Proof.Machine
end

-- Proofs: FrameCommands
section
/-! ### The commands before a frame, the row order, the emitted events (`42_compositor.md` R180 to R184, R197, R203 to
R206) -/

namespace Sys2Proof.Machine

/-! #### SET_SCREEN, SET_FRAME, SET_GCE, CYCLE_START (O51, O52, O53) -/

/-- Settles O51: the two commands while FAULT is 0. -/
theorem descriptorCommands : Obligations.DescriptorCommands := by
  unfold Obligations.DescriptorCommands
  intro s hf
  change execSetScreen s = _ ∧ execSetFrame s = _
  rw [execSetScreen, execSetFrame, command_of_noFault _ hf, command_of_noFault _ hf]
  exact ⟨rfl, rfl⟩

/-- A raw value up to 3 is the number of its method (`30_encoding.md` R99). -/
theorem toNat_disposalOf (v : BitVec 3) :
    ((disposalOf v).getD .none).toNat = if v.toNat ≤ 3 then v.toNat else 0 := by
  revert v
  decide

/-- Settles O52: the method is the one NormaliseDisposal answers. -/
theorem graphicControl : Obligations.GraphicControl := by
  unfold Obligations.GraphicControl
  exact fun s hf => ⟨_, execSetGce_of_noFault hf, toNat_disposalOf _⟩

/-- A cycle has begun exactly when CYCLE_NO is at least 1. -/
theorem one_le_toNat_iff {n : Nat} (w : BitVec n) : 1 ≤ w.toNat ↔ w ≠ 0 := by
  rw [Nat.one_le_iff_ne_zero, ne_eq, ne_eq, ← BitVec.toNat_inj]
  rfl

/-- Settles O53: CYCLE_NO is counted by a 32-bit addition. -/
theorem cycleStartEffect : Obligations.CycleStartEffect := by
  unfold Obligations.CycleStartEffect
  intro s hf
  have hcount : BitVec.ofNat 32 ((s.cycleNo.toNat + 1) % 2 ^ 32) = s.cycleNo + 1 :=
    BitVec.eq_of_toNat_eq (by simp)
  change execCycleStart s = _
  simp only [execCycleStart, command_of_noFault _ hf, one_le_toNat_iff, hcount, gceDefaults]

/-! #### The row order (O59) -/

theorem rowOrder_perm (h : Nat) (i : Bool) : (rowOrder h i).Perm (List.range h) :=
  (List.perm_ext_iff_of_nodup (rowOrder_nodup h i) List.nodup_range).2 fun r => by
    rw [mem_rowOrder, List.mem_range]

theorem length_rowOrder (h : Nat) (i : Bool) : (rowOrder h i).length = h := by
  rw [(rowOrder_perm h i).length_eq, List.length_range]

/-- The pass of R197 that decodes row `r` of an interlaced frame. -/
def rowPass (r : Nat) : Nat := if r % 8 = 0 then 1 else if r % 8 = 4 then 2 else if r % 4 = 2 then 3 else 4

/-- Row `a` comes before row `b`: in an earlier pass, or above it in the same one. -/
def RowBefore (a b : Nat) : Prop := rowPass a < rowPass b ∨ (rowPass a = rowPass b ∧ a < b)

/-- The rows of one loop of R197 go top to bottom. -/
theorem passRows_sorted {h start step : Nat} (hs : 0 < step) : (passRows h start step).Pairwise (· < ·) :=
  List.pairwise_lt_range.map _ fun _ _ hab => Nat.add_lt_add_left (Nat.mul_lt_mul_of_pos_left hab hs) start

/-- A loop of R197 whose rows are all of one pass is in order. -/
theorem passRows_rowBefore {h start step p : Nat} (hs : 0 < step)
    (hp : ∀ r ∈ passRows h start step, rowPass r = p) : (passRows h start step).Pairwise RowBefore :=
  (passRows_sorted hs).imp_of_mem fun ha hb hab => .inr ⟨(hp _ ha).trans (hp _ hb).symm, hab⟩

section
variable {h r : Nat}

theorem rowPass_of_first (hr : r ∈ passRows h 0 8) : rowPass r = 1 := by
  obtain ⟨-, -, hmod⟩ := (mem_passRows (by omega)).1 hr
  exact if_pos hmod

theorem rowPass_of_second (hr : r ∈ passRows h 4 8) : rowPass r = 2 := by
  obtain ⟨-, hle, hmod⟩ := (mem_passRows (by omega)).1 hr
  rw [rowPass, if_neg (by omega), if_pos (by omega)]

theorem rowPass_of_third (hr : r ∈ passRows h 2 4) : rowPass r = 3 := by
  obtain ⟨-, hle, hmod⟩ := (mem_passRows (by omega)).1 hr
  rw [rowPass, if_neg (by omega), if_neg (by omega), if_pos (by omega)]

theorem rowPass_of_fourth (hr : r ∈ passRows h 1 2) : rowPass r = 4 := by
  obtain ⟨-, hle, hmod⟩ := (mem_passRows (by omega)).1 hr
  rw [rowPass, if_neg (by omega), if_neg (by omega), if_neg (by omega)]

end

/-- The four loops of R197 are the four passes, one after the other. -/
theorem rowOrder_rowBefore (h : Nat) : (rowOrder h true).Pairwise RowBefore := by
  rw [rowOrder, if_pos rfl]
  simp only [List.pairwise_append, List.mem_append]
  refine ⟨⟨⟨passRows_rowBefore (by omega) fun _ => rowPass_of_first, passRows_rowBefore (by omega) fun _ =>
    rowPass_of_second, fun a ha b hb => .inl ?_⟩, passRows_rowBefore (by omega) fun _ => rowPass_of_third,
    fun a ha b hb => .inl ?_⟩, passRows_rowBefore (by omega) fun _ => rowPass_of_fourth, fun a ha b hb => .inl ?_⟩
  · rw [rowPass_of_first ha, rowPass_of_second hb]
    omega
  · rw [rowPass_of_third hb]
    rcases ha with ha | ha
    · rw [rowPass_of_first ha]
      omega
    · rw [rowPass_of_second ha]
      omega
  · rw [rowPass_of_fourth hb]
    rcases ha with (ha | ha) | ha
    · rw [rowPass_of_first ha]
      omega
    · rw [rowPass_of_second ha]
      omega
    · rw [rowPass_of_third ha]
      omega

/-- Settles O59: the order is one of `RowBefore`, whose pass is the statement's. -/
theorem rowOrderPasses : Obligations.RowOrderPasses := by
  unfold Obligations.RowOrderPasses
  refine ⟨rowOrder_perm, fun h => rfl, fun h => (rowOrder_rowBefore h).imp fun hab pass hpass => ?_⟩
  rw [hpass, hpass]
  exact hab

/-! #### The events of the emitted rectangle (O60) -/

/-- A pixel gives no event where it is transparent, else one (`42_compositor.md` R204). -/
theorem toList_pixelEvent (s : State) (x y : Nat) : (pixelEvent s x y).toList =
    let p := s.mem.get (pixelAddr s.cfg x y)
    if s.gce.tValid = true ∧ p = s.gce.tIndex then []
    else [.pixel (BitVec.ofNat 16 x) (BitVec.ofNat 16 y) (palLookup s.cfg s.mem p).1 (palLookup s.cfg s.mem p).2.1
      (palLookup s.cfg s.mem p).2.2] :=
  apply_ite Option.toList _ _ _

theorem rectEvents_of_pixel {s : State} (hmode : s.cfg.emitMode = .pixel) (r : Rect) :
    rectEvents s r = (List.range r.h.toNat).flatMap fun dy => (List.range r.w.toNat).flatMap fun dx =>
      (pixelEvent s (r.x.toNat + dx) (r.y.toNat + dy)).toList := by
  simp only [rectEvents, hmode, rectPixels, List.filterMap_eq_flatMap_toList, List.flatMap_assoc, List.flatMap_map]

theorem rectEvents_of_line {s : State} (hmode : s.cfg.emitMode = .line) (r : Rect) :
    rectEvents s r = (List.range r.h.toNat).map fun dy => lineEvent s r (r.y.toNat + dy) := by
  rw [rectEvents, hmode]

/-- The events see the configuration, the memory and the transparency alone. -/
theorem rectEvents_congr {s t : State} (hcfg : t.cfg = s.cfg) (hmem : t.mem = s.mem) (hgce : t.gce = s.gce) (r : Rect) :
    rectEvents t r = rectEvents s r := by
  simp only [rectEvents, pixelEvent, lineEvent, hcfg, hmem, hgce]

/-- Settles O60: the mode fixes which of the two lists it is; each event is then read off its definition. -/
theorem emittedEvents : Obligations.EmittedEvents := by
  unfold Obligations.EmittedEvents
  refine fun s r => ⟨fun hmode => ?_, fun hmode => ?_⟩
  · rw [rectEvents_of_pixel hmode]
    simp only [toList_pixelEvent]
    rfl
  · rw [rectEvents_of_line hmode]
    refine ⟨by simp, fun dy hdy => ?_⟩
    simp only [List.getElem?_map, List.getElem?_range hdy, Option.map_some, lineEvent, skipIndex]
    exact ⟨_, _, rfl, by simp, fun dx hdx => by simp [hdx, pixelAddr], by simp, fun i hi => by
      simp [hi, p565Entry, p565Base]⟩

end Sys2Proof.Machine
end

-- Proofs: Rows
section
/-! ### The rows of a frame as one decode (`42_compositor.md` R197 to R200, `41_lzw.md` R145, R157) -/

namespace Sys2Proof.Machine

/-! #### Two calls and one -/

/-- Calls from the same decoder and stream agree, wherever they put their bytes (`41_lzw.md` R157). -/
theorem lzwDecode_same (dst dst' len lim lim' : Nat) {s s' : State} (h : SameDecoder s s') :
    (lzwDecode dst' len lim' s').outcome = (lzwDecode dst len lim s).outcome
      ∧ (lzwDecode dst' len lim' s').count = (lzwDecode dst len lim s).count
      ∧ SameDecoder (lzwDecode dst len lim s).state (lzwDecode dst' len lim' s').state
      ∧ ∀ i, i < (lzwDecode dst len lim s).count → dst + i < lim → dst' + i < lim' →
        (lzwDecode dst' len lim' s').state.mem.get (dst' + i) = (lzwDecode dst len lim s).state.mem.get (dst + i) := by
  by_cases hst : s.lzw.st = .ended
  · rw [lzwDecode_of_ended _ _ _ hst, lzwDecode_of_ended _ _ _ (h.lzw ▸ hst)]
    exact ⟨rfl, rfl, h, nofun⟩
  · rw [lzwDecode_of_not_ended _ _ _ hst, lzwDecode_of_not_ended _ _ _ (h.lzw ▸ hst)]
    obtain ⟨hout, hcount, hsame, hmem⟩ := decodeLoop_same lim lim' len dst dst' 0 h hst
    exact ⟨hout, hcount, hsame, fun i hi => hmem i (by rwa [Nat.zero_add])⟩

/-- A call for no byte returns at once. -/
theorem lzwDecode_zero (dst lim : Nat) (s : State) :
    lzwDecode dst 0 lim s = { outcome := if s.lzw.st = .ended then .ended else .ok, count := 0, state := s } := by
  by_cases hst : s.lzw.st = .ended
  · rw [lzwDecode_of_ended _ _ _ hst, if_pos hst]
  · rw [lzwDecode_of_not_ended _ _ _ hst, if_neg hst]
    rfl

section
variable (dst n1 n2 lim : Nat) (s : State)

/-- A call ends as corrupt, or in a failed read, when the first or the second part of it does. -/
theorem lzwDecode_add_outcome {o : LzwOutcome} (hok : o ≠ .ok) (hended : o ≠ .ended) :
    (lzwDecode dst (n1 + n2) lim s).outcome = o ↔ (lzwDecode dst n1 lim s).outcome = o
      ∨ (lzwDecode (dst + n1) n2 lim (lzwDecode dst n1 lim s).state).outcome = o := by
  by_cases hst : s.lzw.st = .ended
  · simp only [lzwDecode_of_ended _ _ _ hst, or_self]
  obtain ⟨-, hsays, -⟩ := decodeLoop_spec lim n1 dst 0 s hst
  rw [lzwDecode_of_not_ended _ _ _ hst, lzwDecode_of_not_ended _ _ _ hst, decodeLoop_add]
  by_cases ho : (decodeLoop lim n1 dst 0 s).outcome = .ok
  · rw [ho] at hsays
    rw [if_pos ho, ho, lzwDecode_of_not_ended _ _ _ hsays.1, decodeLoop_count]
    simp only [hok.symm, false_or]
  · rw [if_neg ho, lzwDecode_of_ended _ _ _ (outcomeSays_ended hsays ho)]
    simp only [hended.symm, or_false]

/-- After a call that was short the next one produces nothing (`41_lzw.md` R158, R163). -/
theorem lzwDecode_count_of_short (h : (lzwDecode dst n1 lim s).count < n1) :
    (lzwDecode (dst + n1) n2 lim (lzwDecode dst n1 lim s).state).count = 0 := by
  obtain ⟨-, hsays, -, hfull, -, -⟩ := lzwDecode_spec dst n1 lim s
  exact lzwDecode_count_of_ended _ _ _ _ (outcomeSays_ended hsays fun ho => absurd (hfull ho) h.ne)

/-- The bytes of a call are those of its first part, then those of its second. -/
theorem lt_lzwDecode_add_count_iff (i : Nat) :
    (i < n1 → (i < (lzwDecode dst (n1 + n2) lim s).count ↔ i < (lzwDecode dst n1 lim s).count))
      ∧ (n1 + i < (lzwDecode dst (n1 + n2) lim s).count
        ↔ i < (lzwDecode (dst + n1) n2 lim (lzwDecode dst n1 lim s).state).count) := by
  have hle := (lzwDecode_spec dst n1 lim s).2.2.1
  have hshort := lzwDecode_count_of_short dst n1 n2 lim s
  rw [(lzwDecode_add dst n1 n2 lim s).1]
  omega

/-- The second part of a call leaves the bytes of the first. -/
theorem lzwDecode_add_get {i : Nat} (hi : i < n1) :
    (lzwDecode dst (n1 + n2) lim s).state.mem.get (dst + i) = (lzwDecode dst n1 lim s).state.mem.get (dst + i) := by
  rw [(lzwDecode_add dst n1 n2 lim s).2]
  exact (lzwDecode_spec _ _ _ _).1.mem _ (by omega)

end

/-! #### One row -/

/-- The call that decodes row `r` (`42_compositor.md` R198, R199). -/
def decodeRow (r : Nat) (s : State) : Decoded := lzwDecode (rowDst s r) s.frame.w.toNat (rowEnd s r) s

section
variable (r : Nat) (s : State)

theorem decodeRow_on : DecodeOn
    (fun a => rowDst s r ≤ a ∧ a < min (rowEnd s r) (rowDst s r + (decodeRow r s).count)) s (decodeRow r s).state :=
  (lzwDecode_spec _ _ _ _).1

@[simp] theorem decodeRow_cfg : (decodeRow r s).state.cfg = s.cfg := (decodeRow_on r s).cfg

@[simp] theorem decodeRow_rect : (decodeRow r s).state.frame = s.frame := (decodeRow_on r s).rect

theorem decodeRow_count_le : (decodeRow r s).count ≤ s.frame.w.toNat := (lzwDecode_spec _ _ _ _).2.2.1

/-- A row on the canvas ends with its right edge; a row below it has no place at all (`42_compositor.md` R198). -/
theorem rowEnd_lt_iff {n : Nat} (hn : 0 < n) : rowEnd s r < rowDst s r + n
    ↔ s.cfg.maxW < s.frame.x.toNat + n ∨ s.cfg.maxH ≤ s.frame.y.toNat + r := by
  unfold rowEnd
  split
  · rw [rowDst]
    omega
  · omega

/-- A row sets OUTPUT_CLIPPED by a byte for a pixel outside the canvas (`41_lzw.md` R145, `42_compositor.md` R198). -/
theorem decodeRow_clipped_iff : (decodeRow r s).state.diag.outputClipped = true ↔ s.diag.outputClipped = true
    ∨ ∃ dx, dx < s.frame.w.toNat ∧ dx < (decodeRow r s).count
      ∧ (s.cfg.maxW ≤ s.frame.x.toNat + dx ∨ s.cfg.maxH ≤ s.frame.y.toNat + r) := by
  have hle := decodeRow_count_le r s
  have hclip : (decodeRow r s).state.diag.outputClipped = true ↔ s.diag.outputClipped = true
      ∨ (0 < (decodeRow r s).count ∧ rowEnd s r < rowDst s r + (decodeRow r s).count) := by
    rw [decodeRow, lzwDecode_clipped, Bool.or_eq_true, decide_eq_true_eq]
  rw [hclip]
  refine or_congr Iff.rfl ⟨fun ⟨hpos, hlt⟩ => ?_, fun ⟨dx, _, hdx, hout⟩ => ?_⟩
  · rw [rowEnd_lt_iff r s hpos] at hlt
    exact ⟨(decodeRow r s).count - 1, by omega, by omega, by omega⟩
  · have hpos : 0 < (decodeRow r s).count := Nat.zero_lt_of_lt hdx
    rw [rowEnd_lt_iff r s hpos]
    omega

theorem decodeRow_noEndCode : (decodeRow r s).state.diag.noEndCode = (s.diag.noEndCode
    || decide (s.lzw.st ≠ .ended ∧ (decodeRow r s).state.lzw.st = .ended
      ∧ (decodeRow r s).state.lzw.endReason = .chainEnd)) :=
  lzwDecode_noEndCode _ _ _ s

variable {s}

/-- A row is one call from the same decoder and stream, put elsewhere. -/
theorem decodeRow_same {u : State} (h : SameDecoder u s) (dst lim : Nat) :
    (decodeRow r s).outcome = (lzwDecode dst s.frame.w.toNat lim u).outcome
      ∧ (decodeRow r s).count = (lzwDecode dst s.frame.w.toNat lim u).count
      ∧ SameDecoder (lzwDecode dst s.frame.w.toNat lim u).state (decodeRow r s).state
      ∧ ∀ i, i < (lzwDecode dst s.frame.w.toNat lim u).count → dst + i < lim → rowDst s r + i < rowEnd s r →
        (decodeRow r s).state.mem.get (rowDst s r + i)
          = (lzwDecode dst s.frame.w.toNat lim u).state.mem.get (dst + i) :=
  lzwDecode_same dst (rowDst s r) s.frame.w.toNat lim (rowEnd s r) h

variable {r}

/-- The addresses of a row that are on the canvas are its own pixels'. -/
theorem row_of_rowRange {x y : Nat} (hx : x < s.cfg.maxW)
    (h : rowDst s r ≤ pixelAddr s.cfg x y ∧ pixelAddr s.cfg x y < rowEnd s r) : y = s.frame.y.toNat + r := by
  obtain ⟨hlo, hhi⟩ := h
  unfold rowEnd at hhi
  split at hhi
  · obtain ⟨k, hk⟩ := Nat.exists_eq_add_of_le hlo
    have hpix : pixelAddr s.cfg x y = pixelAddr s.cfg (s.frame.x.toNat + k) (s.frame.y.toNat + r) := by
      rw [hk, rowDst, pixelAddr, Nat.add_assoc]
    rw [hpix, pixelAddr] at hhi
    exact (pixelAddr_inj hx (by omega) hpix).2
  · omega

/-- A row leaves the pixels of the other rows. -/
theorem decodeRow_get_other {x row : Nat} (hx : x < s.cfg.maxW) (hrow : row ≠ r) :
    (decodeRow r s).state.mem.get (pixelAddr s.cfg x (s.frame.y.toNat + row))
      = s.mem.get (pixelAddr s.cfg x (s.frame.y.toNat + row)) :=
  (decodeRow_on r s).mem _ fun h => hrow (Nat.add_left_cancel (row_of_rowRange hx ⟨h.1, by omega⟩))

end

/-! #### The rows by the first of them -/

/-- The bytes of some rows are those of the first one and those of the later ones. -/
theorem length_cons_mul (r : Nat) (rs : List Nat) (w : Nat) : (r :: rs).length * w = w + rs.length * w := by
  rw [List.length_cons, Nat.succ_mul, Nat.add_comm]

theorem decodeRows_of_ended {s : State} (hs : s.lzw.st = .ended) (rs : List Nat) (total : Nat) (rf : Bool) :
    decodeRows rs total rf s = { outcome := .ok, total := total, rf := rf, state := s } := by
  induction rs with
  | nil => rfl
  | cons r rs ih => simp only [decodeRows, lzwDecode_of_ended _ _ _ hs, Nat.add_zero, ih]

/-- The rows after the first one (`42_compositor.md` R199). -/
def laterRows (r : Nat) (rs : List Nat) (total : Nat) (rf : Bool) (s : State) : Rows :=
  decodeRows rs (total + (decodeRow r s).count) (rf || decide ((decodeRow r s).outcome = .fail)) (decodeRow r s).state

/-- Rows are the first row, then the later ones. A corrupt row ends them (`42_compositor.md` R200), which the decoder it
has ended would do too. -/
theorem decodeRows_cons (r : Nat) (rs : List Nat) (total : Nat) (rf : Bool) (s : State) :
    decodeRows (r :: rs) total rf s = { laterRows r rs total rf s with
      outcome := if (decodeRow r s).outcome = .corrupt then .corrupt else (laterRows r rs total rf s).outcome } := by
  have hsays : outcomeSays (decodeRow r s).outcome s (decodeRow r s).state := (lzwDecode_spec _ _ _ _).2.1
  rw [decodeRows, ← decodeRow, laterRows]
  cases ho : (decodeRow r s).outcome <;> rw [ho] at hsays
  case corrupt => simp [decodeRows_of_ended hsays.1]
  case stuck => exact hsays.elim
  all_goals simp

/-- Rows leave the pixels of the rows that are not among them. -/
theorem decodeRows_get_other {rs : List Nat} (total : Nat) (rf : Bool) {s : State} {x row : Nat}
    (hx : x < s.cfg.maxW) (hrow : row ∉ rs) :
    (decodeRows rs total rf s).state.mem.get (pixelAddr s.cfg x (s.frame.y.toNat + row))
      = s.mem.get (pixelAddr s.cfg x (s.frame.y.toNat + row)) := by
  refine (decodeRows_spec (· ≠ pixelAddr s.cfg x (s.frame.y.toNat + row)) rs total rf s ?_).1.mem _ (not_not.2 rfl)
  rintro r hr a ⟨hlo, hhi⟩ rfl
  exact hrow (Nat.add_left_cancel (row_of_rowRange hx ⟨hlo, by omega⟩) ▸ hr)

/-- NO_END_CODE after the rows: it was set, or they ended the decoder as ChainEnd (`41_lzw.md` R159). -/
theorem decodeRows_noEndCode (rs : List Nat) (total : Nat) (rf : Bool) (s : State) :
    (decodeRows rs total rf s).state.diag.noEndCode = (s.diag.noEndCode
      || decide (s.lzw.st ≠ .ended ∧ (decodeRows rs total rf s).state.lzw.st = .ended
        ∧ (decodeRows rs total rf s).state.lzw.endReason = .chainEnd)) := by
  induction rs generalizing total rf s with
  | nil =>
    have hnever : ¬(s.lzw.st ≠ .ended ∧ s.lzw.st = .ended ∧ s.lzw.endReason = .chainEnd) := fun h => h.1 h.2.1
    simp only [decodeRows, hnever, decide_false, Bool.or_false]
  | cons r rs ih =>
    by_cases hs : s.lzw.st = .ended
    · simp [decodeRows_of_ended hs, hs]
    have hrow := decodeRow_noEndCode r s
    rw [decodeRows_cons, laterRows]
    by_cases hd : (decodeRow r s).state.lzw.st = .ended
    · simp only [decodeRows_of_ended hd, hrow]
    · simp only [ih, hrow, hd, hs, ne_eq, not_false_eq_true, true_and, false_and, decide_false, Bool.or_false]

/-! #### The rows and one call (O58) -/

/-- The rows, in any order, are one call for as many bytes, put anywhere, from the same decoder and stream. -/
theorem decodeRows_same (rs : List Nat) (total : Nat) (rf : Bool) {u s : State} (h : SameDecoder u s)
    (dst lim : Nat) :
    (decodeRows rs total rf s).total = total + (lzwDecode dst (rs.length * s.frame.w.toNat) lim u).count
      ∧ SameDecoder (lzwDecode dst (rs.length * s.frame.w.toNat) lim u).state (decodeRows rs total rf s).state
      ∧ ((decodeRows rs total rf s).outcome = .corrupt
        ↔ (lzwDecode dst (rs.length * s.frame.w.toNat) lim u).outcome = .corrupt)
      ∧ ((decodeRows rs total rf s).rf = true
        ↔ rf = true ∨ (lzwDecode dst (rs.length * s.frame.w.toNat) lim u).outcome = .fail) := by
  induction rs generalizing total rf u s dst with
  | nil =>
    rw [List.length_nil, Nat.zero_mul, lzwDecode_zero]
    refine ⟨rfl, h, ?_, ?_⟩ <;> split <;> simp [decodeRows]
  | cons r rs ih =>
    obtain ⟨hout, hcount, hsame, -⟩ := decodeRow_same r h dst lim
    obtain ⟨htotal, hstate, hcorrupt, hrf⟩ := ih (total + (decodeRow r s).count)
      (rf || decide ((decodeRow r s).outcome = .fail)) hsame (dst + s.frame.w.toNat)
    rw [decodeRow_rect, ← laterRows] at htotal hstate hcorrupt hrf
    rw [decodeRows_cons, length_cons_mul, lzwDecode_add_outcome (o := .corrupt) _ _ _ _ _ nofun nofun,
      lzwDecode_add_outcome (o := .fail) _ _ _ _ _ nofun nofun, (lzwDecode_add _ _ _ _ _).1,
      (lzwDecode_add _ _ _ _ _).2, ← hout]
    refine ⟨by rw [← Nat.add_assoc, ← hcount]; exact htotal, hstate, ?_, ?_⟩
    · rw [← hcorrupt]
      by_cases hc : (decodeRow r s).outcome = .corrupt <;> simp [hc]
    · rw [← or_assoc]
      simpa using hrf

/-- Settles O58: `decodeRows_same` from one state. -/
theorem rowsAreOneDecode : Obligations.RowsAreOneDecode := by
  unfold Obligations.RowsAreOneDecode
  rintro rs rf s _ _ rfl rfl
  obtain ⟨htotal, hsame, hcorrupt, hrf⟩ := decodeRows_same rs 0 rf (u := s) (s := s) ⟨rfl, rfl, rfl⟩ 0 0
  exact ⟨htotal.trans (Nat.zero_add _), hsame.lzw, hsame.stream, hcorrupt, hrf⟩

/-! #### OUTPUT_CLIPPED -/

/-- One of the first `count` bytes of the rows is for a pixel outside the canvas. -/
def OffCanvas (s : State) (rs : List Nat) (count : Nat) : Prop :=
  ∃ j row dx, rs[j]? = some row ∧ dx < s.frame.w.toNat ∧ j * s.frame.w.toNat + dx < count
    ∧ (s.cfg.maxW ≤ s.frame.x.toNat + dx ∨ s.cfg.maxH ≤ s.frame.y.toNat + row)

theorem offCanvas_decodeRow (q : Nat) (s : State) (rs : List Nat) (n : Nat) :
    OffCanvas (decodeRow q s).state rs n ↔ OffCanvas s rs n := by
  simp only [OffCanvas, decodeRow_rect, decodeRow_cfg]

theorem offCanvas_cons (dst lim n r : Nat) (rs : List Nat) (s u : State) :
    OffCanvas s (r :: rs) (lzwDecode dst (s.frame.w.toNat + n) lim u).count ↔
      (∃ dx, dx < s.frame.w.toNat ∧ dx < (lzwDecode dst s.frame.w.toNat lim u).count
        ∧ (s.cfg.maxW ≤ s.frame.x.toNat + dx ∨ s.cfg.maxH ≤ s.frame.y.toNat + r))
      ∨ OffCanvas s rs
        (lzwDecode (dst + s.frame.w.toNat) n lim (lzwDecode dst s.frame.w.toNat lim u).state).count := by
  have hparts := lt_lzwDecode_add_count_iff dst s.frame.w.toNat n lim u
  constructor
  · rintro ⟨_ | j, row, dx, hj, hdx, hlt, hout⟩
    · obtain rfl : r = row := by simpa using hj
      rw [Nat.zero_mul, Nat.zero_add] at hlt
      exact .inl ⟨dx, hdx, ((hparts dx).1 hdx).1 hlt, hout⟩
    · rw [Nat.succ_mul, Nat.add_comm _ s.frame.w.toNat, Nat.add_assoc, (hparts _).2] at hlt
      exact .inr ⟨j, row, dx, hj, hdx, hlt, hout⟩
  · rintro (⟨dx, hdx, hlt, hout⟩ | ⟨j, row, dx, hj, hdx, hlt, hout⟩)
    · refine ⟨0, r, dx, rfl, hdx, ?_, hout⟩
      rw [Nat.zero_mul, Nat.zero_add]
      exact ((hparts dx).1 hdx).2 hlt
    · refine ⟨j + 1, row, dx, hj, hdx, ?_, hout⟩
      rw [Nat.succ_mul, Nat.add_comm _ s.frame.w.toNat, Nat.add_assoc, (hparts _).2]
      exact hlt

/-- The rows set OUTPUT_CLIPPED by a byte for a pixel outside the canvas. -/
theorem decodeRows_clipped_iff (rs : List Nat) (total : Nat) (rf : Bool) {u s : State} (h : SameDecoder u s)
    (dst lim : Nat) :
    (decodeRows rs total rf s).state.diag.outputClipped = true ↔ s.diag.outputClipped = true
      ∨ OffCanvas s rs (lzwDecode dst (rs.length * s.frame.w.toNat) lim u).count := by
  induction rs generalizing total rf u s dst with
  | nil => simp [decodeRows, OffCanvas]
  | cons r rs ih =>
    obtain ⟨-, hcount, hsame, -⟩ := decodeRow_same r h dst lim
    rw [decodeRows_cons, length_cons_mul, offCanvas_cons, ← or_assoc, ← hcount, ← decodeRow_clipped_iff]
    have hrest := ih (total + (decodeRow r s).count) (rf || decide ((decodeRow r s).outcome = .fail)) hsame
      (dst + s.frame.w.toNat)
    rwa [offCanvas_decodeRow, decodeRow_rect] at hrest

/-! #### The pixels -/

/-- A row's own pixels: its bytes, as far as it produced any. -/
theorem decodeRow_get_same {r dx : Nat} {u s : State} (h : SameDecoder u s) {dst lim : Nat}
    (hx : s.frame.x.toNat + dx < s.cfg.maxW) (hy : s.frame.y.toNat + r < s.cfg.maxH) (hlim : dst + dx < lim) :
    (decodeRow r s).state.mem.get (pixelAddr s.cfg (s.frame.x.toNat + dx) (s.frame.y.toNat + r)) =
      if dx < (lzwDecode dst s.frame.w.toNat lim u).count
      then (lzwDecode dst s.frame.w.toNat lim u).state.mem.get (dst + dx)
      else s.mem.get (pixelAddr s.cfg (s.frame.x.toNat + dx) (s.frame.y.toNat + r)) := by
  obtain ⟨-, hcount, -, hmem⟩ := decodeRow_same r h dst lim
  have haddr : pixelAddr s.cfg (s.frame.x.toNat + dx) (s.frame.y.toNat + r) = rowDst s r + dx := by
    rw [pixelAddr, rowDst, Nat.add_assoc]
  have hend : rowDst s r + dx < rowEnd s r := by
    rw [rowEnd, if_pos hy, rowDst]
    omega
  rw [haddr]
  split
  · next hlt => exact hmem dx hlt hlim hend
  · next hge => exact (decodeRow_on r s).mem _ (by omega)

/-- The pixels of the rows: byte `j * WIDTH + dx` of the one call is pixel `dx` of the `j`-th row. -/
theorem decodeRows_get {rs : List Nat} (total : Nat) (rf : Bool) {u s : State} (h : SameDecoder u s)
    {dst lim : Nat} (hrs : rs.Nodup) (hlim : dst + rs.length * s.frame.w.toNat ≤ lim) {j row dx : Nat}
    (hj : rs[j]? = some row) (hdx : dx < s.frame.w.toNat) (hx : s.frame.x.toNat + dx < s.cfg.maxW)
    (hy : s.frame.y.toNat + row < s.cfg.maxH) :
    (decodeRows rs total rf s).state.mem.get (pixelAddr s.cfg (s.frame.x.toNat + dx) (s.frame.y.toNat + row)) =
      if j * s.frame.w.toNat + dx < (lzwDecode dst (rs.length * s.frame.w.toNat) lim u).count
      then (lzwDecode dst (rs.length * s.frame.w.toNat) lim u).state.mem.get (dst + (j * s.frame.w.toNat + dx))
      else s.mem.get (pixelAddr s.cfg (s.frame.x.toNat + dx) (s.frame.y.toNat + row)) := by
  induction rs generalizing total rf u s dst j with
  | nil => cases hj
  | cons r rs ih =>
    obtain ⟨hr, hrs⟩ := List.nodup_cons.1 hrs
    have hparts := lt_lzwDecode_add_count_iff dst s.frame.w.toNat (rs.length * s.frame.w.toNat) lim u
    rw [length_cons_mul] at hlim ⊢
    rw [decodeRows_cons]
    cases j with
    | zero =>
      obtain rfl : r = row := by simpa using hj
      rw [Nat.zero_mul, Nat.zero_add, lzwDecode_add_get _ _ _ _ _ hdx, if_congr ((hparts dx).1 hdx) rfl rfl,
        ← decodeRow_get_same h hx hy (by omega)]
      have hkept := decodeRows_get_other (rs := rs) (total + (decodeRow r s).count)
        (rf || decide ((decodeRow r s).outcome = .fail)) (s := (decodeRow r s).state)
        (x := s.frame.x.toNat + dx) (row := r) (by rwa [decodeRow_cfg]) hr
      rwa [decodeRow_cfg, decodeRow_rect] at hkept
    | succ j =>
      have hmem : row ∈ rs := List.mem_of_getElem? hj
      have hne : row ≠ r := fun e => hr (e ▸ hmem)
      obtain ⟨-, -, hsame, -⟩ := decodeRow_same r h dst lim
      have hrest := ih (total + (decodeRow r s).count) (rf || decide ((decodeRow r s).outcome = .fail)) hsame
        (dst := dst + s.frame.w.toNat) hrs (by rw [decodeRow_rect]; omega) hj
        (by rwa [decodeRow_rect]) (by rwa [decodeRow_rect, decodeRow_cfg]) (by rwa [decodeRow_rect, decodeRow_cfg])
      rw [decodeRow_cfg, decodeRow_rect, decodeRow_get_other hx hne] at hrest
      have hidx : (j + 1) * s.frame.w.toNat + dx = s.frame.w.toNat + (j * s.frame.w.toNat + dx) := by
        rw [Nat.succ_mul, Nat.add_comm _ s.frame.w.toNat, Nat.add_assoc]
      rw [hidx, if_congr (hparts _).2 rfl rfl, (lzwDecode_add _ _ _ _ _).2, ← Nat.add_assoc]
      exact hrest

end Sys2Proof.Machine
end

-- Proofs: DecodeFrame
section
/-! ### DECODE_FRAME (`42_compositor.md` R186 to R210) -/

namespace Sys2Proof.Machine

/-! #### The ends before a row (O54) -/

/-- The stream once the minimum code size is read and the chain located: back at the chain's start, the requests of the
scan counted (`42_compositor.md` R187, R188). -/
def chainStart (t : Stream) : Stream := { t with pos := t.pos + 1, reads := (t.after 1 0).scanChain.2.reads }

section
variable {s : State} (hf : s.fault = false)
include hf

theorem exec_decodeFrame_of_noFramebuffer (hfb : s.cfg.hasFramebuffer = false) :
    exec .decodeFrame s = .refused .noFramebuffer := by
  change execDecodeFrame s = _
  rw [execDecodeFrame, command_of_noFault _ hf]
  exact if_neg (by simp [hfb])

variable (hfb : s.cfg.hasFramebuffer = true)
include hfb

theorem exec_decodeFrame_of_noCycle (hcycle : s.cycleNo = 0) :
    exec .decodeFrame s = .next (raiseFault .badSequence { s with code := .success }) := by
  change execDecodeFrame s = _
  rw [execDecodeFrame, command_of_noFault _ hf]
  exact (if_pos hfb).trans (if_pos hcycle)

variable (hcycle : s.cycleNo ≠ 0)
include hcycle

theorem exec_decodeFrame_of_noByte (hd : ¬s.stream.delivers 0) : exec .decodeFrame s
    = .next (reportReadFailure { s with code := .success, stream := s.stream.after 0 1, result := 0 }) := by
  change execDecodeFrame s = _
  rw [execDecodeFrame, command_of_noFault _ hf]
  simp only [hfb, hcycle, if_true, if_false, Stream.readByte_not_delivers hd]

/-- The frame is composed from the chain's start. -/
theorem exec_decodeFrame_of_byte (hd : s.stream.delivers 0) : exec .decodeFrame s
    = composeFrame (s.stream.byteAt 0).toNat (s.stream.after 1 0).scanChain.2.pos (!(s.stream.after 1 0).scanChain.1)
        { s with code := .success, stream := chainStart s.stream } := by
  have hscan := Stream.scanChain_ahead (s.stream.after 1 0)
  have hseek : ((s.stream.after 1 0).scanChain.2.seek (s.stream.after 1 0).pos).2 = chainStart s.stream := by
    rw [Stream.seek_ok, hscan.eq_with]
    · rfl
    · rw [Stream.slen, hscan.data]
      exact hd.1
  change execDecodeFrame s = _
  rw [execDecodeFrame, command_of_noFault _ hf]
  simp only [hfb, hcycle, if_true, if_false, Stream.readByte_delivers hd, hseek]

end

/-- Settles O54: the four early ends. -/
theorem decodeFrameEarlyEnds : Obligations.DecodeFrameEarlyEnds := by
  unfold Obligations.DecodeFrameEarlyEnds
  refine fun s hf => ⟨exec_decodeFrame_of_noFramebuffer hf, exec_decodeFrame_of_noCycle hf,
    exec_decodeFrame_of_noByte hf, fun hfb hcycle hd hm => ?_⟩
  have hillegal : ¬legalMinCode (s.stream.byteAt 0).toNat = true := by
    rw [legalMinCode_iff]
    omega
  rw [exec_decodeFrame_of_byte hf hfb hcycle hd, composeFrame, if_neg hillegal]
  rfl

/-! #### The rows of the frame -/

/-- The state from which the rows are decoded: the decoder initialised, the key fill or the disposal, the bookkeeping
and the backup save done (`42_compositor.md` R186). -/
def frameReady (s : State) : State := prepareFrame { s with
  code := .success, stream := chainStart s.stream, lzw := lzwInit (s.stream.byteAt 0).toNat s.lzw }

/-- The rows of the frame (`42_compositor.md` R199); the chain scan that failed counts as a failed read (R188). -/
def frameRows (s : State) : Rows :=
  decodeRows (rowOrder s.frame.h.toNat s.interlace) 0 (!(s.stream.after 1 0).scanChain.1) (frameReady s)

/-- The state from which the one decode of the statements starts. -/
def chainDecoder (s : State) : State :=
  { s with lzw := lzwInit (s.stream.byteAt 0).toNat s.lzw, stream := chainStart s.stream }

/-- One decode of the frame's HEIGHT * WIDTH bytes. -/
def frameDecode (s : State) : Decoded :=
  lzwDecode 0 (s.frame.h.toNat * s.frame.w.toNat) (s.frame.h.toNat * s.frame.w.toNat) (chainDecoder s)

/-- The state that a frame with a legal minimum code size ends in: aborted or completed (`42_compositor.md` R200,
R201). -/
def frameEnd (s : State) : State :=
  if (frameDecode s).outcome = .corrupt then
    raiseFault .lzwCorruptStream { (frameRows s).state with result := BitVec.ofNat 32 (frameRows s).total }
  else finishFrame (s.stream.after 1 0).scanChain.2.pos (frameRows s)

/-- The clear-screen request, where the previous method asks for it (`42_compositor.md` R191). -/
def clearRequest (s : State) : List Event :=
  if s.key = false ∧ (s.prevDisp = .background ∨ s.prevDisp = .previous) then [.clearScreen] else []

theorem clearRequest_eq (s : State) : (if asksClear s then [.clearScreen] else []) = clearRequest s :=
  if_congr (by simp [asksClear]) rfl rfl

section
variable (s : State)

theorem frameReady_eq : frameReady s = { s with
    code := .success, stream := chainStart s.stream, lzw := lzwInit (s.stream.byteAt 0).toNat s.lzw
    mem := (frameReady s).mem, dirty := clip s.cfg s.frame, prevDisp := s.gce.disp, prevFill := fillValue s
    ev := s.ev ++ clearRequest s } := by
  rw [← clearRequest_eq]
  exact prepareFrame_frame { s with
    code := .success, stream := chainStart s.stream, lzw := lzwInit (s.stream.byteAt 0).toNat s.lzw }

theorem frameReady_cfg : (frameReady s).cfg = s.cfg := by rw [frameReady_eq]

theorem frameReady_rect : (frameReady s).frame = s.frame := by rw [frameReady_eq]

theorem frameReady_interlace : (frameReady s).interlace = s.interlace := by rw [frameReady_eq]

theorem frameReady_diag : (frameReady s).diag = s.diag := by rw [frameReady_eq]

theorem frameReady_same : SameDecoder (chainDecoder s) (frameReady s) := by
  rw [frameReady_eq]
  exact ⟨rfl, rfl, rfl⟩

/-- The rows store only to the pixels of the clipped rectangle, and end as completed or as corrupt. -/
theorem frameRows_spec : DecodeOn (· ∈ (clip s.cfg s.frame).addrs s.cfg) (frameReady s) (frameRows s).state
    ∧ (((frameRows s).outcome = .ok ∧ (frameRows s).state.fault = s.fault ∧ (frameRows s).state.code = .success)
      ∨ ((frameRows s).outcome = .corrupt ∧ (frameRows s).state.fault = true
        ∧ (frameRows s).state.code = .lzwCorruptStream ∧ (frameRows s).state.lzw.st = .ended
        ∧ (frameRows s).state.lzw.endReason = .corrupt)) := by
  have h := decodeRows_frame_spec (frameReady s) (!(s.stream.after 1 0).scanChain.1)
  have hfault : (frameReady s).fault = s.fault := by rw [frameReady_eq]
  have hcode : (frameReady s).code = .success := by rw [frameReady_eq]
  rw [frameReady_cfg, frameReady_rect, frameReady_interlace, hfault, hcode, ← frameRows] at h
  exact ⟨h.1.mono fun a => List.mem_map.2, h.2⟩

/-- The rows are the one decode. -/
theorem frameRows_same : (frameRows s).total = (frameDecode s).count
    ∧ SameDecoder (frameDecode s).state (frameRows s).state
    ∧ ((frameRows s).outcome = .corrupt ↔ (frameDecode s).outcome = .corrupt)
    ∧ ((frameRows s).rf = true ↔ (s.stream.after 1 0).scanChain.1 = false ∨ (frameDecode s).outcome = .fail) := by
  have h := decodeRows_same (rowOrder s.frame.h.toNat s.interlace) 0 (!(s.stream.after 1 0).scanChain.1)
    (frameReady_same s) 0 (s.frame.h.toNat * s.frame.w.toNat)
  rwa [length_rowOrder, frameReady_rect, Nat.zero_add, Bool.not_eq_true', ← frameRows, ← frameDecode] at h

theorem frameDecode_says : outcomeSays (frameDecode s).outcome (chainDecoder s) (frameDecode s).state :=
  (lzwDecode_spec _ _ _ _).2.1

end

/-- A call ended in a failed read exactly when it leaves the decoder so (`41_lzw.md` R160). -/
theorem outcomeSays_fail_iff {o : LzwOutcome} {s u : State} (h : outcomeSays o s u) (hs : s.lzw.st ≠ .ended) :
    o = .fail ↔ u.lzw.st = .ended ∧ u.lzw.endReason = .readFailure := by
  cases o with
  | ok => simp [h.1]
  | ended => exact absurd h.2 hs
  | eoi | chain | corrupt =>
    obtain ⟨-, hwhy, -⟩ := h
    simp [hwhy]
  | fail =>
    obtain ⟨hst, hwhy, -⟩ := h
    simp [hst, hwhy]
  | stuck => exact h.elim

section
variable (s : State)

/-- The rows report a failed read exactly as the completed frame does (`42_compositor.md` R209). -/
theorem frameRows_rf : (frameRows s).rf = decide ((s.stream.after 1 0).scanChain.1 = false
    ∨ ((frameDecode s).state.lzw.st = .ended ∧ (frameDecode s).state.lzw.endReason = .readFailure)) := by
  obtain ⟨-, -, -, hrf⟩ := frameRows_same s
  rw [outcomeSays_fail_iff (frameDecode_says s) nofun] at hrf
  rw [Bool.eq_iff_iff, decide_eq_true_eq]
  exact hrf

theorem frameRows_noEndCode : (frameRows s).state.diag.noEndCode = (s.diag.noEndCode
    || decide ((frameDecode s).state.lzw.st = .ended ∧ (frameDecode s).state.lzw.endReason = .chainEnd)) := by
  obtain ⟨-, hsame, -⟩ := frameRows_same s
  have h := decodeRows_noEndCode (rowOrder s.frame.h.toNat s.interlace) 0 (!(s.stream.after 1 0).scanChain.1)
    (frameReady s)
  have hst : (frameReady s).lzw.st ≠ .ended := by
    rw [frameReady_eq]
    nofun
  rw [← frameRows, frameReady_diag, hsame.lzw] at h
  simpa only [hst, ne_eq, not_false_eq_true, true_and] using h

theorem frameRows_clipped_iff : (frameRows s).state.diag.outputClipped = true ↔ s.diag.outputClipped = true
    ∨ OffCanvas s (rowOrder s.frame.h.toNat s.interlace) (frameDecode s).count := by
  have h := decodeRows_clipped_iff (rowOrder s.frame.h.toNat s.interlace) 0 (!(s.stream.after 1 0).scanChain.1)
    (frameReady_same s) 0 (s.frame.h.toNat * s.frame.w.toNat)
  have hoff : ∀ rs n, OffCanvas (frameReady s) rs n ↔ OffCanvas s rs n := fun rs n => by
    simp only [OffCanvas, frameReady_cfg, frameReady_rect]
  rwa [hoff, length_rowOrder, frameReady_rect, frameReady_diag, ← frameRows, ← frameDecode] at h

/-- Every register after the rows. -/
theorem frameRows_state : (frameRows s).state = { s with
    stream := (frameDecode s).state.stream, lzw := (frameDecode s).state.lzw, mem := (frameRows s).state.mem
    ev := s.ev ++ clearRequest s
    dirty := clip s.cfg s.frame, prevDisp := s.gce.disp, prevFill := fillValue s
    code := (frameRows s).state.code, fault := (frameRows s).state.fault
    diag := { s.diag with
      outputClipped := (frameRows s).state.diag.outputClipped
      noEndCode := s.diag.noEndCode
        || decide ((frameDecode s).state.lzw.st = .ended ∧ (frameDecode s).state.lzw.endReason = .chainEnd) } } := by
  obtain ⟨hon, -⟩ := frameRows_spec s
  obtain ⟨-, hsame, -⟩ := frameRows_same s
  have hdiag := hon.diag
  rw [frameRows_noEndCode, frameReady_eq] at hdiag
  have hframe := hon.frame
  rw [frameReady_eq, hsame.lzw, hsame.stream] at hframe
  exact hframe.trans (by rw [hdiag])

end

/-! #### How the frame ends -/

section
variable {s : State}

theorem frameEnd_of_corrupt (h : (frameDecode s).outcome = .corrupt) : frameEnd s
    = raiseFault .lzwCorruptStream { (frameRows s).state with result := BitVec.ofNat 32 (frameRows s).total } :=
  if_pos h

theorem frameEnd_of_not_corrupt (h : (frameDecode s).outcome ≠ .corrupt) :
    frameEnd s = finishFrame (s.stream.after 1 0).scanChain.2.pos (frameRows s) := if_neg h

theorem exec_decodeFrame_of_legal (hf : s.fault = false) (hfb : s.cfg.hasFramebuffer = true) (hcycle : s.cycleNo ≠ 0)
    (hd : s.stream.delivers 0) (hlo : 2 ≤ (s.stream.byteAt 0).toNat) (hhi : (s.stream.byteAt 0).toNat ≤ 8) :
    exec .decodeFrame s = .next (frameEnd s) := by
  obtain ⟨_, r, rfl, hr, hends⟩ := composeFrame_cases (s.stream.after 1 0).scanChain.2.pos
    (!(s.stream.after 1 0).scanChain.1) { s with code := .success, stream := chainStart s.stream }
    ((legalMinCode_iff _).2 ⟨hlo, hhi⟩)
  have hrows : r = frameRows s := by
    change r = decodeRows (rowOrder (frameReady s).frame.h.toNat (frameReady s).interlace) 0 _ (frameReady s) at hr
    rw [hr, frameReady_rect, frameReady_interlace, frameRows]
  obtain ⟨-, -, hcorrupt, -⟩ := frameRows_same s
  rw [exec_decodeFrame_of_byte hf hfb hcycle hd]
  rw [hrows] at hends
  rcases hends with ⟨ho, e⟩ | ⟨ho, e⟩
  · rw [e, frameEnd_of_not_corrupt (hcorrupt.not.1 (by rw [ho]; nofun))]
  · rw [e, frameEnd_of_corrupt (hcorrupt.1 ho)]

end

section
variable (s : State)

/-- What both ends leave as the rows left it. -/
theorem frameEnd_rows : (frameEnd s).lzw = (frameDecode s).state.lzw ∧ (frameEnd s).mem = (frameRows s).state.mem
    ∧ (frameEnd s).diag.outputClipped = (frameRows s).state.diag.outputClipped
    ∧ (frameEnd s).result = BitVec.ofNat 32 (frameDecode s).count := by
  obtain ⟨htotal, hsame, -, -⟩ := frameRows_same s
  rw [← hsame.lzw, ← htotal]
  by_cases h : (frameDecode s).outcome = .corrupt
  · rw [frameEnd_of_corrupt h]
    exact ⟨rfl, rfl, rfl, rfl⟩
  · rw [frameEnd_of_not_corrupt h, finishFrame_frame]
    exact ⟨rfl, rfl, rfl, rfl⟩

/-- The end of the chain is a position of the stream, so that the final seek succeeds (`42_compositor.md` R201). -/
theorem seek_chainEnd (hd : s.stream.delivers 0) :
    ((frameRows s).state.stream.seek (s.stream.after 1 0).scanChain.2.pos).2
      = { (frameDecode s).state.stream with pos := (s.stream.after 1 0).scanChain.2.pos } := by
  obtain ⟨hon, -⟩ := frameRows_spec s
  obtain ⟨-, hsame, -⟩ := frameRows_same s
  have hdata : (frameReady s).stream.data = s.stream.data := by
    rw [frameReady_eq]
    rfl
  rw [Stream.seek_ok, hsame.stream]
  rw [Stream.slen, hon.stream.data, hdata]
  exact (Stream.scanChain_ahead (s.stream.after 1 0)).bound hd.1

end

section
variable {s : State}

/-- An aborted frame (`42_compositor.md` R200). -/
theorem frameEnd_eq_of_corrupt (h : (frameDecode s).outcome = .corrupt) : frameEnd s = { s with
    stream := (frameDecode s).state.stream, lzw := (frameDecode s).state.lzw, mem := (frameEnd s).mem
    ev := s.ev ++ clearRequest s
    dirty := clip s.cfg s.frame, prevDisp := s.gce.disp, prevFill := fillValue s
    code := .lzwCorruptStream, fault := true
    diag := { s.diag with outputClipped := (frameEnd s).diag.outputClipped }
    result := BitVec.ofNat 32 (frameDecode s).count } := by
  obtain ⟨-, hmem, hclip, -⟩ := frameEnd_rows s
  obtain ⟨htotal, -⟩ := frameRows_same s
  have hwhy : (frameDecode s).state.lzw.endReason = .corrupt := by
    have hsays := frameDecode_says s
    rw [h] at hsays
    exact hsays.2.1
  have hrows := frameRows_state s
  simp only [hwhy, reduceCtorEq, and_false, decide_false, Bool.or_false] at hrows
  rw [hmem, hclip, frameEnd_of_corrupt h, htotal, hrows]
  rfl

/-- Rows that are not corrupt leave FAULT and CODE. -/
theorem frameRows_of_not_corrupt (h : (frameDecode s).outcome ≠ .corrupt) :
    (frameRows s).state.fault = s.fault ∧ (frameRows s).state.code = .success := by
  obtain ⟨-, -, hcorrupt, -⟩ := frameRows_same s
  rcases (frameRows_spec s).2 with ⟨-, hok⟩ | ⟨hc, -⟩
  · exact hok
  · exact absurd (hcorrupt.1 hc) h

/-- A completed frame reports exactly when the rows carry a failed read (`42_compositor.md` R209). -/
theorem decide_frameEnd_code (h : (frameDecode s).outcome ≠ .corrupt) :
    decide ((frameEnd s).code = .streamReadFailure) = (frameRows s).rf := by
  rw [frameEnd_of_not_corrupt h, finishFrame_frame, (frameRows_of_not_corrupt h).2]
  cases (frameRows s).rf <;> rfl

/-- The events of a completed frame, from the state after it with the transparency it had (`42_compositor.md` R203,
R208). -/
theorem rectEvents_frameEnd (h : (frameDecode s).outcome ≠ .corrupt) (r : Rect) :
    rectEvents { frameEnd s with gce := s.gce } r = rectEvents (frameRows s).state r := by
  obtain ⟨-, hmem, -⟩ := frameEnd_rows s
  refine rectEvents_congr (t := { frameEnd s with gce := s.gce }) ?_ hmem ?_ r
  · rw [frameEnd_of_not_corrupt h, finishFrame_frame]
  · rw [frameRows_state]

/-- A completed frame (`42_compositor.md` R201 to R210). -/
theorem frameEnd_eq_of_not_corrupt (hd : s.stream.delivers 0) (h : (frameDecode s).outcome ≠ .corrupt) :
    frameEnd s = { s with
      stream := { (frameDecode s).state.stream with pos := (s.stream.after 1 0).scanChain.2.pos }
      lzw := (frameDecode s).state.lzw, mem := (frameEnd s).mem
      ev := s.ev ++ clearRequest s ++ (if s.cfg.hasStartHook then [Event.startDrawing] else [])
        ++ rectEvents { frameEnd s with gce := s.gce } (clip s.cfg s.frame) ++ [Event.presentFrame]
      dirty := clip s.cfg s.frame, prevDisp := s.gce.disp, prevFill := fillValue s
      gce := { s.gce with tValid := false, disp := .none }, frameNo := s.frameNo + 1, key := false
      code := if (s.stream.after 1 0).scanChain.1 = false
          ∨ ((frameEnd s).lzw.st = .ended ∧ (frameEnd s).lzw.endReason = .readFailure)
        then .streamReadFailure else .success
      diag := { s.diag with
        outputClipped := (frameEnd s).diag.outputClipped
        noEndCode := s.diag.noEndCode
          || decide ((frameEnd s).lzw.st = .ended ∧ (frameEnd s).lzw.endReason = .chainEnd)
        readFailure := s.diag.readFailure || decide ((frameEnd s).code = .streamReadFailure) }
      result := BitVec.ofNat 32 (frameDecode s).count } := by
  obtain ⟨hlzw, hmem, hclip, -⟩ := frameEnd_rows s
  obtain ⟨htotal, -⟩ := frameRows_same s
  obtain ⟨hfault, hcode⟩ := frameRows_of_not_corrupt h
  have hrows := frameRows_state s
  rw [hcode, hfault] at hrows
  rw [decide_frameEnd_code h, rectEvents_frameEnd h, hmem, hclip, hlzw, frameEnd_of_not_corrupt h, finishFrame_frame,
    htotal, seek_chainEnd s hd, frameRows_rf, hrows]
  simp only [gceDefaults, startEvents, decide_eq_true_eq, List.append_assoc]
  -- what is left differs in the stream of the state that the events are of, which they do not see
  rfl

end

/-- Settles O55: the frame is `frameEnd`, which is aborted or completed as its one decode says. -/
theorem decodeFrameEffect : Obligations.DecodeFrameEffect := by
  unfold Obligations.DecodeFrameEffect
  intro s hf hfb hcycle hd hlo hhi
  obtain ⟨hlzw, -, hclip, -⟩ := frameEnd_rows s
  refine ⟨frameEnd s, frameDecode s, _, exec_decodeFrame_of_legal hf hfb hcycle hd hlo hhi, rfl, rfl,
    (lzwDecode_spec _ _ _ _).2.2.1, ?_, fun h => ⟨frameEnd_eq_of_corrupt h, ?_⟩, frameEnd_eq_of_not_corrupt hd⟩
  · rw [hclip]
    exact frameRows_clipped_iff s
  · have hsays := frameDecode_says s
    rw [h] at hsays
    rw [hlzw]
    exact ⟨hsays.1, hsays.2.1⟩

/-! #### Memory (O56, O57) -/

section
variable {s : State}

/-- Memory before the rows, from a state of the invariant. -/
theorem get_frameReady (hi : Inv s) (hf : s.fault = false) (a : Nat) : (frameReady s).mem.get a =
    if a < fbn s.cfg then disposedByte s a
    else if s.gce.disp = .previous ∧ s.cfg.hasBackup = true ∧ a - fbn s.cfg ∈ (clip s.cfg s.frame).addrs s.cfg
    then disposedByte s (a - fbn s.cfg) else s.mem.get a :=
  get_prepareFrame (s := { s with code := .success, stream := _, lzw := _ }) hi.cfg hi.dirty (fun hk => hi.key hk hf) a

/-- The frame leaves what is outside its clipped rectangle as the rows found it. -/
theorem get_frameEnd_outside {a : Nat} (ha : a ∉ (clip s.cfg s.frame).addrs s.cfg) :
    (frameEnd s).mem.get a = (frameReady s).mem.get a := by
  obtain ⟨-, hmem, -⟩ := frameEnd_rows s
  rw [hmem]
  exact (frameRows_spec s).1.mem a ha

end

/-- Settles O56: BK is outside the rectangle, so both clauses are of the memory before the rows. -/
theorem decodeFrameMemory : Obligations.DecodeFrameMemory := by
  unfold Obligations.DecodeFrameMemory
  intro s hi hf hfb hcycle hd hlo hhi
  refine ⟨frameEnd s, exec_decodeFrame_of_legal hf hfb hcycle hd hlo hhi, fun a hlt ha => ?_, fun a hle => ?_⟩
  · rw [get_frameEnd_outside ha, get_frameReady hi hf, if_pos hlt]
  · have ha : a ∉ (clip s.cfg s.frame).addrs s.cfg := fun ha => absurd (addrs_lt (clip_inCanvas _ _) ha) (by omega)
    rw [get_frameEnd_outside ha, get_frameReady hi hf, if_neg (by omega)]

/-- The pixels of the frame by the one decode. -/
theorem get_frameEnd_pixel {s : State} {j row dx : Nat} (hj : (rowOrder s.frame.h.toNat s.interlace)[j]? = some row)
    (hdx : dx < s.frame.w.toNat) (hx : s.frame.x.toNat + dx < s.cfg.maxW) (hy : s.frame.y.toNat + row < s.cfg.maxH) :
    (frameEnd s).mem.get (pixelAddr s.cfg (s.frame.x.toNat + dx) (s.frame.y.toNat + row)) =
      if j * s.frame.w.toNat + dx < (frameDecode s).count
      then (frameDecode s).state.mem.get (j * s.frame.w.toNat + dx)
      else (frameReady s).mem.get (pixelAddr s.cfg (s.frame.x.toNat + dx) (s.frame.y.toNat + row)) := by
  obtain ⟨-, hmem, -⟩ := frameEnd_rows s
  have h := decodeRows_get 0 (!(s.stream.after 1 0).scanChain.1) (frameReady_same s) (dst := 0)
    (lim := s.frame.h.toNat * s.frame.w.toNat) (rowOrder_nodup s.frame.h.toNat s.interlace)
    (by rw [length_rowOrder, frameReady_rect, Nat.zero_add]) hj (by rwa [frameReady_rect])
    (by rwa [frameReady_rect, frameReady_cfg]) (by rwa [frameReady_rect, frameReady_cfg])
  rwa [length_rowOrder, frameReady_cfg, frameReady_rect, Nat.zero_add, ← frameRows, ← frameDecode, ← hmem] at h

/-- The frame faults exactly when its one decode is corrupt. -/
theorem frameEnd_fault_iff {s : State} (hf : s.fault = false) (hd : s.stream.delivers 0) :
    (frameEnd s).fault = true ↔ (frameDecode s).outcome = .corrupt := by
  by_cases h : (frameDecode s).outcome = .corrupt
  · rw [frameEnd_eq_of_corrupt h]
    exact iff_of_true rfl h
  · rw [frameEnd_eq_of_not_corrupt hd h]
    exact iff_of_false (by simp [hf]) h

/-- Settles O57: the pixels are `get_frameEnd_pixel`, over the memory before the rows. -/
theorem decodeFramePixels : Obligations.DecodeFramePixels := by
  unfold Obligations.DecodeFramePixels
  intro s hi hf hfb hcycle hd hlo hhi
  obtain ⟨hlzw, -, -, hresult⟩ := frameEnd_rows s
  refine ⟨frameEnd s, frameDecode s, exec_decodeFrame_of_legal hf hfb hcycle hd hlo hhi, rfl, hresult, hlzw,
    frameEnd_fault_iff hf hd, fun j row dx hj hdx hx hy => ?_⟩
  have h := get_frameEnd_pixel hj hdx hx hy
  rw [get_frameReady hi hf, if_pos (pixelAddr_lt hx hy)] at h
  exact h

end Sys2Proof.Machine
end

-- Proofs: System
section
/-! ### The system commands (`43_system.md` R230, R232, R233) -/

namespace Sys2Proof.Machine

/-- Settles O24: NOP's rule leaves the state as the dispatcher hands it on. -/
theorem nopEffect : Obligations.NopEffect := by
  unfold Obligations.NopEffect
  exact fun s hf => command_of_noFault _ hf

/-- Settles O25: MEM_RD tests its address and does not test FAULT. -/
theorem memReadEffect : Obligations.MemReadEffect := by
  unfold Obligations.MemReadEffect
  refine fun s => ⟨readable_iff _ _, fun hr => ?_, fun hr => ?_⟩ <;>
    simp only [exec, execMemRd, commandWhileFaulted, arg0Nat]
  · exact if_pos hr
  · exact if_neg (Bool.eq_false_iff.1 hr)

/-- Settles O26: MEM_WR tests its address, and its store is one `Memory.set`. -/
theorem memWriteEffect : Obligations.MemWriteEffect := by
  unfold Obligations.MemWriteEffect
  refine fun s hf => ⟨writable_iff _ _, fun hw => ?_, fun hw => ?_⟩ <;>
    simp only [exec, execMemWr, command_of_noFault _ hf, arg0Nat]
  · exact ⟨_, if_pos hw, rfl, fun b => Memory.get_set _ _ b _⟩
  · exact if_neg (Bool.eq_false_iff.1 hw)

end Sys2Proof.Machine
end

-- Proofs: Exceptions
section
/-! ### Outcomes of a command and the fault state (`60_exceptions.md` R240 to R249) -/

namespace Sys2Proof.Machine

/-! #### How a command ends while FAULT is 0 (O11) -/

/-- CODE and FAULT of `t` after a command that ran in `s` (`60_exceptions.md` R240): Success or StreamReadFailure with
FAULT as it was, or a fault code with FAULT set. -/
def Concludes (s t : State) : Prop :=
  t.code ∈ [CmdCode.success, .streamReadFailure] ∧ t.fault = s.fault
    ∨ t.code ∈ [CmdCode.lzwCorruptStream, .badCommand, .badArgument, .badSequence] ∧ t.fault = true

/-- The answer `r` is a next state that concludes a command run in `s`. -/
def Ends (s : State) (r : Result) : Prop := ∃ t, r = .next t ∧ Concludes s t

section
variable {s t : State}

theorem Ends.success (hc : t.code = .success) (hf : t.fault = s.fault) : Ends s (.next t) :=
  ⟨t, rfl, .inl ⟨by simp [hc], hf⟩⟩

theorem Ends.report {ok : Bool} (hc : t.code = .success) (hf : t.fault = s.fault) :
    Ends s (.next (reportUnless ok t)) := by
  refine ⟨_, rfl, .inl ⟨?_, by rw [reportUnless_fault, hf]⟩⟩
  cases ok <;> simp [hc]

theorem Ends.readFailure (hf : t.fault = s.fault) : Ends s (.next (reportReadFailure t)) :=
  ⟨_, rfl, .inl ⟨by simp [reportReadFailure], hf⟩⟩

theorem Ends.raise {c : CmdCode} (hc : c ∈ [CmdCode.lzwCorruptStream, .badCommand, .badArgument, .badSequence]) :
    Ends s (.next (raiseFault c t)) :=
  ⟨_, rfl, .inr ⟨hc, rfl⟩⟩

theorem Ends.of_next {r : Result} (h : ∃ t, r = .next t) (hc : ∀ t, r = .next t → Concludes s t) : Ends s r :=
  let ⟨t, e⟩ := h
  ⟨t, e, hc t e⟩

/-- The dispatcher hands a command that is not turned away to its rule. -/
theorem command_ends {rule : State → Result} (hf : s.fault = false) (h : Ends s (rule { s with code := .success })) :
    Ends s (command s rule) := by
  rwa [command_of_noFault rule hf]

theorem execMemRd_eq (s : State) : execMemRd s = if readable s.cfg (arg0Nat s)
    then .next { s with code := .success, result := (s.mem.get (arg0Nat s)).setWidth 32 }
    else .next (raiseFault .badArgument { s with code := .success }) := rfl

/-- MEM_RD runs whether the block is faulted or not. -/
theorem execMemRd_ends (s : State) : Ends s (execMemRd s) := by
  rw [execMemRd_eq]
  split
  · exact .success rfl rfl
  · exact .raise (by decide)

/-- The bound of the rows' decode loops is never reached (`70_reset_and_hazards.md` R280). -/
theorem composeFrame_next (m endOff : Nat) (rf : Bool) (s : State) : ∃ t, composeFrame m endOff rf s = .next t := by
  by_cases hm : legalMinCode m = true
  · obtain ⟨_, _, -, -, ⟨-, e⟩ | ⟨-, e⟩⟩ := composeFrame_cases endOff rf s hm <;> exact ⟨_, e⟩
  · exact ⟨_, if_neg hm⟩

variable (hf : s.fault = false)
include hf

theorem execMemWr_ends : Ends s (execMemWr s) := command_ends hf (by
  split
  · exact .success rfl rfl
  · exact .raise (by decide))

theorem execRdByte_ends : Ends s (execRdByte s) := command_ends hf (by
  split
  · exact .readFailure rfl
  · exact .success rfl rfl)

theorem execRdWord_ends : Ends s (execRdWord s) := command_ends hf (by
  split
  · exact .readFailure rfl
  · split
    · exact .readFailure rfl
    · exact .success rfl rfl)

theorem execRdBlock_ends : Ends s (execRdBlock s) := command_ends hf (by
  dsimp only
  split
  · exact .report rfl rfl
  · exact .raise (by decide))

theorem execRewind_ends : Ends s (execRewind s) := command_ends hf (by
  split
  · exact .raise (by decide)
  · exact .success rfl rfl)

theorem execSeek_ends : Ends s (execSeek s) := command_ends hf (by
  split
  · exact .success rfl rfl
  · exact .readFailure rfl)

theorem execPalLoad_ends : Ends s (execPalLoad s) := command_ends hf (by
  dsimp only
  split
  · exact .raise (by decide)
  · exact .report rfl rfl)

theorem execLzwInit_ends (m : Byte) : Ends s (execLzwInit m s) := command_ends hf (by
  split
  · exact .success rfl rfl
  · exact .raise (by decide))

theorem execSetGce_ends : Ends s (execSetGce s) := by
  rw [execSetGce_of_noFault hf]
  exact .success rfl rfl

/-- The decode loop's bound is never reached, so LZW_DECODE answers a next state (`70_reset_and_hazards.md` R280). -/
theorem execLzwDecode_ends : Ends s (execLzwDecode s) := by
  refine .of_next ?_ fun t h => ?_
  · obtain ⟨-, e⟩ | ⟨-, -, e⟩ | ⟨-, -, _, -, e⟩ := execLzwDecode_cases s hf <;> exact ⟨_, e⟩
  · obtain ⟨-, -, -, -, -, -, -, -, -, hcode⟩ := execLzwDecode_on hf h
    exact hcode

/-- DECODE_FRAME ends wherever it is not refused (`42_compositor.md` R186). -/
theorem execDecodeFrame_ends (hfb : s.cfg.hasFramebuffer = true) : Ends s (execDecodeFrame s) := by
  refine .of_next ?_ fun t h => ?_
  · obtain ⟨hno, -⟩ | ⟨-, -, e⟩ | ⟨-, -, _, -, e⟩ | ⟨-, -, _, _, -, e⟩ := execDecodeFrame_cases s hf
    · exact absurd hfb (by simp [hno])
    · exact ⟨_, e⟩
    · exact ⟨_, e⟩
    · rw [e]
      exact composeFrame_next _ _ _ _
  · obtain ⟨-, -, hcode⟩ := execDecodeFrame_code hf h
    exact hcode

/-- Every command ends, but for DECODE_FRAME without a framebuffer. -/
theorem exec_ends_of_noFault {i : Instr} (hi : i.isCommand = true)
    (hfb : i = .decodeFrame → s.cfg.hasFramebuffer = true) : Ends s (exec i s) := by
  cases i with
  | nop | tell | setScreen | setFrame | cycleStart =>
    simp only [exec]
    refine command_ends hf ?_
    exact .success rfl rfl
  | reset => exact .success rfl hf.symm
  | rdByte => exact execRdByte_ends hf
  | rdWord => exact execRdWord_ends hf
  | rdBlock => exact execRdBlock_ends hf
  | rewind => exact execRewind_ends hf
  | seek => exact execSeek_ends hf
  | scanChain =>
    simp only [exec]
    refine command_ends hf ?_
    exact .report rfl rfl
  | palLoad => exact execPalLoad_ends hf
  | lzwInit m => exact execLzwInit_ends hf m
  | lzwDecode => exact execLzwDecode_ends hf
  | setGce => exact execSetGce_ends hf
  | decodeFrame => exact execDecodeFrame_ends hf (hfb rfl)
  | memRd => exact execMemRd_ends s
  | memWr => exact execMemWr_ends hf
  | lzwClear | lzwEnd | lzwRoot _ | lzwKnown _ | lzwKwkwk | lzwInvalid _ => cases hi

end

/-! #### The fault state (O9, O10) -/

theorem isCommand_of_decodeWord {w : Word} {i : Instr} (h : decodeWord w = .ok i) : i.isCommand = true := by
  obtain ⟨-, hopc, -⟩ := (decodeWord_eq_ok_iff_opcode w i).1 h
  rw [isCommand_eq_isSome_opcode, hopc, Option.isSome_some]

theorem decodeWord_error_of_reserved {w : Word} (h : rsvOf w ≠ 0#16) : ∃ e, decodeWord w = .error e :=
  exists_decodeWord_error fun i hd => h ((decodeWord_eq_ok_iff_opcode w i).1 hd).1

/-- The words of a command without an operand in IMM8. -/
theorem decodeWord_eq_ok_iff_of_opcode {i : Instr} {opc : Byte} (hopc : opcode i = some opc)
    (hi : ∀ m, i ≠ .lzwInit m) (w : Word) : decodeWord w = .ok i ↔ opcOf w = opc ∧ rsvOf w = 0#16 := by
  rw [decodeWord_eq_ok_iff_opcode, hopc, Option.some_inj, eq_comm (a := opc), and_comm (a := rsvOf w = 0#16)]
  simp [hi]

theorem decodeWord_eq_reset_iff (w : Word) : decodeWord w = .ok .reset ↔ opcOf w = 0x01#8 ∧ rsvOf w = 0#16 :=
  decodeWord_eq_ok_iff_of_opcode rfl (by simp) w

theorem decodeWord_eq_memRd_iff (w : Word) : decodeWord w = .ok .memRd ↔ opcOf w = 0x40#8 ∧ rsvOf w = 0#16 :=
  decodeWord_eq_ok_iff_of_opcode rfl (by simp) w

theorem illegalWord_of_reset_or_memRd {opc : Byte} (h : opc = 0x01#8 ∨ opc = 0x40#8) (s : State) :
    illegalWord opc s = raiseFault .badCommand s := by
  rcases h with rfl | rfl <;> simp [illegalWord]

/-- A word that is no command raises BadCommand, or is turned away while faulted (`60_exceptions.md` R246). -/
theorem illegalWord_cases (opc : Byte) (s : State) :
    illegalWord opc s = raiseFault .badCommand s
      ∨ (s.fault = true ∧ illegalWord opc s = { s with code := .faulted }) := by
  unfold illegalWord
  split
  · next h =>
    simp only [Bool.and_eq_true] at h
    obtain ⟨⟨hf, -⟩, -⟩ := h
    exact .inr ⟨hf, rfl⟩
  · exact .inl rfl

section
variable {s : State} (hf : s.fault = true)
include hf

/-- A fault raised in the fault state changes CODE alone. -/
theorem raiseFault_of_fault (c : CmdCode) : raiseFault c s = { s with code := c } := by
  rw [raiseFault, ← hf]

theorem illegalWord_of_other {opc : Byte} (hreset : opc ≠ 0x01#8) (hmemRd : opc ≠ 0x40#8) :
    illegalWord opc s = { s with code := .faulted } := by
  simp [illegalWord, hf, hreset, hmemRd]

/-- A command other than RESET and MEM_RD is turned away (`60_exceptions.md` R243). -/
theorem exec_of_fault {i : Instr} (hi : i.isCommand = true) (hreset : i ≠ .reset) (hmemRd : i ≠ .memRd) :
    exec i s = .next { s with code := .faulted } := by
  cases i with
  | reset => exact absurd rfl hreset
  | memRd => exact absurd rfl hmemRd
  | lzwClear | lzwEnd | lzwRoot _ | lzwKnown _ | lzwKwkwk | lzwInvalid _ => cases hi
  | _ => simp only [exec]; exact command_of_fault _ hf

/-- A word with another opcode than those of RESET and MEM_RD is turned away, be it a command or not. -/
theorem onCmdWrite_of_other {w : Word} (hreset : opcOf w ≠ 0x01#8) (hmemRd : opcOf w ≠ 0x40#8) :
    onCmdWrite w s = .next { s with code := .faulted } := by
  cases hd : decodeWord w with
  | ok i =>
    rw [onCmdWrite_of_ok hd, exec_of_fault hf (isCommand_of_decodeWord hd)]
    · rintro rfl
      exact hreset ((decodeWord_eq_reset_iff w).1 hd).1
    · rintro rfl
      exact hmemRd ((decodeWord_eq_memRd_iff w).1 hd).1
  | error e => rw [onCmdWrite_of_error hd, illegalWord_of_other hf hreset hmemRd]

theorem illegalWord_writes_code (opc : Byte) : ∃ c, illegalWord opc s = { s with code := c } := by
  obtain h | ⟨-, h⟩ := illegalWord_cases opc s
  · exact ⟨_, h.trans (raiseFault_of_fault hf _)⟩
  · exact ⟨_, h⟩

theorem execMemRd_writes_code_result {t : State} (h : execMemRd s = .next t) :
    ∃ c r, t = { s with code := c, result := r } := by
  rw [execMemRd_eq] at h
  split at h
  · cases h
    exact ⟨_, _, rfl⟩
  · cases h
    exact ⟨_, _, raiseFault_of_fault (s := { s with code := .success }) hf _⟩

/-- All that a command but RESET can change in the fault state. -/
theorem exec_writes_code_result {i : Instr} {t : State} (h : exec i s = .next t) (hi : i.isCommand = true)
    (hreset : i ≠ .reset) : ∃ c r, t = { s with code := c, result := r } := by
  by_cases hmemRd : i = .memRd
  · subst hmemRd
    exact execMemRd_writes_code_result hf h
  · rw [exec_of_fault hf hi hreset hmemRd] at h
    cases h
    exact ⟨_, _, rfl⟩

end

/-- `t` is `s` but for the host's lists and registers ARG0 to ARG2, and CODE and RESULT, which a faulted block may
write. -/
def HeldFaulted (s t : State) : Prop :=
  t = { s with
    program := t.program, hostReads := t.hostReads, arg0 := t.arg0, arg1 := t.arg1, arg2 := t.arg2
    code := t.code, result := t.result }

theorem HeldFaulted.fault {s t : State} (h : HeldFaulted s t) : t.fault = s.fault := by
  rw [HeldFaulted] at h
  rw [h]

/-- A step in the fault state makes a RESET, which leaves it (`60_exceptions.md` R249), or holds the block. -/
theorem step_of_fault {s t : State} (h : step s = .next t) (hf : s.fault = true) :
    (t.fault = false ∧ ∃ w rest, s.program = .cmd w :: rest ∧ decodeWord w = .ok .reset) ∨ HeldFaulted s t := by
  obtain ⟨-, hc⟩ := step_cases h
  obtain ⟨-, rfl⟩ | ⟨w, rest, i, hp, hd, he⟩ | ⟨w, rest, _, -, -, rfl⟩ | ⟨_, off, v, rest, -, rfl⟩
    | ⟨_, _, _, -, rfl⟩ := hc
  · exact .inr rfl
  · by_cases hreset : i = .reset
    · subst hreset
      cases he
      exact .inl ⟨rfl, w, rest, hp, hd⟩
    · obtain ⟨_, _, rfl⟩ :=
        exec_writes_code_result (s := { s with program := rest }) hf he (isCommand_of_decodeWord hd) hreset
      exact .inr rfl
  · obtain ⟨_, e⟩ := illegalWord_writes_code (s := { s with program := rest }) hf (opcOf w)
    rw [e]
    exact .inr rfl
  · obtain ⟨_, _, _, e⟩ := writeReg_eq off v { s with program := rest }
    rw [e]
    exact .inr rfl
  · exact .inr rfl

/-- Settles O10: a step that holds the block keeps FAULT, and RESET clears it. -/
theorem faultLeftOnlyByReset : Obligations.FaultLeftOnlyByReset := by
  unfold Obligations.FaultLeftOnlyByReset
  intro s t h hf
  rcases step_of_fault h hf with ⟨hclear, w, rest, hp, hd⟩ | hheld
  · obtain ⟨hopc, hrsv⟩ := (decodeWord_eq_reset_iff w).1 hd
    exact ⟨fun _ => ⟨w, rest, hp, hopc, hrsv⟩, fun hset => by simp [hclear] at hset⟩
  · exact ⟨fun hclear => by simp [hheld.fault, hf] at hclear, fun _ => hheld⟩

/-- Settles O9: the cases by opcode, then by the reserved bits, then by the address of MEM_RD. -/
theorem faultedBlock : Obligations.FaultedBlock := by
  unfold Obligations.FaultedBlock
  intro s w rest hs hf hp
  rw [step_cmd hs hp]
  have hreset : opcOf w = 0x01#8 → rsvOf w = 0#16 → onCmdWrite w = exec .reset := fun hopc hrsv =>
    funext (onCmdWrite_of_ok ((decodeWord_eq_reset_iff w).2 ⟨hopc, hrsv⟩))
  have hmemRd : opcOf w = 0x40#8 → rsvOf w = 0#16 → onCmdWrite w = exec .memRd := fun hopc hrsv =>
    funext (onCmdWrite_of_ok ((decodeWord_eq_memRd_iff w).2 ⟨hopc, hrsv⟩))
  obtain ⟨-, hreadable, hunreadable⟩ := memReadEffect { s with program := rest }
  refine ⟨onCmdWrite_of_other (s := { s with program := rest }) hf, fun hopc hrsv => ?_, fun hopc hrsv hr => ?_,
    fun hopc hrsv hr => ?_, fun hopc hrsv => ?_⟩
  · obtain ⟨_, he⟩ := decodeWord_error_of_reserved hrsv
    rw [onCmdWrite_of_error he, illegalWord_of_reset_or_memRd (opc := opcOf w) hopc]
    rfl
  · rw [hmemRd hopc hrsv, hreadable hr]
  · rw [hmemRd hopc hrsv, hunreadable hr]
  · exact ⟨_, by rw [hreset hopc hrsv]; rfl, rfl, rfl⟩

/-! #### Every write to CMD (O11) -/

/-- A command ends concluded, or is turned away while faulted. -/
theorem exec_ends {i : Instr} {s : State} (hi : i.isCommand = true) (hreset : i ≠ .reset)
    (hfb : ¬(i = .decodeFrame ∧ s.cfg.hasFramebuffer = false ∧ s.fault = false)) :
    Ends s (exec i s) ∨ (s.fault = true ∧ exec i s = .next { s with code := .faulted }) := by
  rcases Bool.eq_false_or_eq_true s.fault with hf | hf
  · by_cases hmemRd : i = .memRd
    · subst hmemRd
      exact .inl (execMemRd_ends s)
    · exact .inr ⟨hf, exec_of_fault hf hi hreset hmemRd⟩
  · exact .inl (exec_ends_of_noFault hf hi fun hdf => by simpa [hdf, hf] using hfb)

/-- The outcomes of R240 but Faulted, of a command that sets READ_FAILURE where it reports one. -/
theorem Concludes.outcomes {s t : State} (h : Concludes s t)
    (hread : t.code = .streamReadFailure → t.diag.readFailure = true) :
    (t.code = .success ∧ t.fault = s.fault)
      ∨ (t.code = .streamReadFailure ∧ t.diag.readFailure = true ∧ t.fault = s.fault)
      ∨ t.code ∈ [CmdCode.lzwCorruptStream, .badCommand, .badArgument, .badSequence] ∧ t.fault = true := by
  rcases h with ⟨hcode, hf⟩ | hraised
  · rcases List.mem_pair.1 hcode with hcode | hcode
    · exact .inl ⟨hcode, hf⟩
    · exact .inr (.inl ⟨hcode, hread hcode, hf⟩)
  · exact .inr (.inr hraised)

/-- Settles O11: an illegal word is one of `illegalWord_cases`, a RESET succeeds, and any other command is one of
`exec_ends`; that a reported read failure sets READ_FAILURE is part of `CommandOn`. -/
theorem outcomeOfCommand : Obligations.OutcomeOfCommand := by
  unfold Obligations.OutcomeOfCommand
  intro s w rest hs hp
  rw [step_cmd hs hp]
  refine ⟨fun hno => ?_, fun ⟨hd, hfb, hf⟩ => ?_⟩
  · cases hd : decodeWord w with
    | error e =>
      rw [onCmdWrite_of_error hd]
      refine ⟨_, rfl, ?_⟩
      obtain h | hturned := illegalWord_cases (opcOf w) { s with program := rest }
      · rw [h]
        exact .inr (.inr (.inl ⟨by simp, rfl⟩))
      · exact .inr (.inr (.inr hturned))
    | ok i =>
      rw [onCmdWrite_of_ok hd]
      by_cases hreset : i = .reset
      · subst hreset
        exact ⟨_, rfl, .inl ⟨rfl, .inr rfl⟩⟩
      have hi := isCommand_of_decodeWord hd
      obtain ⟨t, he, hends⟩ | ⟨hf, he⟩ := exec_ends (s := { s with program := rest }) hi hreset
        fun ⟨hdf, hrefused⟩ => hno ⟨hdf ▸ hd, hrefused⟩
      · refine ⟨t, he, ?_⟩
        obtain ⟨hcode, hf⟩ | hreported | hraised :=
          hends.outcomes fun hcode => (exec_commandOn he hi hreset).readFailure.2 (.inr hcode)
        · exact .inl ⟨hcode, .inl hf⟩
        · exact .inr (.inl hreported)
        · exact .inr (.inr (.inl hraised))
      · exact ⟨_, he, .inr (.inr (.inr ⟨hf, rfl⟩))⟩
  · rw [onCmdWrite_of_ok hd]
    exact exec_decodeFrame_of_noFramebuffer (s := { s with program := rest }) hf hfb

end Sys2Proof.Machine
end

-- Proofs: ResetAndHazards
section
/-! ### Power-on, RESET, and how a step ends (`70_reset_and_hazards.md` R270, R271, R280) -/

namespace Sys2Proof.Machine

/-! #### Power-on and RESET (O21, O23) -/

theorem exec_reset (s : State) : exec .reset s = .next (resetState s) := rfl

/-- The decoder at power-on is what LzwUninit leaves (`41_lzw.md` R141), over any two arrays. -/
theorem uninit_ok {mb : Nat} (prefixTab : List (Nat × Nat)) (suffixTab : List (Nat × Byte)) :
    (Lzw.uninit prefixTab suffixTab).Ok mb :=
  lzwUninit_ok (.uninit prefixTab suffixTab)

theorem resetState_powerOn (c : Config) (l : Launch) : resetState (.powerOn c l) = .powerOn c l := rfl

/-- Settles O21: the launch input brings the bounds of the configuration, S and memory; the decoder is uninitialised, the
dirty rectangle empty, KEY 0. -/
theorem invariantAtPowerOn : Obligations.InvariantAtPowerOn := by
  unfold Obligations.InvariantAtPowerOn
  intro c l ⟨hcfg, hdata, hmem⟩
  exact {
    cfg := hcfg
    stream := decide_eq_true hdata
    pos := Nat.zero_le _
    mem := hmem
    lzw := uninit_ok l.prefixTab l.suffixTab
    dirty := .inl ⟨rfl, rfl⟩
    key := nofun }

/-- Settles O23: the fields of the power-on state are read off, and RESET is `resetState`, which leaves that state. -/
theorem resetValues : Obligations.ResetValues := by
  unfold Obligations.ResetValues
  refine ⟨fun c l => ⟨rfl, rfl, rfl, rfl, rfl, rfl, rfl, rfl, rfl, rfl, ?_⟩, exec_reset⟩
  rw [exec_reset, resetState_powerOn]

/-! #### What each access answers -/

theorem step_of_illegalConfig {s : State} (hc : legalConfig s.cfg = false) : step s = .refused .illegalConfig :=
  if_neg (Bool.eq_false_iff.1 hc)

theorem step_of_illegalStream {s : State} (hc : legalConfig s.cfg = true) (hs : legalStream s.stream = false) :
    step s = .refused .illegalStream :=
  (if_pos hc).trans (if_neg (Bool.eq_false_iff.1 hs))

section
variable {s : State} (hs : s.lawful)
include hs

/-- A block with no access left is idle (`60_exceptions.md` R255). -/
theorem step_of_noAccess (hp : s.program = []) : step s = .next s := by
  obtain ⟨hc, ht⟩ := hs
  rw [step, if_pos hc, if_pos ht, hp]

theorem step_of_illegalAccess {width off : Nat} {v : Word} {rest : List HostAccess}
    (hp : s.program = .write width off v :: rest ∨ s.program = .read width off :: rest)
    (hl : ¬legalAccess width off = true) : step s = .refused .illegalAccess := by
  rcases hp with hp | hp <;> rw [step_cons hs hp] <;> exact if_neg hl

theorem step_read {width off : Nat} {rest : List HostAccess} (hp : s.program = .read width off :: rest)
    (hl : legalAccess width off = true) : step s = .next (hostRead off { s with program := rest }) :=
  (step_cons hs hp).trans (if_pos hl)

theorem step_writeReg {width off : Nat} {v : Word} {rest : List HostAccess}
    (hp : s.program = .write width off v :: rest) (hl : legalAccess width off = true) (hcmd : off ≠ 0) :
    step s = .next (writeReg off v { s with program := rest }) :=
  (step_cons hs hp).trans ((if_pos hl).trans (if_neg hcmd))

end

/-! #### Every step (O12) -/

/-- Why the step of a state is refused: its configuration (`00_scope.md` R6, R7) or its stream (R12) is unlawful, its next
access is (`10_state.md` R41), or it is DECODE_FRAME without a framebuffer (`00_scope.md` R9). -/
inductive RefusalCause (s : State) : Refusal → Prop where
  | config (h : legalConfig s.cfg = false) : RefusalCause s .illegalConfig
  | stream (h : legalStream s.stream = false) : RefusalCause s .illegalStream
  | access {width off : Nat} {v : Word} {rest : List HostAccess}
      (hp : s.program = .write width off v :: rest ∨ s.program = .read width off :: rest)
      (hl : ¬legalAccess width off = true) : RefusalCause s .illegalAccess
  | framebuffer {w : Word} {rest : List HostAccess} (hp : s.program = .cmd w :: rest)
      (h : decodeWord w = .ok .decodeFrame ∧ s.cfg.hasFramebuffer = false ∧ s.fault = false) :
      RefusalCause s .noFramebuffer

/-- The step answers a next state, or is refused for one of the causes. -/
def StepEnds (s : State) : Prop := (∃ t, step s = .next t) ∨ ∃ r, step s = .refused r ∧ RefusalCause s r

theorem not_legalAccess_iff (width off : Nat) :
    ¬legalAccess width off = true ↔ width ≠ 32 ∨ off % 4 ≠ 0 ∨ 0x100 ≤ off := by
  rw [legalAccess_iff]
  omega

section
variable {s : State} (hs : s.lawful)
include hs

theorem stepEnds_of_illegalAccess {width off : Nat} {v : Word} {rest : List HostAccess}
    (hp : s.program = .write width off v :: rest ∨ s.program = .read width off :: rest)
    (hl : ¬legalAccess width off = true) : StepEnds s :=
  .inr ⟨_, step_of_illegalAccess hs hp hl, .access hp hl⟩

/-- A write to CMD has one of the outcomes of `60_exceptions.md` R240. -/
theorem stepEnds_cmd {w : Word} {rest : List HostAccess} (hp : s.program = .cmd w :: rest) : StepEnds s := by
  obtain ⟨hnext, hrefused⟩ := outcomeOfCommand s w rest hs hp
  by_cases hfb : decodeWord w = .ok .decodeFrame ∧ s.cfg.hasFramebuffer = false ∧ s.fault = false
  · exact .inr ⟨_, hrefused hfb, .framebuffer hp hfb⟩
  · obtain ⟨t, h, -⟩ := hnext hfb
    exact .inl ⟨t, h⟩

theorem stepEnds_write {width off : Nat} {v : Word} {rest : List HostAccess}
    (hp : s.program = .write width off v :: rest) : StepEnds s := by
  by_cases hl : legalAccess width off = true
  · by_cases hcmd : off = 0
    · obtain ⟨rfl, -⟩ := (legalAccess_iff width off).1 hl
      subst hcmd
      exact stepEnds_cmd hs hp
    · exact .inl ⟨_, step_writeReg hs hp hl hcmd⟩
  · exact stepEnds_of_illegalAccess hs (.inl hp) hl

theorem stepEnds_read {width off : Nat} {rest : List HostAccess} (hp : s.program = .read width off :: rest) :
    StepEnds s := by
  by_cases hl : legalAccess width off = true
  · exact .inl ⟨_, step_read hs hp hl⟩
  · exact stepEnds_of_illegalAccess hs (v := 0) (.inr hp) hl

theorem stepEnds_of_lawful : StepEnds s := by
  cases hp : s.program with
  | nil => exact .inl ⟨s, step_of_noAccess hs hp⟩
  | cons a rest =>
    cases a with
    | write width off v => exact stepEnds_write hs hp
    | read width off => exact stepEnds_read hs hp

end

/-- Every step ends (`70_reset_and_hazards.md` R280). -/
theorem stepEnds (s : State) : StepEnds s := by
  cases hc : legalConfig s.cfg with
  | false => exact .inr ⟨_, step_of_illegalConfig hc, .config hc⟩
  | true =>
    cases ht : legalStream s.stream with
    | false => exact .inr ⟨_, step_of_illegalStream hc ht, .stream ht⟩
    | true => exact stepEnds_of_lawful ⟨hc, ht⟩

theorem step_ne_fault (s : State) (f : Fault) : step s ≠ .fault f := by
  obtain ⟨_, h⟩ | ⟨_, h, -⟩ := stepEnds s <;> rw [h] <;> nofun

theorem refusalCause_of_step {s : State} {r : Refusal} (h : step s = .refused r) : RefusalCause s r := by
  obtain ⟨_, hnext⟩ | ⟨_, hrefused, hcause⟩ := stepEnds s
  · cases hnext.symm.trans h
  · cases hrefused.symm.trans h
    exact hcause

/-- Settles O12: every step ends, a refused one for one of the four causes. -/
theorem everyStepEnds : Obligations.EveryStepEnds := by
  unfold Obligations.EveryStepEnds
  refine fun s => ⟨step_ne_fault s, fun r h => ?_, step_of_noAccess⟩
  cases refusalCause_of_step h with
  | config hc => exact .inl ⟨rfl, hc⟩
  | stream ht => exact .inr (.inl ⟨rfl, ht⟩)
  | access hp hl => exact .inr (.inr (.inl ⟨_, _, _, _, rfl, hp, (not_legalAccess_iff _ _).1 hl⟩))
  | framebuffer hp hfb => exact .inr (.inr (.inr ⟨_, _, rfl, hp, hfb⟩))

end Sys2Proof.Machine
end
